-- ==== Sys2Proof/Word.lean ====
section
/-!
DEFINITION. The word type of npad-core, and its characters and texts (spec 00_scope R10, R14).
-/

namespace Sys2Proof

/-- `Int32` of R10: a 32-bit two's-complement value. A register, a memory word, an effective address and a data
address are all of this type (`XLEN` = 32, R9). `BitVec.toInt` is the signed number R10 names, `BitVec.toNat` is
`u32` of R11. -/
abbrev Word := BitVec 32

/-- A character of R14: a Unicode code point, which is a scalar value (`Char`) or one of the 2048 surrogates. -/
inductive CodePoint where
  | scalar (c : Char)
  /-- U+D800 plus `k` -/
  | surrogate (k : Fin 2048)
deriving DecidableEq, Repr

/-- The code point's number. -/
def CodePoint.number : CodePoint → Nat
  | .scalar c => c.toNat
  | .surrogate k => 0xD800 + k

/-- A string of R14: a finite sequence of characters. -/
abbrev Text := List CodePoint

/-- The text of scalar values. -/
abbrev chars (cs : List Char) : Text := cs.map .scalar

/-- The text that a Lean string spells. -/
def text (s : String) : Text := chars s.toList

end Sys2Proof
end

