-- ==== Sys2Proof/Machine/Arith.lean ====
section
/-!
DEFINITION. 32-bit arithmetic: `norm32`, the two arithmetic functions of the ALU and the low byte
(spec 00_scope R10, R11; 42_alu R122).
-/

namespace Sys2Proof.Machine

/-- `norm32` of R10: the exact integer wrapped to a 32-bit signed value. -/
def norm32 (v : Int) : Word := BitVec.ofInt 32 v

/-- `ALU_ADD` of R122: the exact signed sum, then the wrap. -/
def aluAdd (a b : Word) : Word := norm32 (a.toInt + b.toInt)

/-- `ALU_SUB` of R122: the exact signed difference, then the wrap. -/
def aluSub (a b : Word) : Word := norm32 (a.toInt - b.toInt)

/-- A value in an `XLEN` of `n` bits (R9), `n` at most 32: its low `n` bits, read as a signed number. At 32 it is the value.
DESIGN CHOICE (log entry 13): `XLEN` below 32 replaces the wrap of R10 by this one; safe. -/
def narrow (n : Nat) (v : Word) : Word := (v.setWidth n).signExtend 32

/-- `v[7:0]` of R11, as a number from 0 to 255. -/
def lowByte (v : Word) : Nat := v.toNat % 256

end Sys2Proof.Machine
end

