-- ==== Sys2Proof/Syntax.lean ====
section
/-!
DEFINITION. The register names, the decoded instructions, the Program and the failure causes
(spec 10_state R20, R30; 30_encoding R84, R97; 60_exceptions R150, R153, R154).
-/

namespace Sys2Proof

/-- The 32 registers of R20, in the order of its table. `at_` is `$at` (`at` is a word of Lean).
PRESUMED (log entry 4): the list of names is the conventional MIPS one, which the spec itself takes from general
knowledge; unsafe. -/
inductive Reg where
  | zero | at_ | v0 | v1 | a0 | a1 | a2 | a3
  | t0 | t1 | t2 | t3 | t4 | t5 | t6 | t7
  | s0 | s1 | s2 | s3 | s4 | s5 | s6 | s7
  | t8 | t9 | k0 | k1 | gp | sp | fp | ra
deriving DecidableEq, Repr

/-- The decoded memory operand of `lw` and `sw` (R91, R97). -/
inductive MemOperand where
  /-- `offset(base)` -/
  | based (off : Word) (base : Reg)
  /-- a number literal or a bare data label, already resolved -/
  | abs (addr : Word)
deriving DecidableEq, Repr

/-- The decoded operation of R97, one constructor per row of the opcode table, in the order of R84. Labels are resolved:
a `la` carries the address of its data label, a branch the index of its text label. -/
inductive Instr where
  | li (rd : Reg) (imm : Word)
  | la (rd : Reg) (addr : Word)
  | move (rd rs : Reg)
  | addi (rd rs : Reg) (imm : Word)
  | add (rd rs rt : Reg)
  | sub (rd rs rt : Reg)
  | lw (rd : Reg) (m : MemOperand)
  | sw (rs : Reg) (m : MemOperand)
  | beq (rs rt : Reg) (target : Nat)
  | bne (rs rt : Reg) (target : Nat)
  | j (target : Nat)
  | syscall
deriving DecidableEq, Repr

/-- The run-time error causes of R150 with the argument each records. -/
inductive Cause where
  /-- code 1: the step bound (R107); the argument is `MAX_STEPS` -/
  | timeout (bound : Nat)
  /-- code 2: the line matches no pattern (R92) -/
  | unsupportedInstruction (line : Text)
  /-- code 3: a label that its table does not hold (R90, R91) -/
  | unknownLabel (label : Text)
  /-- code 4: an immediate that is no number literal (R89) -/
  | invalidImmediate (text : Text)
  /-- code 5: a memory operand of none of the three forms (R91) -/
  | invalidMemoryOperand (text : Text)
  /-- code 6: a selector other than the four services (R148) -/
  | unsupportedSyscall (selector : Word)
deriving DecidableEq, Repr

/-- Why `load` gives no Program. With the default parameters only `emptyProgram` occurs (R78, R153); each of the others
belongs to a parameter of R9 at its other value. -/
inductive LoadError where
  /-- no `.text` instruction line was collected (R78) -/
  | emptyProgram
  /-- `STRICT_DATA_DIRECTIVES`: a `.data` line the loader does not support -/
  | unsupportedDirective (line : Text)
  /-- `LABEL_DUPLICATES` = refuse: a second definition of a label in the same table -/
  | duplicateLabel (label : Text)
  /-- `EAGER_VALIDATION`: the first decode error in source order -/
  | decodeError (cause : Cause)
deriving DecidableEq, Repr

/-- Why `create` makes no state (R154). -/
inductive CreateError where
  /-- a register override names no register -/
  | initBadRegister (name : Text)
  /-- a memory override's address text is no number literal -/
  | initBadAddress (text : Text)
deriving DecidableEq, Repr

/-- The Program of R30: the loaded, read-only form of a source text. The three tables are lists of key and value with no
key twice (log entry 24). -/
structure Program where
  instrs : List Text
  textLabels : List (Text × Nat)
  dataLabels : List (Text × Word)
  dataStrings : List (Word × Text)
deriving DecidableEq, Repr

/-- No program loaded: what `State.reset` holds (log entry 2). `load` never gives it (R78). -/
def Program.empty : Program := { instrs := [], textLabels := [], dataLabels := [], dataStrings := [] }

/-- What `load` does with a second definition of a label (R9, `LABEL_DUPLICATES`). -/
inductive DuplicatePolicy where
  | lastWins
  | refuse
deriving DecidableEq, Repr

/-- The loader's segment (R72). -/
inductive Segment where
  | text
  | data
deriving DecidableEq, Repr

end Sys2Proof
end

