-- ==== Sys2Proof/Machine/Text.lean ====
section
/-!
DEFINITION. The lexical classes of the loader and the decoder, number literals, register names, decimal spelling and the
reference error messages (spec 00_scope R14; 30_encoding R70, R81 to R83; 60_exceptions R151).
-/

namespace Sys2Proof.Machine

/-- `WS` of R81: space (32), TAB (9), CR (13), VT (11), FF (12). -/
def isSpace (ch : CodePoint) : Bool :=
  ch.number == 32 || ch.number == 9 || ch.number == 13 || ch.number == 11 || ch.number == 12

/-- A character of `TOK` (R81): neither `WS` nor a comma. -/
def isTokChar (ch : CodePoint) : Bool := !isSpace ch && ch != .scalar ','

/-- The character's number lies in the range. -/
def inRange (ch : CodePoint) (lo hi : Char) : Bool :=
  decide (lo.toNat ≤ ch.number) && decide (ch.number ≤ hi.toNat)

/-- The first character of `IDENT` (R81): a letter A to Z or a to z, or `_`. -/
def isIdentHead (ch : CodePoint) : Bool :=
  inRange ch 'A' 'Z' || inRange ch 'a' 'z' || ch == .scalar '_'

/-- A later character of `IDENT` (R81). -/
def isIdentChar (ch : CodePoint) : Bool :=
  isIdentHead ch || inRange ch '0' '9' || ch == .scalar '.'

/-- A whole text that is an `IDENT` (R81). -/
def isIdent : Text → Bool
  | [] => false
  | ch :: t => isIdentHead ch && t.all isIdentChar

def trimStart (t : Text) : Text := t.dropWhile isSpace

def trimEnd (t : Text) : Text := (t.reverse.dropWhile isSpace).reverse

/-- `trim` of R81: `WS` removed from both ends. -/
def trim (t : Text) : Text := trimEnd (trimStart t)

/-- One character of the case folding for the case-insensitive matches of R82 and R84.
DESIGN CHOICE (log entry 10): only the letters A to Z fold; unsafe. -/
def lower : CodePoint → CodePoint
  | .scalar c => .scalar c.toLower
  | .surrogate k => .surrogate k

/-- The text with every letter A to Z in lower case. -/
def fold (t : Text) : Text := t.map lower

/-- The text cut at every `sep`; the separator belongs to no piece (R68 with LF, R77 with a comma). -/
def splitOn (sep : CodePoint) : Text → List Text
  | [] => [[]]
  | c :: cs =>
    if c = sep then [] :: splitOn sep cs
    else match splitOn sep cs with
      | [] => [[c]]
      | piece :: pieces => (c :: piece) :: pieces

/-! ## Number literals -/

/-- The value of a decimal digit (R83). -/
def decDigit (ch : CodePoint) : Option Nat :=
  if inRange ch '0' '9' then some (ch.number - 48) else none

/-- The value of a hexadecimal digit in either case (R83). -/
def hexDigit (ch : CodePoint) : Option Nat :=
  if inRange ch '0' '9' then some (ch.number - 48)
  else if inRange ch 'a' 'f' then some (ch.number - 87)
  else if inRange ch 'A' 'F' then some (ch.number - 55)
  else none

/-- The digits of a text read in a base from left to right, `acc` standing for those already read. -/
def readDigits (digit : CodePoint → Option Nat) (base : Nat) : Nat → Text → Option Nat
  | acc, [] => some acc
  | acc, c :: cs =>
    match digit c with
    | some d => readDigits digit base (acc * base + d) cs
    | none => none

/-- One or more digits and nothing else. -/
def readNat (digit : CodePoint → Option Nat) (base : Nat) (t : Text) : Option Nat :=
  if t = [] then none else readDigits digit base 0 t

/-- The part of `NUM` after its sign (R81, R83). -/
def parseMagnitude : Text → Option Nat
  | .scalar '0' :: .scalar 'x' :: ds => readNat hexDigit 16 ds
  | .scalar '0' :: .scalar 'X' :: ds => readNat hexDigit 16 ds
  | t => readNat decDigit 10 t

/-- `parseNum` of R83: `none` where the text is no number literal; the value is wrapped. -/
def parseNum : Text → Option Word
  | .scalar '-' :: t => (parseMagnitude t).map fun (d : Nat) => norm32 (-(d : Int))
  | t => (parseMagnitude t).map fun (d : Nat) => norm32 (d : Int)

/-! ## Decimal spelling -/

/-- The shortest decimal spelling of a natural number. -/
def decNat (n : Nat) : Text := chars (Nat.toDigits 10 n)

/-- `dec` of R14. -/
def dec (v : Word) : Text :=
  if v.toInt < 0 then .scalar '-' :: decNat v.toInt.natAbs else decNat v.toInt.natAbs

/-- `chr` of R14, for a number from 0 to 255. -/
def chr (n : Nat) : CodePoint := .scalar (Char.ofNat n)

/-! ## Register names -/

/-- The registers in the order of R20's table. -/
def allRegs : List Reg :=
  [.zero, .at_, .v0, .v1, .a0, .a1, .a2, .a3, .t0, .t1, .t2, .t3, .t4, .t5, .t6, .t7,
   .s0, .s1, .s2, .s3, .s4, .s5, .s6, .s7, .t8, .t9, .k0, .k1, .gp, .sp, .fp, .ra]

/-- The default of `REG_NAMES` (R9, R20). PRESUMED (log entry 4); unsafe. -/
def regName : Reg → Text
  | .zero => chars ['$', 'z', 'e', 'r', 'o']
  | .at_ => chars ['$', 'a', 't']
  | .v0 => chars ['$', 'v', '0']
  | .v1 => chars ['$', 'v', '1']
  | .a0 => chars ['$', 'a', '0']
  | .a1 => chars ['$', 'a', '1']
  | .a2 => chars ['$', 'a', '2']
  | .a3 => chars ['$', 'a', '3']
  | .t0 => chars ['$', 't', '0']
  | .t1 => chars ['$', 't', '1']
  | .t2 => chars ['$', 't', '2']
  | .t3 => chars ['$', 't', '3']
  | .t4 => chars ['$', 't', '4']
  | .t5 => chars ['$', 't', '5']
  | .t6 => chars ['$', 't', '6']
  | .t7 => chars ['$', 't', '7']
  | .s0 => chars ['$', 's', '0']
  | .s1 => chars ['$', 's', '1']
  | .s2 => chars ['$', 's', '2']
  | .s3 => chars ['$', 's', '3']
  | .s4 => chars ['$', 's', '4']
  | .s5 => chars ['$', 's', '5']
  | .s6 => chars ['$', 's', '6']
  | .s7 => chars ['$', 's', '7']
  | .t8 => chars ['$', 't', '8']
  | .t9 => chars ['$', 't', '9']
  | .k0 => chars ['$', 'k', '0']
  | .k1 => chars ['$', 'k', '1']
  | .gp => chars ['$', 'g', 'p']
  | .sp => chars ['$', 's', 'p']
  | .fp => chars ['$', 'f', 'p']
  | .ra => chars ['$', 'r', 'a']

/-! ## Error messages -/

/-- The default of `errorText`: the reference templates of R151.
DESIGN CHOICE (log entry 7): the source fixes what a message contains, not its wording; unsafe for a claim about the
exact wording. -/
def errorTemplate : Cause → Text
  | .timeout bound => text "Execution timed out after " ++ decNat bound ++ text " steps"
  | .unsupportedInstruction line => text "Unsupported instruction: " ++ line
  | .unknownLabel label => text "Unknown label: " ++ label
  | .invalidImmediate t => text "Invalid immediate: " ++ t
  | .invalidMemoryOperand t => text "Invalid memory operand: " ++ t
  | .unsupportedSyscall selector => text "Unsupported syscall: " ++ dec selector

end Sys2Proof.Machine
end

