-- ==== Sys2Proof/Config.lean ====
section
/-!
DEFINITION. The parameters of spec 00_scope R9, and npad-core's value of each. No parameter is a free value: the spec leaves none (93_implementation_defined).
-/

namespace Sys2Proof

/-- The parameters of R9. The loader, `create`, the decoder, `execWith`, `stepWith` and `runToEndWith` take a `Config`;
`exec`, `step` and `runToEnd`, whose types the host fixes, are these at `npad`.
DESIGN CHOICE (log entry 13): `XLEN` is at most 32, for every value is an `Int32` (R10, 10_state R21), and `NREGS` at most the
number of register names (R9, 10_state R20); safe. -/
structure Config where
  /-- `XLEN`, the width of a register, a memory word and an address: every value is `narrow xlen` of itself -/
  xlen : Nat
  /-- `NREGS`, the number of general registers: the first so many of R20's table -/
  nregs : Nat
  xlen_bound : 1 ≤ xlen ∧ xlen ≤ 32
  nregs_bound : 1 ≤ nregs ∧ nregs ≤ Machine.allRegs.length
  /-- `MAX_STEPS`, the step bound -/
  maxSteps : Nat
  /-- `DATA_BASE`, the first address of the data segment -/
  dataBase : Word
  /-- `INIT_REGS`, a register's value at creation where the host gives none (`$zero` is 0 whatever this says) -/
  initReg : Reg → Word
  /-- `REG_NAMES`, the spelling of each register, in lower case -/
  regName : Reg → Text
  /-- `SELECTOR_REG` -/
  selectorReg : Reg
  /-- `ARG_REG` -/
  argReg : Reg
  /-- `SYS_PRINT_INT` -/
  sysPrintInt : Word
  /-- `SYS_PRINT_STRING` -/
  sysPrintString : Word
  /-- `SYS_EXIT` -/
  sysExit : Word
  /-- `SYS_PRINT_CHAR` -/
  sysPrintChar : Word
  /-- `WORD_BYTES`, what the data allocator counts per `.word` value -/
  wordBytes : Nat
  /-- `errorText`, the message of a cause -/
  errorText : Cause → Text
  /-- `EAGER_VALIDATION` -/
  eagerValidation : Bool
  /-- `STRICT_DATA_DIRECTIVES` -/
  strictDataDirectives : Bool
  /-- `LABEL_DUPLICATES` -/
  labelDuplicates : DuplicatePolicy
  /-- `strLen`, the length counted for an `.asciiz` payload -/
  strLen : Text → Nat

/-- The default column of R9.
`maxSteps` UNVERIFIED (log entry 6), `dataBase` PRESUMED (log entry 5), `initReg` DESIGN CHOICE (log entry 3), `regName`
PRESUMED (log entry 4), `errorText` DESIGN CHOICE (log entry 7), `strLen` and the three loader switches DESIGN CHOICE (log
entry 14); each unsafe, as its entry says. -/
def npad : Config where
  xlen := 32
  nregs := 32
  xlen_bound := by decide
  nregs_bound := by decide
  maxSteps := 10000
  dataBase := 0x10010000#32
  initReg := fun _ => 0#32
  regName := Machine.regName
  selectorReg := .v0
  argReg := .a0
  sysPrintInt := 1#32
  sysPrintString := 4#32
  sysExit := 10#32
  sysPrintChar := 11#32
  wordBytes := 4
  errorText := Machine.errorTemplate
  eagerValidation := false
  strictDataDirectives := false
  labelDuplicates := .lastWins
  strLen := List.length

end Sys2Proof
end

