-- ==== Sys2Proof/WellFormed.lean ====
section
/-!
DEFINITION. Well-formed Programs (what `load` can give, spec 30_encoding R70 to R79) and well-formed instructions of a
Program (what `decode` can give, R90, R97).
-/

namespace Sys2Proof

open Machine

/-- What a stored instruction line is (R68 to R73): not empty, trimmed, without `#` or LF, and not a directive. -/
def lineOk (line : Text) : Bool :=
  line != [] && trim line == line && !line.contains (.scalar '#') && !line.contains (.scalar '\n') && line.head? != some (.scalar '.')

/-- No key stands twice in a table. -/
def keysDistinct {α β : Type} [DecidableEq α] (table : List (α × β)) : Bool :=
  decide (table.map Prod.fst).Nodup

/-- The Program's tables are as the loader leaves them: label names are identifiers (R71), no name stands twice in a table
(R79), every text label is an index in `[0, N]` (R31), every address holds one string (R33), every line is a stored line
(R73). `N >= 1` (R30) is not part of it: `State.reset` holds no program (log entry 2). -/
def Program.wf (p : Program) : Bool :=
  p.instrs.all lineOk &&
  (p.textLabels.all fun e => isIdent e.1 && decide (e.2 ≤ p.instrs.length)) && keysDistinct p.textLabels &&
  (p.dataLabels.all fun e => isIdent e.1) && keysDistinct p.dataLabels &&
  keysDistinct p.dataStrings

/-- Some data label stands for the address. -/
def Program.hasDataAddress (p : Program) (a : Word) : Bool := p.dataLabels.any fun e => e.2 == a

/-- Some text label stands for the index. -/
def Program.hasTarget (p : Program) (target : Nat) : Bool := p.textLabels.any fun e => e.2 == target

/-- The decoded operations that some line of the Program can mean: a `la` names the address of a data label, a branch or
jump the index of a text label (R90). Every other operand is unrestricted: the types already hold only what R97 allows. -/
def Instr.wf (p : Program) : Instr → Bool
  | .li _ _ => true
  | .la _ addr => p.hasDataAddress addr
  | .move _ _ => true
  | .addi _ _ _ => true
  | .add _ _ _ => true
  | .sub _ _ _ => true
  | .lw _ _ => true
  | .sw _ _ => true
  | .beq _ _ target => p.hasTarget target
  | .bne _ _ target => p.hasTarget target
  | .j target => p.hasTarget target
  | .syscall => true

end Sys2Proof
end

