-- ==== Sys2Proof/Decode.lean ====
section
/-!
DEFINITION. The decoder (one instruction line and a Program to a decoded operation or a decode error), the loader (a source
text to a Program or a load error) and an encoder (spec 30_encoding; 20_memory R53 to R56).
-/

namespace Sys2Proof

open Machine

/-! ## Registers and the shapes of operands (R81, R82, R87) -/

/-- The general registers of a parameter choice: the first `NREGS` of 10_state R20's table (00_scope R9). -/
def registers (c : Config) : List Reg := allRegs.take c.nregs

/-- `REG` of R82: the register whose name the text is, ignoring case; `none` for any other text (R24). -/
def lookupReg (c : Config) (t : Text) : Option Reg :=
  (registers c).find? fun r => c.regName r == fold t

/-- `\s*,\s*`. -/
def skipComma (t : Text) : Option Text :=
  match trimStart t with
  | .scalar ',' :: rest => some (trimStart rest)
  | _ => none

/-- `(REG)\s*,\s*` and the text after it. What follows the register's name is `WS` or a comma, so the name is the longest
run of `TOK` characters. -/
def regComma (c : Config) (t : Text) : Option (Reg × Text) :=
  match lookupReg c (t.takeWhile isTokChar), skipComma (t.dropWhile isTokChar) with
  | some r, some rest => some (r, rest)
  | _, _ => none

/-- `(TOK)$`. -/
def tokEnd (t : Text) : Option Text :=
  if t != [] && t.all isTokChar then some t else none

/-- `(.+)$`. DESIGN CHOICE (log entry 11): `.` stands for any character; unsafe. -/
def restEnd (t : Text) : Option Text :=
  if t != [] then some t else none

/-! ## Operand decoding (R88 to R91) -/

/-- R89. -/
def decodeImmediate (tok : Text) : Except Cause Word :=
  match parseNum tok with
  | some v => .ok v
  | none => .error (.invalidImmediate tok)

/-- `DataLabel` of R32. -/
def Program.dataLabel (p : Program) (l : Text) : Option Word := p.dataLabels.lookup l

/-- `TextLabel` of R31. -/
def Program.textLabel (p : Program) (l : Text) : Option Nat := p.textLabels.lookup l

/-- `DataStr` of 20_memory R55: the string allocated at exactly this address. -/
def Program.dataStr (p : Program) (a : Word) : Option Text := p.dataStrings.lookup a

/-- R90 for `la`. -/
def decodeDataLabel (p : Program) (tok : Text) : Except Cause Word :=
  match p.dataLabel tok with
  | some a => .ok a
  | none => .error (.unknownLabel tok)

/-- R90 for `beq`, `bne` and `j`. -/
def decodeTextLabel (p : Program) (tok : Text) : Except Cause Nat :=
  match p.textLabel tok with
  | some i => .ok i
  | none => .error (.unknownLabel tok)

/-- `^(NUM)?\s*\(\s*(REG)\s*\)$` of R91, the offset 0 where it is empty. Neither `NUM` nor the blanks after it hold a
parenthesis, so the offset is what stands before the first one. -/
def parseBased (c : Config) (m : Text) : Option MemOperand :=
  let before := trimEnd (m.takeWhile (· != .scalar '('))
  let off := if before = [] then some 0#32 else parseNum before
  match off, m.dropWhile (· != .scalar '(') with
  | some o, .scalar '(' :: inside =>
    match inside.reverse with
    | .scalar ')' :: body => (lookupReg c (trim body.reverse)).map (MemOperand.based o)
    | _ => none
  | _, _ => none

/-- `parseMem` of R91: the three forms in the spec's order. -/
def parseMem (c : Config) (p : Program) (m : Text) : Except Cause MemOperand :=
  match parseBased c m with
  | some operand => .ok operand
  | none =>
    match parseNum m with
    | some a => .ok (.abs a)
    | none =>
      if isIdent m then
        match p.dataLabel m with
        | some a => .ok (.abs a)
        | none => .error (.unknownLabel m)
      else .error (.invalidMemoryOperand m)

/-! ## The twelve patterns (R84), each on the text after the mnemonic and its `WS`

`none`: the pattern does not match. `some (.error e)`: it matches and an operand fails. -/

/-- Format RI. -/
def decodeLi (c : Config) (t : Text) : Option (Except Cause Instr) :=
  (regComma c t).bind fun (rd, u) => (tokEnd u).map fun tok => (decodeImmediate tok).map (Instr.li rd)

/-- Format RL. -/
def decodeLa (c : Config) (p : Program) (t : Text) : Option (Except Cause Instr) :=
  (regComma c t).bind fun (rd, u) => (tokEnd u).map fun tok => (decodeDataLabel p tok).map (Instr.la rd)

/-- Format RR. -/
def decodeMove (c : Config) (t : Text) : Option (Except Cause Instr) :=
  (regComma c t).bind fun (rd, u) => (lookupReg c u).map fun rs => .ok (.move rd rs)

/-- Format RRI. -/
def decodeAddi (c : Config) (t : Text) : Option (Except Cause Instr) :=
  (regComma c t).bind fun (rd, u) => (regComma c u).bind fun (rs, v) =>
    (tokEnd v).map fun tok => (decodeImmediate tok).map (Instr.addi rd rs)

/-- Format RRR, for `add` and `sub`. -/
def decodeThreeRegs (c : Config) (op : Reg → Reg → Reg → Instr) (t : Text) : Option (Except Cause Instr) :=
  (regComma c t).bind fun (rd, u) => (regComma c u).bind fun (rs, v) =>
    (lookupReg c v).map fun rt => .ok (op rd rs rt)

/-- Format RM, for `lw` and `sw`. -/
def decodeAccess (c : Config) (p : Program) (op : Reg → MemOperand → Instr) (t : Text) :
    Option (Except Cause Instr) :=
  (regComma c t).bind fun (r, u) => (restEnd u).map fun m => (parseMem c p m).map (op r)

/-- Format RRL, for `beq` and `bne`. The label is resolved whether or not the branch is taken (R90). -/
def decodeBranch (c : Config) (p : Program) (op : Reg → Reg → Nat → Instr) (t : Text) :
    Option (Except Cause Instr) :=
  (regComma c t).bind fun (rs, u) => (regComma c u).bind fun (rt, v) =>
    (tokEnd v).map fun tok => (decodeTextLabel p tok).map (op rs rt)

/-- Format L. -/
def decodeJ (p : Program) (t : Text) : Option (Except Cause Instr) :=
  (tokEnd t).map fun tok => (decodeTextLabel p tok).map Instr.j

/-- Format N: nothing stands after the mnemonic. -/
def decodeSyscall (t : Text) : Option (Except Cause Instr) :=
  if t = [] then some (.ok .syscall) else none

/-- The pattern that a folded mnemonic selects (R84, R86), tried on the text after it. -/
def matchPattern (c : Config) (p : Program) (mnemonic t : Text) : Option (Except Cause Instr) :=
  if mnemonic = chars ['l', 'i'] then decodeLi c t
  else if mnemonic = chars ['l', 'a'] then decodeLa c p t
  else if mnemonic = chars ['m', 'o', 'v', 'e'] then decodeMove c t
  else if mnemonic = chars ['a', 'd', 'd', 'i'] then decodeAddi c t
  else if mnemonic = chars ['a', 'd', 'd'] then decodeThreeRegs c .add t
  else if mnemonic = chars ['s', 'u', 'b'] then decodeThreeRegs c .sub t
  else if mnemonic = chars ['l', 'w'] then decodeAccess c p .lw t
  else if mnemonic = chars ['s', 'w'] then decodeAccess c p .sw t
  else if mnemonic = chars ['b', 'e', 'q'] then decodeBranch c p .beq t
  else if mnemonic = chars ['b', 'n', 'e'] then decodeBranch c p .bne t
  else if mnemonic = chars ['j'] then decodeJ p t
  else if mnemonic = chars ['s', 'y', 's', 'c', 'a', 'l', 'l'] then decodeSyscall t
  else none

/-- `decode` of R96: total, a decoded operation or one decode error. The mnemonic is the line's first run of non-`WS`
characters, so what follows it is empty or begins with `WS` (R86). -/
def decode (c : Config) (p : Program) (line : Text) : Except Cause Instr :=
  let l := trim line
  match matchPattern c p (fold (l.takeWhile (!isSpace ·))) (trimStart (l.dropWhile (!isSpace ·))) with
  | some result => result
  | none => .error (.unsupportedInstruction line)

/-! ## The encoder

One spelling of each decoded operation of a Program: the mnemonic in lower case, one blank, the operands separated by a
comma and a blank, numbers in decimal (log entry 25). -/

/-- The mnemonic of a row of R84. -/
def Instr.mnemonic : Instr → Text
  | .li _ _ => chars ['l', 'i']
  | .la _ _ => chars ['l', 'a']
  | .move _ _ => chars ['m', 'o', 'v', 'e']
  | .addi _ _ _ => chars ['a', 'd', 'd', 'i']
  | .add _ _ _ => chars ['a', 'd', 'd']
  | .sub _ _ _ => chars ['s', 'u', 'b']
  | .lw _ _ => chars ['l', 'w']
  | .sw _ _ => chars ['s', 'w']
  | .beq _ _ _ => chars ['b', 'e', 'q']
  | .bne _ _ _ => chars ['b', 'n', 'e']
  | .j _ => chars ['j']
  | .syscall => chars ['s', 'y', 's', 'c', 'a', 'l', 'l']

/-- The first data label that stands for an address. -/
def Program.dataLabelOf (p : Program) (a : Word) : Text :=
  match p.dataLabels.find? fun e => e.2 == a with
  | some e => e.1
  | none => []

/-- The first text label that stands for an index. -/
def Program.textLabelOf (p : Program) (target : Nat) : Text :=
  match p.textLabels.find? fun e => e.2 == target with
  | some e => e.1
  | none => []

def encodeMem (c : Config) : MemOperand → Text
  | .based off base => dec off ++ .scalar '(' :: (c.regName base ++ chars [')'])
  | .abs a => dec a

/-- The operands of an instruction, in operand order (R87, R100). -/
def Instr.operands (c : Config) (p : Program) : Instr → List Text
  | .li rd imm => [c.regName rd, dec imm]
  | .la rd addr => [c.regName rd, p.dataLabelOf addr]
  | .move rd rs => [c.regName rd, c.regName rs]
  | .addi rd rs imm => [c.regName rd, c.regName rs, dec imm]
  | .add rd rs rt => [c.regName rd, c.regName rs, c.regName rt]
  | .sub rd rs rt => [c.regName rd, c.regName rs, c.regName rt]
  | .lw rd m => [c.regName rd, encodeMem c m]
  | .sw rs m => [c.regName rs, encodeMem c m]
  | .beq rs rt target => [c.regName rs, c.regName rt, p.textLabelOf target]
  | .bne rs rt target => [c.regName rs, c.regName rt, p.textLabelOf target]
  | .j target => [p.textLabelOf target]
  | .syscall => []

/-- Operands separated by a comma and a blank. -/
def joinOperands : List Text → Text
  | [] => []
  | [t] => t
  | t :: u :: ts => t ++ .scalar ',' :: .scalar ' ' :: joinOperands (u :: ts)

/-- The line of a well-formed instruction of the Program. -/
def encode (c : Config) (p : Program) (i : Instr) : Text :=
  match i.operands c p with
  | [] => i.mnemonic
  | ops => i.mnemonic ++ .scalar ' ' :: joinOperands ops

/-! ## The loader (R68 to R80) -/

/-- What the loader holds during its pass (30_encoding section 1). -/
structure LoadState where
  seg : Segment
  instrs : List Text
  textLabels : List (Text × Nat)
  dataLabels : List (Text × Word)
  dataStrings : List (Word × Text)
  cursor : Word
deriving DecidableEq, Repr

/-- The start of each load: segment `.text` (R72), the cursor at `DATA_BASE` (20_memory R53). -/
def LoadState.start (c : Config) : LoadState :=
  { seg := .text, instrs := [], textLabels := [], dataLabels := [], dataStrings := [], cursor := narrow c.xlen c.dataBase }

/-- Binds a key in a table: a key already there gets the new value (R79), a new key goes last. -/
def bindKey {α β : Type} [DecidableEq α] (k : α) (v : β) : List (α × β) → List (α × β)
  | [] => [(k, v)]
  | (k', w) :: rest => if k' = k then (k, v) :: rest else (k', w) :: bindKey k v rest

/-- R69: what stands before the first `#`. -/
def stripComment (line : Text) : Text := line.takeWhile (· != .scalar '#')

/-- One label at the head of a line, and the trimmed remainder (R71). -/
def peelLabel (t : Text) : Option (Text × Text) :=
  let name := t.takeWhile isIdentChar
  if isIdent name then
    match t.dropWhile isIdentChar with
    | .scalar ':' :: rest => some (name, trim rest)
    | _ => none
  else none

/-- All labels at the head of a line, in order, and the trimmed remainder (R71). The fuel is at least the number of
characters, and every label takes one away. -/
def peelLabels : Nat → Text → List Text × Text
  | 0, t => ([], t)
  | fuel + 1, t =>
    match peelLabel t with
    | some (name, rest) => (name :: (peelLabels fuel rest).1, (peelLabels fuel rest).2)
    | none => ([], t)

/-- The table refuses a second definition only under `LABEL_DUPLICATES` = refuse (R9). -/
def duplicateRefused {β : Type} (c : Config) (table : List (Text × β)) (name : Text) : Bool :=
  decide (c.labelDuplicates = .refuse) && (table.lookup name).isSome

/-- R71: in `.text` a label maps to the index of the next instruction, in `.data` to the cursor. -/
def bindLabel (c : Config) (name : Text) (st : LoadState) : Except LoadError LoadState :=
  match st.seg with
  | .text =>
    if duplicateRefused c st.textLabels name then .error (.duplicateLabel name)
    else .ok { st with textLabels := bindKey name st.instrs.length st.textLabels }
  | .data =>
    if duplicateRefused c st.dataLabels name then .error (.duplicateLabel name)
    else .ok { st with dataLabels := bindKey name st.cursor st.dataLabels }

def bindLabels (c : Config) : List Text → LoadState → Except LoadError LoadState
  | [], st => .ok st
  | name :: names, st =>
    match bindLabel c name st with
    | .ok st' => bindLabels c names st'
    | .error e => .error e

/-- R76: the raw payload of an `.asciiz` line, between the first quote after the directive and the quote that ends the
line. The argument is the text after the directive and its `WS`. -/
def asciizPayload (t : Text) : Option Text :=
  match t with
  | .scalar '"' :: rest =>
    match rest.reverse with
    | .scalar '"' :: body => some body.reverse
    | _ => none
  | _ => none

/-- R76: backslash `n` becomes LF and backslash quote a quote, from left to right; every other character is kept. -/
def expandEscapes : Text → Text
  | [] => []
  | [a] => [a]
  | a :: b :: t =>
    if a = .scalar '\\' ∧ b = .scalar 'n' then .scalar '\n' :: expandEscapes t
    else if a = .scalar '\\' ∧ b = .scalar '"' then .scalar '"' :: expandEscapes t
    else a :: expandEscapes (b :: t)

/-- R77: the number of non-empty pieces between commas. -/
def wordCount (t : Text) : Nat := ((splitOn (.scalar ',') t).filter fun piece => trim piece != []).length

/-- 20_memory R54. The wrap past `2^31 - 1` is the spec's default for I9 (log entry 16). -/
def allocString (c : Config) (s : Text) (st : LoadState) : LoadState :=
  { st with
    dataStrings := bindKey st.cursor s st.dataStrings
    cursor := narrow c.xlen (norm32 (st.cursor.toInt + c.strLen s + 1)) }

/-- 20_memory R56: the values are not stored anywhere. -/
def allocWords (c : Config) (k : Nat) (st : LoadState) : LoadState :=
  { st with cursor := narrow c.xlen (norm32 (st.cursor.toInt + (max 1 k * c.wordBytes : Nat))) }

/-- R75: a `.data` line the loader does not support is ignored, or fails the load under `STRICT_DATA_DIRECTIVES` (R9;
log entry 14). -/
def unsupportedData (c : Config) (body : Text) (st : LoadState) : Except LoadError LoadState :=
  if c.strictDataDirectives then .error (.unsupportedDirective body) else .ok st

/-- R75 to R77: a line of the `.data` segment; `first` is its first token, `rest` what stands after it and its `WS`. -/
def loadDataLine (c : Config) (body first rest : Text) (st : LoadState) : Except LoadError LoadState :=
  if first = chars ['.', 'a', 's', 'c', 'i', 'i', 'z'] then
    match asciizPayload rest with
    | some payload => .ok (allocString c (expandEscapes payload) st)
    | none => unsupportedData c body st
  else if first = chars ['.', 'w', 'o', 'r', 'd'] then .ok (allocWords c (wordCount rest) st)
  else unsupportedData c body st

/-- R73, R74: a line of the `.text` segment; a directive is skipped. -/
def loadTextLine (body : Text) (st : LoadState) : LoadState :=
  if body.head? = some (.scalar '.') then st else { st with instrs := st.instrs ++ [body] }

/-- R72 to R75: a line after its labels, not empty. -/
def loadBody (c : Config) (body : Text) (st : LoadState) : Except LoadError LoadState :=
  let first := body.takeWhile (!isSpace ·)
  if first = chars ['.', 't', 'e', 'x', 't'] then .ok { st with seg := .text }
  else if first = chars ['.', 'd', 'a', 't', 'a'] then .ok { st with seg := .data }
  else if first = chars ['.', 'g', 'l', 'o', 'b', 'l'] then .ok st
  else match st.seg with
    | .text => .ok (loadTextLine body st)
    | .data => loadDataLine c body first (trimStart (body.dropWhile (!isSpace ·))) st

/-- R69 to R75: one source line. -/
def loadLine (c : Config) (line : Text) (st : LoadState) : Except LoadError LoadState :=
  let t := trim (stripComment line)
  let peeled := peelLabels t.length t
  match bindLabels c peeled.1 st with
  | .error e => .error e
  | .ok st' => if peeled.2 = [] then .ok st' else loadBody c peeled.2 st'

def loadLines (c : Config) : List Text → LoadState → Except LoadError LoadState
  | [], st => .ok st
  | line :: lines, st =>
    match loadLine c line st with
    | .ok st' => loadLines c lines st'
    | .error e => .error e

/-- The Program of the tables the loader holds. -/
def LoadState.program (st : LoadState) : Program :=
  { instrs := st.instrs, textLabels := st.textLabels, dataLabels := st.dataLabels, dataStrings := st.dataStrings }

/-- The first decode error of a Program's lines in source order (R9, `EAGER_VALIDATION`). -/
def firstDecodeError (c : Config) (p : Program) : List Text → Option Cause
  | [] => none
  | line :: lines =>
    match decode c p line with
    | .ok _ => firstDecodeError c p lines
    | .error e => some e

/-- What stands at the end of the pass: `EmptyProgram` (R78), the eager check (R9), or the Program. -/
def finishLoad (c : Config) (p : Program) : Except LoadError Program :=
  if p.instrs = [] then .error .emptyProgram
  else if c.eagerValidation then
    match firstDecodeError c p p.instrs with
    | some e => .error (.decodeError e)
    | none => .ok p
  else .ok p

/-- The message of a failed load: 60_exceptions R153 gives `EmptyProgram` one, and the spec gives the failures that belong to
parameters at their other values none.
DESIGN CHOICE (log entry 9): those have no message; safe. -/
def LoadError.message : LoadError → Option Text
  | .emptyProgram => some (text "no instructions found")
  | .unsupportedDirective _ => none
  | .duplicateLabel _ => none
  | .decodeError _ => none

/-- `load` of 30_encoding section 1: total on every source text (R80).
DESIGN CHOICE (log entry 14): where several failures apply under the loader's switches (R9), the one that the pass over the
lines meets first is reported, then `EmptyProgram`, then the first decode error, even where that error's line stands before;
safe. -/
def load (c : Config) (source : Text) : Except LoadError Program :=
  match loadLines c (splitOn (.scalar '\n') source) (LoadState.start c) with
  | .ok st => finishLoad c st.program
  | .error e => .error e

/-! ## The host's numbering of an instruction's bits

npad-core has no instruction bits (R67). DESIGN CHOICE (log entry 1): the bytes of `w`, the lowest first, are the characters
of a source text, and the instruction is the first one of the Program it loads; safe. -/

/-- The text of at most `k` bytes of `w`, the lowest first; zero bytes at the end are dropped. -/
def bytesText : Nat → Nat → Text
  | 0, _ => []
  | k + 1, w => if w = 0 then [] else chr (w % 256) :: bytesText k (w / 256)

/-- The source text that `nbits` bits of `w` spell. -/
def wordText (nbits w : Nat) : Text := bytesText ((nbits + 7) / 8) w

/-- The instruction of the first line of a Program. -/
def firstInstr (c : Config) (p : Program) : Option Instr :=
  match p.instrs with
  | [] => none
  | line :: _ =>
    match decode c p line with
    | .ok i => some i
    | .error _ => none

def decodeTableWord (nbits w : Nat) : Option Instr :=
  match load npad (wordText nbits w) with
  | .ok p => firstInstr npad p
  | .error _ => none

end Sys2Proof
end

