-- ==== Sys2Proof/Machine/State.lean ====
section
/-!
DEFINITION. The machine state (spec 10_state R40), its value at reset (R44), and the reasons a step can stop.
-/

namespace Sys2Proof.Machine

/-- R35. `halted` and `error` are terminal. -/
inductive Status where
  | ready
  | halted
  | error
deriving DecidableEq, Repr

/-- The word memory of 20_memory R45: a key, read as the unsigned number of its 32-bit address (`u32`, R11), and the word
there. Canonical form (`Memory.wf`): keys strictly rising, no word equal to `Memory.unlisted`.
DESIGN CHOICE (log entry 8): a cell holds a whole word, for R49 forbids a byte view; whether a key that reads 0 is listed is
not kept; unsafe for a claim about which keys are listed. -/
abbrev Memory := List (Nat × Word)

/-- Faults of a step: there is none. Every step of npad-core is a total function (40_execution_cycle R105) and every failure
the spec names is the terminal state `status = error` (60_exceptions R149, R152), a next state. Nothing raises a fault.
DEDUCED (log entry 17); safe. -/
inductive Fault where
deriving DecidableEq, Repr

/-- Refusals of a step. -/
inductive Refusal where
  /-- An instruction without a meaning yet, raised by its arm of `exec` only; no arm raises it now. Safe. -/
  | notModelled (mnemonic : String)
deriving DecidableEq, Repr

/-- The machine state of R40, field by field. -/
structure State where
  /-- the source text the Program was loaded from (R43) -/
  source : Text
  /-- the loaded Program, read-only (R30) -/
  program : Program
  /-- the register file, in the order of R20's table; read and written through `readReg` and `writeReg` only -/
  regs : Vector Word 32
  /-- the word memory (20_memory R45) -/
  mem : Memory
  /-- the output stream (R39) -/
  output : Text
  /-- R35 -/
  status : Status
  /-- the error message (R38) -/
  error : Option Text
  /-- the index of the next instruction line (R27) -/
  pc : Nat
  /-- the step counter (R34) -/
  steps : Nat
  /-- registers in first-write order, no register twice (R36) -/
  touchedRegs : List Reg
  /-- stored addresses in first-write order, no address twice (R37) -/
  touchedMem : List Word
deriving DecidableEq, Repr

/-- The state at creation of R44 with no host overrides, before a program is placed.
DESIGN CHOICE (log entry 2): no program is loaded and the source is empty; safe.
DESIGN CHOICE (log entry 3): every register but `$zero` starts at 0, the spec's default of `INIT_REGS`; unsafe. -/
def State.reset : State where
  source := []
  program := Program.empty
  regs := Vector.replicate 32 0#32
  mem := []
  output := []
  status := .ready
  error := none
  pc := 0
  steps := 0
  touchedRegs := []
  touchedMem := []

end Sys2Proof.Machine
end

