-- ==== Sys2Proof/Machine/Ops.lean ====
section
/-!
DEFINITION. The named operations over registers, memory, output, pc and status that every meaning is made of, and entry into
the error state (spec 00_scope R12, R13; 10_state R22, R28, R36 to R39; 20_memory R47, R48; 60_exceptions R152).
-/

namespace Sys2Proof.Machine

/-! ## Ordered sets -/

/-- Adds an element to an ordered set in first-write order: nothing changes where it is already there (R36, R37). -/
def insertOnce {α : Type} [DecidableEq α] (a : α) (l : List α) : List α :=
  if a ∈ l then l else l ++ [a]

/-! ## Registers -/

/-- A register's place in the register file: its index in R20's table. No instruction sees it. -/
def regIndex : Reg → Fin 32
  | .zero => 0
  | .at_ => 1
  | .v0 => 2
  | .v1 => 3
  | .a0 => 4
  | .a1 => 5
  | .a2 => 6
  | .a3 => 7
  | .t0 => 8
  | .t1 => 9
  | .t2 => 10
  | .t3 => 11
  | .t4 => 12
  | .t5 => 13
  | .t6 => 14
  | .t7 => 15
  | .s0 => 16
  | .s1 => 17
  | .s2 => 18
  | .s3 => 19
  | .s4 => 20
  | .s5 => 21
  | .s6 => 22
  | .s7 => 23
  | .t8 => 24
  | .t9 => 25
  | .k0 => 26
  | .k1 => 27
  | .gp => 28
  | .sp => 29
  | .fp => 30
  | .ra => 31

/-- What the register file holds at a register's place, `$zero`'s among them. -/
def State.regSlot (s : State) (r : Reg) : Word := s.regs[regIndex r]

/-- `x[r]` (00_scope R12): `$zero` reads 0 at all times (10_state R22). -/
def State.readReg (s : State) (r : Reg) : Word :=
  if r = .zero then 0#32 else s.regSlot r

/-- Sets a register other than `$zero`, without marking it as touched: a host override (70_reset R168) and the value part of
a register write. Nothing happens for `$zero` (10_state R22). -/
def State.setReg (s : State) (r : Reg) (v : Word) : State :=
  { s with regs := if r = .zero then s.regs else s.regs.set (regIndex r) v }

/-- Marks a register as touched (10_state R36); `$zero` never is. -/
def State.touchReg (s : State) (r : Reg) : State :=
  { s with touchedRegs := if r = .zero then s.touchedRegs else insertOnce r s.touchedRegs }

/-- `x[r] <- v` (00_scope R12): the value and the touched set, no effect at all for `$zero` (10_state R22, R36). -/
def State.writeReg (s : State) (r : Reg) (v : Word) : State := (s.setReg r v).touchReg r

/-- `x[r] <- v` of an instruction, the value wrapped to `XLEN` bits (10_state R21, 00_scope R9). -/
def State.putReg (c : Config) (s : State) (r : Reg) (v : Word) : State := s.writeReg r (narrow c.xlen v)

/-- `registers[$zero] <- 0`, the re-assertion after every step that reaches fetch (40_execution_cycle R112). -/
def State.clearZero (s : State) : State := { s with regs := s.regs.set 0 0#32 }

/-! ## Word memory -/

/-- What an unlisted key reads as (20_memory R46). -/
def Memory.unlisted : Word := 0#32

/-- The word at a key. -/
def Memory.read : Memory → Nat → Word
  | [], _ => Memory.unlisted
  | (k, v) :: rest, a => if k = a then v else Memory.read rest a

/-- The memory with the word at a key set, in canonical form. -/
def Memory.write : Memory → Nat → Word → Memory
  | [], a, v => if v = Memory.unlisted then [] else [(a, v)]
  | (k, w) :: rest, a, v =>
    if a < k then (if v = Memory.unlisted then (k, w) :: rest else (a, v) :: (k, w) :: rest)
    else if a = k then (if v = Memory.unlisted then rest else (a, v) :: rest)
    else (k, w) :: Memory.write rest a v

/-- The canonical form: keys strictly rising and below `2^32`, no entry equal to what an unlisted key reads as. -/
abbrev Memory.wf (m : Memory) : Prop :=
  (m.map Prod.fst).Pairwise (· < ·) ∧ ∀ e ∈ m, e.1 < 2 ^ 32 ∧ e.2 ≠ Memory.unlisted

/-- `MemRead(a, 4)` of R47. -/
def State.memRead (s : State) (a : Word) : Word := Memory.read s.mem a.toNat

/-- Sets a word without marking its address as touched: a host override (70_reset R169) and the value part of a store. -/
def State.setMem (s : State) (a v : Word) : State := { s with mem := Memory.write s.mem a.toNat v }

/-- `MemWrite(a, 4, v)` of R48, with the touched set of 10_state R37. -/
def State.memWrite (s : State) (a v : Word) : State :=
  { s.setMem a v with touchedMem := insertOnce a s.touchedMem }

/-! ## pc, output, status -/

/-- `pc <- pc + 1` (10_state R28). -/
def State.advance (s : State) : State := { s with pc := s.pc + 1 }

/-- `pc <- t`: a control transfer that transfers (10_state R28). -/
def State.jump (s : State) (target : Nat) : State := { s with pc := target }

/-- `out <- out ++ t` (10_state R39). -/
def State.print (s : State) (t : Text) : State := { s with output := s.output ++ t }

/-- `status <- halted`, nothing else (40_execution_cycle R106, 45_syscall R146). -/
def State.halt (s : State) : State := { s with status := .halted }

/-- ENTRY INTO THE ERROR STATE, npad-core's one exception-like event (60_exceptions R152): `status` and `error` are set and
nothing else changes; `pc` keeps the index of the failing instruction. There is no handler, no saved register and no return
(R149, R158). -/
def State.raise (c : Config) (e : Cause) (s : State) : State :=
  { s with status := .error, error := some (c.errorText e) }

/-- Steps 7 and 8 of R105: the step counter and the zero register, after an instruction that completed, halted or failed. -/
def State.retire (s : State) : State := { s with steps := s.steps + 1 }.clearZero

/-- `fail` of R105: a decode error's whole transition. -/
def State.fail (c : Config) (e : Cause) (s : State) : State := (s.raise c e).retire

/-- Fetch: the instruction line at `pc`, `none` where `pc` is outside `[0, N)` (40_execution_cycle R106, R108). -/
def State.fetch (s : State) : Option Text := s.program.instrs[s.pc]?

end Sys2Proof.Machine
end

