-- ==== Sys2Proof/Machine/Cycle.lean ====
section
/-!
DEFINITION. The execution cycle (spec 40_execution_cycle R105), for any parameters and any execute function, and the placing
of a program where the cycle fetches. `step` is this cycle at npad-core's parameters and `exec`.
-/

namespace Sys2Proof.Machine

/-- Steps 7 and 8 of R105 after execute: a next state is retired, a stop stays a stop. -/
def retireOutcome : Host.Outcome State Fault Refusal → Host.Outcome State Fault Refusal
  | .next s => .next s.retire
  | .fault r => .fault r
  | .refused r => .refused r

/-- `step` of R105 in the spec's order: status (R113), pc range (R106), step bound (R107), decode (R108), execute (R110). -/
def cycle (c : Config) (execute : Instr → State → Host.Outcome State Fault Refusal) (s : State) :
    Host.Outcome State Fault Refusal :=
  if s.status ≠ .ready then .next s
  else match s.fetch with
    | none => .next s.halt
    | some line =>
      if c.maxSteps ≤ s.steps then .next (s.raise c (.timeout c.maxSteps))
      else match decode c s.program line with
        | .error e => .next (s.fail c e)
        | .ok i => retireOutcome (execute i s)

/-- The state with a Program placed so that the next cycle fetches its first line: the Program and its source, `pc` at 0,
`status` ready, and a step counter below the bound. It stands for the host's load (70_reset R172; log entry 2). -/
def State.placeProgram (c : Config) (s : State) (source : Text) (p : Program) : State :=
  { s with
    source := source
    program := p
    pc := 0
    status := .ready
    error := none
    steps := if s.steps < c.maxSteps then s.steps else 0 }

/-- The state with the source text that `nbits` bits of `w` spell loaded and placed (log entry 1); a text that does not load
changes nothing. -/
def State.placeWord (c : Config) (s : State) (nbits w : Nat) : State :=
  match load c (wordText nbits w) with
  | .ok p => s.placeProgram c (wordText nbits w) p
  | .error _ => s

end Sys2Proof.Machine
end

