-- ==== Sys2Proof/Machine/Alu.lean ====
section
/-!
DEFINITION. The meanings of `addi`, `add` and `sub` (spec 42_alu). Overflow wraps and is not recorded (R123).
-/

namespace Sys2Proof.Machine

/-- `addi rd, rs, imm` (R126), the immediate a full 32-bit value. -/
def execAddiWith (c : Config) (rd rs : Reg) (imm : Word) (s : State) : Host.Outcome State Fault Refusal :=
  .next (s.putReg c rd (aluAdd (s.readReg rs) imm)).advance

/-- `addi` (R126) at npad-core's parameters. -/
def execAddi (rd rs : Reg) (imm : Word) (s : State) : Host.Outcome State Fault Refusal := execAddiWith npad rd rs imm s

/-- `add rd, rs, rt` (R127). -/
def execAddWith (c : Config) (rd rs rt : Reg) (s : State) : Host.Outcome State Fault Refusal :=
  .next (s.putReg c rd (aluAdd (s.readReg rs) (s.readReg rt))).advance

/-- `add` (R127) at npad-core's parameters. -/
def execAdd (rd rs rt : Reg) (s : State) : Host.Outcome State Fault Refusal := execAddWith npad rd rs rt s

/-- `sub rd, rs, rt` (R128). -/
def execSubWith (c : Config) (rd rs rt : Reg) (s : State) : Host.Outcome State Fault Refusal :=
  .next (s.putReg c rd (aluSub (s.readReg rs) (s.readReg rt))).advance

/-- `sub` (R128) at npad-core's parameters. -/
def execSub (rd rs rt : Reg) (s : State) : Host.Outcome State Fault Refusal := execSubWith npad rd rs rt s

end Sys2Proof.Machine
end

