-- ==== Sys2Proof/Machine/Flags.lean ====
section
/-!
DEFINITION. Conditions. npad-core has no flags and no condition codes (spec 10_state R41); the one condition an
instruction computes is the ALU's equality, which is not stored anywhere (42_alu R122).
-/

namespace Sys2Proof.Machine

/-- `ALU_EQ` of R122: equality of the two 32-bit values. -/
def aluEq (a b : Word) : Bool := decide (a = b)

end Sys2Proof.Machine
end

