-- ==== Sys2Proof/Machine/Control.lean ====
section
/-!
DEFINITION. The meanings of `beq`, `bne` and `j` (spec 44_branch_jump). Targets are instruction indices; there is no delay
slot and no link (R141).
-/

namespace Sys2Proof.Machine

/-- `pc <- target` where the condition holds, `pc <- pc + 1` otherwise (10_state R28). -/
def State.branch (s : State) (taken : Bool) (target : Nat) : State :=
  { s with pc := if taken then target else s.pc + 1 }

/-- `beq rs, rt, label` (R138). -/
def execBeq (rs rt : Reg) (target : Nat) (s : State) : Host.Outcome State Fault Refusal :=
  .next (s.branch (aluEq (s.readReg rs) (s.readReg rt)) target)

/-- `bne rs, rt, label` (R139). -/
def execBne (rs rt : Reg) (target : Nat) (s : State) : Host.Outcome State Fault Refusal :=
  .next (s.branch (!aluEq (s.readReg rs) (s.readReg rt)) target)

/-- `j label` (R140). -/
def execJ (target : Nat) (s : State) : Host.Outcome State Fault Refusal :=
  .next (s.jump target)

end Sys2Proof.Machine
end

