-- ==== Sys2Proof/Machine/Operands.lean ====
section
/-!
DEFINITION. The address translator (spec 43_load_store R130, R131): the effective address of the three operand forms.
Translation is the identity; no address faults, no base register is updated (R133).
-/

namespace Sys2Proof.Machine

/-- `EA` of R130: `offset(base)` wraps, a literal or a bare data label is the address itself. -/
def effectiveAddress (s : State) : MemOperand → Word
  | .based off base => aluAdd (s.readReg base) off
  | .abs addr => addr

/-- The effective address in `XLEN` bits (00_scope R9), where a load or a store goes. -/
def accessAddress (c : Config) (s : State) (m : MemOperand) : Word := narrow c.xlen (effectiveAddress s m)

end Sys2Proof.Machine
end

