-- ==== Sys2Proof/Machine/LoadStore.lean ====
section
/-!
DEFINITION. The meanings of `lw` and `sw` (spec 43_load_store): one access of one whole word each (R132, R134).
-/

namespace Sys2Proof.Machine

/-- `lw rd, mem` (R135). -/
def execLwWith (c : Config) (rd : Reg) (m : MemOperand) (s : State) : Host.Outcome State Fault Refusal :=
  .next (s.putReg c rd (s.memRead (accessAddress c s m))).advance

/-- `lw` (R135) at npad-core's parameters. -/
def execLw (rd : Reg) (m : MemOperand) (s : State) : Host.Outcome State Fault Refusal := execLwWith npad rd m s

/-- `sw rs, mem` (R136). -/
def execSwWith (c : Config) (rs : Reg) (m : MemOperand) (s : State) : Host.Outcome State Fault Refusal :=
  .next (s.memWrite (accessAddress c s m) (s.readReg rs)).advance

/-- `sw` (R136) at npad-core's parameters. -/
def execSw (rs : Reg) (m : MemOperand) (s : State) : Host.Outcome State Fault Refusal := execSwWith npad rs m s

end Sys2Proof.Machine
end

