-- ==== Sys2Proof/Machine/Moves.lean ====
section
/-!
DEFINITION. The meanings of `li`, `la` and `move` (spec 41_move_immediate).
-/

namespace Sys2Proof.Machine

/-- `li rd, imm` (R119). -/
def execLiWith (c : Config) (rd : Reg) (imm : Word) (s : State) : Host.Outcome State Fault Refusal :=
  .next (s.putReg c rd imm).advance

/-- `li` (R119) at npad-core's parameters. -/
def execLi (rd : Reg) (imm : Word) (s : State) : Host.Outcome State Fault Refusal := execLiWith npad rd imm s

/-- `la rd, label` (R120), the label already resolved to its address. -/
def execLaWith (c : Config) (rd : Reg) (addr : Word) (s : State) : Host.Outcome State Fault Refusal :=
  .next (s.putReg c rd addr).advance

/-- `la` (R120) at npad-core's parameters. -/
def execLa (rd : Reg) (addr : Word) (s : State) : Host.Outcome State Fault Refusal := execLaWith npad rd addr s

/-- `move rd, rs` (R121). -/
def execMoveWith (c : Config) (rd rs : Reg) (s : State) : Host.Outcome State Fault Refusal :=
  .next (s.putReg c rd (s.readReg rs)).advance

/-- `move` (R121) at npad-core's parameters. -/
def execMove (rd rs : Reg) (s : State) : Host.Outcome State Fault Refusal := execMoveWith npad rd rs s

end Sys2Proof.Machine
end

