-- ==== Sys2Proof/Machine/Syscall.lean ====
section
/-!
DEFINITION. The meaning of `syscall` (spec 45_syscall): the four services and the error of every other selector.
-/

namespace Sys2Proof.Machine

/-- The text service 4 appends: the string allocated at exactly the address, or nothing (R145). -/
def State.stringAt (s : State) (a : Word) : Text := (s.program.dataStr a).getD []

/-- The service that the selector names (R143 to R148), with the parameters of 00_scope R9. -/
def State.service (c : Config) (s : State) : State :=
  let selector := s.readReg c.selectorReg
  let argument := s.readReg c.argReg
  if selector = c.sysPrintInt then (s.print (dec argument)).advance
  else if selector = c.sysPrintString then (s.print (s.stringAt argument)).advance
  else if selector = c.sysExit then s.halt
  else if selector = c.sysPrintChar then (s.print [chr (lowByte argument)]).advance
  else s.raise c (.unsupportedSyscall selector)

/-- `syscall` (R143) with the parameters of 00_scope R9. -/
def execSyscallWith (c : Config) (s : State) : Host.Outcome State Fault Refusal :=
  .next (s.service c)

/-- `syscall` (R143): the service at npad-core's parameters. -/
def execSyscall (s : State) : Host.Outcome State Fault Refusal := execSyscallWith npad s

end Sys2Proof.Machine
end

