-- ==== Sys2Proof/Machine/Dispatch.lean ====
section
/-!
DEFINITION. Dispatch of a decoded operation to its meaning (spec 40_execution_cycle R110).
-/

namespace Sys2Proof.Machine

def exec (i : Instr) (s : State) : Host.Outcome State Fault Refusal :=
  match i with
  | .li rd imm => Sys2Proof.Machine.execLi rd imm s
  | .la rd addr => Sys2Proof.Machine.execLa rd addr s
  | .move rd rs => Sys2Proof.Machine.execMove rd rs s
  | .addi rd rs imm => Sys2Proof.Machine.execAddi rd rs imm s
  | .add rd rs rt => Sys2Proof.Machine.execAdd rd rs rt s
  | .sub rd rs rt => Sys2Proof.Machine.execSub rd rs rt s
  | .lw rd m => Sys2Proof.Machine.execLw rd m s
  | .sw rs m => Sys2Proof.Machine.execSw rs m s
  | .beq rs rt target => Sys2Proof.Machine.execBeq rs rt target s
  | .bne rs rt target => Sys2Proof.Machine.execBne rs rt target s
  | .j target => Sys2Proof.Machine.execJ target s
  | .syscall => Sys2Proof.Machine.execSyscall s

end Sys2Proof.Machine
end

