-- ==== Sys2Proof/Machine/Step.lean ====
section
/-!
DEFINITION. One step of npad-core (spec 40_execution_cycle R105).
-/

namespace Sys2Proof.Machine

/-- `step` of R105: the execution cycle at npad-core's parameters. -/
def step (s : State) : Host.Outcome State Fault Refusal := cycle npad exec s

/-- The state whose next step fetches the instruction that `nbits` bits of `w` spell (log entries 1 and 2). -/
def State.withFetchWord (s : State) (nbits w : Nat) : State := s.placeWord npad nbits w

end Sys2Proof.Machine
end

