-- ==== Sys2Proof/Machine/Parametric.lean ====
section
/-!
DEFINITION. Execute and step with every parameter of spec 00_scope R9 as an argument. `exec` and `step` are these at `npad`.
-/

namespace Sys2Proof.Machine

/-- `execute` of 40_execution_cycle R110 with the parameters: control transfers read none. -/
def execWith (c : Config) (i : Instr) (s : State) : Host.Outcome State Fault Refusal :=
  match i with
  | .li rd imm => execLiWith c rd imm s
  | .la rd addr => execLaWith c rd addr s
  | .move rd rs => execMoveWith c rd rs s
  | .addi rd rs imm => execAddiWith c rd rs imm s
  | .add rd rs rt => execAddWith c rd rs rt s
  | .sub rd rs rt => execSubWith c rd rs rt s
  | .lw rd m => execLwWith c rd m s
  | .sw rs m => execSwWith c rs m s
  | .beq rs rt target => execBeq rs rt target s
  | .bne rs rt target => execBne rs rt target s
  | .j target => execJ target s
  | .syscall => execSyscallWith c s

/-- `step` of 40_execution_cycle R105 with the parameters. -/
def stepWith (c : Config) (s : State) : Host.Outcome State Fault Refusal := cycle c (execWith c) s

end Sys2Proof.Machine
end

