-- ==== Sys2Proof/Machine/HostOps.lean ====
section
/-!
DEFINITION. The host's operations beside `load` and `step`: `create` with its overrides (spec 70_reset_and_hazards R167 to
R169, 10_state R44) and `runToEnd` (40_execution_cycle R114).
-/

namespace Sys2Proof.Machine

/-- The register file at creation where the host gives nothing: `INIT_REGS`, and 0 at `$zero` (10_state R44). -/
def initialRegs (c : Config) : Vector Word 32 :=
  Vector.ofFn fun i => if i = 0 then 0#32 else narrow c.xlen (c.initReg (allRegs.getD i .zero))

/-- The state at creation without overrides (10_state R44). -/
def State.initial (c : Config) (source : Text) (p : Program) : State :=
  { State.reset with source := source, program := p, regs := initialRegs c }

/-- R168: each register override in the host's order; `$zero` is ignored, an unknown name refuses the creation.
DESIGN CHOICE (log entry 15): where two names spell one register the later entry wins; unsafe.
DESIGN CHOICE (log entry 15): where several names are bad the refusal reports the first in the host's order; safe. -/
def overrideRegs (c : Config) : List (Text × Int) → State → Except CreateError State
  | [], s => .ok s
  | (name, v) :: rest, s =>
    match lookupReg c name with
    | some r => overrideRegs c rest (s.setReg r (narrow c.xlen (norm32 v)))
    | none => .error (.initBadRegister name)

/-- R169: each memory override in the host's order; the later of two entries for one address wins.
DESIGN CHOICE (log entry 15): where several keys are bad the refusal reports the first in the host's order; safe. -/
def overrideMem (c : Config) : List (Text × Int) → State → Except CreateError State
  | [], s => .ok s
  | (key, v) :: rest, s =>
    match parseNum key with
    | some a => overrideMem c rest (s.setMem (narrow c.xlen a) (narrow c.xlen (norm32 v)))
    | none => .error (.initBadAddress key)

/-- `create` of R167: the state of 10_state R44, or a refusal (60_exceptions R154).
DESIGN CHOICE (log entry 15): where both kinds of override are bad the register's is reported; safe. -/
def create (c : Config) (source : Text) (p : Program) (regOverrides memOverrides : List (Text × Int)) :
    Except CreateError State :=
  match overrideRegs c regOverrides (State.initial c source p) with
  | .ok s => overrideMem c memOverrides s
  | .error e => .error e

/-- At most `fuel` steps of the step function, as long as the status is ready. -/
def runStepsOf (next : State → Host.Outcome State Fault Refusal) : Nat → State → Host.Outcome State Fault Refusal
  | 0, s => .next s
  | fuel + 1, s =>
    if s.status = .ready then
      match next s with
      | .next t => runStepsOf next fuel t
      | .fault r => .fault r
      | .refused r => .refused r
    else .next s

/-- At most `fuel` steps, as long as the status is ready. -/
def runSteps (fuel : Nat) (s : State) : Host.Outcome State Fault Refusal := runStepsOf step fuel s

/-- `runToEnd` of R114: steps as long as the status is ready. By R115 `MAX_STEPS - steps + 1` calls are enough, so that many
are made at most (log entry 21). -/
def runToEnd (s : State) : Host.Outcome State Fault Refusal := runSteps (npad.maxSteps - s.steps + 1) s

/-- `runToEnd` of R114 with the parameters of 00_scope R9. -/
def runToEndWith (c : Config) (s : State) : Host.Outcome State Fault Refusal :=
  runStepsOf (stepWith c) (c.maxSteps - s.steps + 1) s

end Sys2Proof.Machine
end

