-- ==== Sys2Proof/Machine/Patterns.lean ====
section
/-!
DEFINITION. The pattern table of spec 30_encoding R84, number literals (R81) and the parts of a source line (R69 to R71) as
grammars, apart from the decoder and the loader, which are stated to agree with them.
-/

namespace Sys2Proof.Machine

/-- One part of a pattern, with the operand it captures. -/
inductive Piece where
  /-- the mnemonic, in any case -/
  | word (m : Text)
  /-- at least so many `WS` characters: `\s*` or `\s+` -/
  | spaces (atLeast : Nat)
  /-- a comma -/
  | comma
  /-- `(REG)`, capturing a register -/
  | reg (r : Reg)
  /-- `(TOK)`, capturing a text -/
  | tok (t : Text)
  /-- `(.+)`, capturing a text -/
  | rest (t : Text)
deriving DecidableEq, Repr

/-- The text spells the part (R81, R82). -/
def Piece.spelt (c : Config) : Piece → Text → Prop
  | .word m, t => fold t = m
  | .spaces n, t => n ≤ t.length ∧ ∀ ch ∈ t, isSpace ch = true
  | .comma, t => t = chars [',']
  | .reg r, t => fold t = c.regName r
  | .tok u, t => t = u ∧ u ≠ [] ∧ ∀ ch ∈ u, isTokChar ch = true
  | .rest u, t => t = u ∧ u ≠ []

/-- The whole line spells the parts in order: the pattern anchored at both ends (R81). -/
def spells (c : Config) : List Piece → Text → Prop
  | [], line => line = []
  | piece :: pieces, line => ∃ a b, line = a ++ b ∧ piece.spelt c a ∧ spells c pieces b

/-- `\s*,\s*`. -/
def sep : List Piece := [.spaces 0, .comma, .spaces 0]

/-! The formats of R87 with their operands. -/

def patternRI (m : Text) (rd : Reg) (t : Text) : List Piece := [.word m, .spaces 1, .reg rd] ++ sep ++ [.tok t]

def patternRR (m : Text) (rd rs : Reg) : List Piece := [.word m, .spaces 1, .reg rd] ++ sep ++ [.reg rs]

def patternRRI (m : Text) (r r' : Reg) (t : Text) : List Piece :=
  [.word m, .spaces 1, .reg r] ++ sep ++ [.reg r'] ++ sep ++ [.tok t]

def patternRRR (m : Text) (rd rs rt : Reg) : List Piece :=
  [.word m, .spaces 1, .reg rd] ++ sep ++ [.reg rs] ++ sep ++ [.reg rt]

def patternRM (m : Text) (r : Reg) (t : Text) : List Piece := [.word m, .spaces 1, .reg r] ++ sep ++ [.rest t]

def patternL (m : Text) (t : Text) : List Piece := [.word m, .spaces 1, .tok t]

def patternN (m : Text) : List Piece := [.word m]

/-! The rows of R84: the line matches the row's pattern with these operands. -/

def rowLi (line : Text) (rd : Reg) (t : Text) : Prop := spells npad (patternRI (chars ['l', 'i']) rd t) line
def rowLa (line : Text) (rd : Reg) (t : Text) : Prop := spells npad (patternRI (chars ['l', 'a']) rd t) line
def rowMove (line : Text) (rd rs : Reg) : Prop := spells npad (patternRR (chars ['m', 'o', 'v', 'e']) rd rs) line
def rowAddi (line : Text) (rd rs : Reg) (t : Text) : Prop := spells npad (patternRRI (chars ['a', 'd', 'd', 'i']) rd rs t) line
def rowAdd (line : Text) (rd rs rt : Reg) : Prop := spells npad (patternRRR (chars ['a', 'd', 'd']) rd rs rt) line
def rowSub (line : Text) (rd rs rt : Reg) : Prop := spells npad (patternRRR (chars ['s', 'u', 'b']) rd rs rt) line
def rowLw (line : Text) (rd : Reg) (m : Text) : Prop := spells npad (patternRM (chars ['l', 'w']) rd m) line
def rowSw (line : Text) (rs : Reg) (m : Text) : Prop := spells npad (patternRM (chars ['s', 'w']) rs m) line
def rowBeq (line : Text) (rs rt : Reg) (t : Text) : Prop := spells npad (patternRRI (chars ['b', 'e', 'q']) rs rt t) line
def rowBne (line : Text) (rs rt : Reg) (t : Text) : Prop := spells npad (patternRRI (chars ['b', 'n', 'e']) rs rt t) line
def rowJ (line : Text) (t : Text) : Prop := spells npad (patternL (chars ['j']) t) line
def rowSyscall (line : Text) : Prop := spells npad (patternN (chars ['s', 'y', 's', 'c', 'a', 'l', 'l'])) line

/-- The line matches one of the twelve patterns of R84. -/
def matchesSomeRow (line : Text) : Prop :=
  (∃ rd t, rowLi line rd t) ∨ (∃ rd t, rowLa line rd t) ∨ (∃ rd rs, rowMove line rd rs) ∨
  (∃ rd rs t, rowAddi line rd rs t) ∨ (∃ rd rs rt, rowAdd line rd rs rt) ∨ (∃ rd rs rt, rowSub line rd rs rt) ∨
  (∃ rd m, rowLw line rd m) ∨ (∃ rs m, rowSw line rs m) ∨ (∃ rs rt t, rowBeq line rs rt t) ∨
  (∃ rs rt t, rowBne line rs rt t) ∨ (∃ t, rowJ line t) ∨ rowSyscall line

/-- The text matches `NUM` of R81: an optional sign, then `0x` or `0X` and hexadecimal digits, or decimal digits. -/
def isNumLiteral (t : Text) : Prop :=
  ∃ sign digits : Text, (sign = [] ∨ sign = chars ['-']) ∧ digits ≠ [] ∧
    ((∃ x, (x = .scalar 'x' ∨ x = .scalar 'X') ∧ t = sign ++ .scalar '0' :: x :: digits ∧
        ∀ ch ∈ digits, (hexDigit ch).isSome = true) ∨
      (t = sign ++ digits ∧ ∀ ch ∈ digits, (decDigit ch).isSome = true))

/-- The line's mnemonic: its first run of non-`WS` characters, in lower case. -/
def mnemonicOf (line : Text) : Text := fold (line.takeWhile (!isSpace ·))

/-! Source lines (R69 to R71). -/

/-- Labels, each followed by its colon and by `WS`, and what stands after the last. -/
def labelled : List (Text × Text) → Text → Text
  | [], body => body
  | (name, blanks) :: labels, body => name ++ .scalar ':' :: (blanks ++ labelled labels body)

/-- The line is: `WS`, the labels in order, a body, `WS`, and a comment or nothing. The body is trimmed, has no `#` and begins
with no label; it is empty on a line of labels alone. -/
def sourceLine (names : List Text) (body line : Text) : Prop :=
  ∃ (before after comment : Text) (labels : List (Text × Text)),
    line = before ++ labelled labels body ++ after ++ comment ∧ names = labels.map Prod.fst ∧
    (∀ ch ∈ before ++ after, isSpace ch = true) ∧ (comment = [] ∨ comment.head? = some (.scalar '#')) ∧
    (∀ e ∈ labels, isIdent e.1 = true ∧ ∀ ch ∈ e.2, isSpace ch = true) ∧
    .scalar '#' ∉ body ∧ trim body = body ∧ ∀ name rest, isIdent name = true → body ≠ name ++ .scalar ':' :: rest

end Sys2Proof.Machine
end

