-- ==== Sys2Proof/Safety.lean ====
section
/-!
DEFINITION. The terms in which claims speak: the end of a run (spec 40_execution_cycle R118), the invariant that every step
keeps, what one instruction may change, and runs of several steps.
-/

namespace Sys2Proof.Machine

/-! ## The end of a run and the invariant -/

/-- The end of a run: `halted` or `error` (R118). -/
abbrev State.terminal (s : State) : Prop := s.status ≠ .ready

/-- A run that ended well: an `error` end state is never a successful result (R118). -/
abbrev State.succeeded (s : State) : Prop := s.status = .halted

/-- The error message is there exactly in the error state (10_state R38). -/
abbrev State.errorOk (s : State) : Prop := s.status = .error ↔ s.error ≠ none

/-- The touched sets hold nothing twice, and never `$zero` (10_state R36, R37). -/
abbrev State.touchedOk (s : State) : Prop :=
  s.touchedRegs.Nodup ∧ Reg.zero ∉ s.touchedRegs ∧ s.touchedMem.Nodup

/-- The invariant of npad-core: the Program is one the loader can leave, `pc` is in `[0, N]` (10_state R29), `$zero`'s place
in the register file holds 0 (R22), the memory is in canonical form, the error message fits the status (R38), the touched
sets are sets (R36, R37), and the step counter is within the bound (40_execution_cycle R115). -/
structure State.Inv (s : State) : Prop where
  program : s.program.wf = true
  pc : s.pc ≤ s.program.instrs.length
  zero : s.regSlot .zero = 0#32
  mem : Memory.wf s.mem
  error : s.errorOk
  touched : s.touchedOk
  steps : s.steps ≤ npad.maxSteps

/-- A value that fits in `XLEN` bits (00_scope R9). -/
abbrev fits (c : Config) (v : Word) : Prop := narrow c.xlen v = v

/-- Every register, and every listed word of memory with its address, fits in `XLEN` bits (00_scope R9, 10_state R21). -/
structure State.InWidth (c : Config) (s : State) : Prop where
  regs : ∀ r, fits c (s.readReg r)
  mem : ∀ e ∈ s.mem, fits c (BitVec.ofNat 32 e.1) ∧ fits c e.2

/-- A run: steps taken one after another, each from a ready state (R114). -/
inductive Runs : State → State → Prop where
  | done (s : State) : Runs s s
  | step {s t u : State} : s.status = .ready → step s = .next t → Runs t u → Runs s u

/-! ## What an instruction may change -/

/-- The register an instruction writes (10_state R23). -/
def destination : Instr → Option Reg
  | .li rd _ => some rd
  | .la rd _ => some rd
  | .move rd _ => some rd
  | .addi rd _ _ => some rd
  | .add rd _ _ => some rd
  | .sub rd _ _ => some rd
  | .lw rd _ => some rd
  | .sw _ _ => none
  | .beq _ _ _ => none
  | .bne _ _ _ => none
  | .j _ => none
  | .syscall => none

/-- The registers that an instruction's operands name (30_encoding R97). -/
def operandRegs : Instr → List Reg
  | .li rd _ => [rd]
  | .la rd _ => [rd]
  | .move rd rs => [rd, rs]
  | .addi rd rs _ => [rd, rs]
  | .add rd rs rt => [rd, rs, rt]
  | .sub rd rs rt => [rd, rs, rt]
  | .lw rd (.based _ base) => [rd, base]
  | .lw rd (.abs _) => [rd]
  | .sw rs (.based _ base) => [rs, base]
  | .sw rs (.abs _) => [rs]
  | .beq rs rt _ => [rs, rt]
  | .bne rs rt _ => [rs, rt]
  | .j _ => []
  | .syscall => []

/-- The address an instruction stores to, computed from the state it starts in (43_load_store R132, R136). -/
def storeAddress (s : State) : Instr → Option Word
  | .sw _ m => some (effectiveAddress s m)
  | .li _ _ => none
  | .la _ _ => none
  | .move _ _ => none
  | .addi _ _ _ => none
  | .add _ _ _ => none
  | .sub _ _ _ => none
  | .lw _ _ => none
  | .beq _ _ _ => none
  | .bne _ _ _ => none
  | .j _ => none
  | .syscall => none

/-- Where `pc` stands after an instruction that completes (10_state R28): the target of a transfer that transfers, one more
otherwise. -/
def nextPc (s : State) : Instr → Nat
  | .li _ _ => s.pc + 1
  | .la _ _ => s.pc + 1
  | .move _ _ => s.pc + 1
  | .addi _ _ _ => s.pc + 1
  | .add _ _ _ => s.pc + 1
  | .sub _ _ _ => s.pc + 1
  | .lw _ _ => s.pc + 1
  | .sw _ _ => s.pc + 1
  | .beq rs rt target => if s.readReg rs = s.readReg rt then target else s.pc + 1
  | .bne rs rt target => if s.readReg rs = s.readReg rt then s.pc + 1 else target
  | .j target => target
  | .syscall => s.pc + 1

/-- Source, program, status, error message and step counter are as before: no instruction that completes changes them
(40_execution_cycle R111). -/
structure SameControl (s t : State) : Prop where
  source : t.source = s.source
  program : t.program = s.program
  status : t.status = s.status
  error : t.error = s.error
  steps : t.steps = s.steps

/-- Every register, `$zero`'s place among them, and the set of touched registers are as before. -/
structure SameRegs (s t : State) : Prop where
  slots : ∀ r, t.regSlot r = s.regSlot r
  reads : ∀ r, t.readReg r = s.readReg r
  touched : t.touchedRegs = s.touchedRegs

/-- Every word of memory and the set of touched addresses are as before. -/
structure SameMem (s t : State) : Prop where
  reads : ∀ a, t.memRead a = s.memRead a
  touched : t.touchedMem = s.touchedMem

/-- The effect and the frame of an instruction that writes the value to register `rd` and advances: `$zero` still reads 0 and
a write to it changes nothing but `pc`; every other register, memory, output and the control fields are as before. Of the
touched registers it says only that a write to `$zero` leaves them. -/
structure RegWriteEffect (s t : State) (rd : Reg) (v : Word) : Prop where
  value : t.readReg rd = if rd = .zero then 0#32 else v
  others : ∀ r, r ≠ rd → t.regSlot r = s.regSlot r ∧ t.readReg r = s.readReg r
  zero : rd = .zero → SameRegs s t
  mem : SameMem s t
  output : t.output = s.output
  pc : t.pc = s.pc + 1
  control : SameControl s t

/-- The effect and the frame of an instruction that stores the word at the address and advances: every other address reads as
before, and so do registers, output and the control fields. -/
structure StoreEffect (s t : State) (a v : Word) : Prop where
  value : t.memRead a = v
  others : ∀ b, b ≠ a → t.memRead b = s.memRead b
  regs : SameRegs s t
  output : t.output = s.output
  pc : t.pc = s.pc + 1
  control : SameControl s t

/-- The effect and the frame of an instruction that only sets `pc`. -/
structure JumpEffect (s t : State) (target : Nat) : Prop where
  pc : t.pc = target
  regs : SameRegs s t
  mem : SameMem s t
  output : t.output = s.output
  control : SameControl s t

/-- The effect and the frame of a printing service: the text is appended to the output and `pc` advances. -/
structure PrintEffect (s t : State) (text : Text) : Prop where
  output : t.output = s.output ++ text
  pc : t.pc = s.pc + 1
  regs : SameRegs s t
  mem : SameMem s t
  control : SameControl s t

/-- A line with the row's mnemonic that does not match the row's pattern is unsupported (30_encoding R92). -/
def RejectsOthers (mnemonic : Text) (matched : Text → Prop) : Prop :=
  ∀ p line, mnemonicOf (trim line) = mnemonic → ¬ matched (trim line) →
    decode npad p line = .error (.unsupportedInstruction line)

/-- The state without the source text and the touched sets, which carry no semantics (10_state R36, R37, R43). -/
def State.forget (s : State) : State := { s with source := [], touchedRegs := [], touchedMem := [] }

/-! ## What a source line does to a label table -/

/-- The labels may be defined in the table: `LABEL_DUPLICATES` is `last_wins`, or none is there and none stands twice
(00_scope R9). -/
def definable {β : Type} (c : Config) (table : List (Text × β)) (names : List Text) : Prop :=
  c.labelDuplicates = .lastWins ∨ (names.Nodup ∧ ∀ name ∈ names, table.lookup name = none)

/-- Every label of the list stands for the value in the new table, and every other label stands for what it stood for
(30_encoding R71). -/
structure LabelsBound {β : Type} (names : List Text) (v : β) (old new : List (Text × β)) : Prop where
  bound : ∀ name ∈ names, new.lookup name = some v
  others : ∀ name, name ∉ names → new.lookup name = old.lookup name
  none : names = [] → new = old

/-! ## What the host's overrides give -/

/-- The value of the last register override that names the register (70_reset R168; log entry 15). -/
def lastRegOverride (c : Config) (r : Reg) : List (Text × Int) → Option Int
  | [] => none
  | (name, v) :: rest =>
    match lastRegOverride c r rest with
    | some w => some w
    | none => if lookupReg c name = some r then some v else none

/-- The value of the last memory override whose key is the address (70_reset R169). -/
def lastMemOverride (c : Config) (a : Word) : List (Text × Int) → Option Int
  | [] => none
  | (key, v) :: rest =>
    match lastMemOverride c a rest with
    | some w => some w
    | none => if (parseNum key).map (narrow c.xlen) = some a then some v else none

end Sys2Proof.Machine
end

