-- ==== Sys2Proof/Certificates/Slice0/Obligations.lean ====
section
/-!
DEFINITION. The statements for the provers. Each docstring names the rule of spec/ it comes from; where a statement rests on a
choice the spec marks as its own or the model made, the docstring says so and names the log entry.
-/

open Sys2Proof Sys2Proof.Machine

/-! ## Reset and creation -/

/-- 10_state R44 with no overrides and no program placed. The zero of every register but `$zero` is the model's choice (log
entry 3), and so is the empty program (log entry 2). -/
def Obligations.ResetHoldsTheCreationValues : Prop :=
  State.reset.pc = 0 ∧ State.reset.steps = 0 ∧ State.reset.status = .ready ∧ State.reset.error = none ∧
  State.reset.output = [] ∧ State.reset.touchedRegs = [] ∧ State.reset.touchedMem = [] ∧
  (∀ r, State.reset.readReg r = 0#32 ∧ State.reset.regSlot r = 0#32) ∧ (∀ a, State.reset.memRead a = 0#32) ∧
  State.reset.program = Program.empty ∧ State.reset.source = [] ∧
  create npad [] Program.empty [] [] = .ok State.reset

/-- The invariant holds at reset. -/
def Obligations.ResetStateMeetsTheInvariant : Prop := State.reset.Inv

/-- 10_state R44, 70_reset R168, R169: what a created state holds. That the later of two overrides of one register wins is the
model's choice (log entry 15); a register without an override holds the parameter `INIT_REGS`. Values and addresses are
wrapped to `XLEN` bits, which at npad-core's 32 changes no value (MachineIsTheParametricOneAtItsParameters); that they are so
below 32 is the model's choice (log entry 13). -/
def Obligations.CreateAppliesTheHostOverrides : Prop :=
  ∀ (c : Config) (src : Text) (p : Program) (ro mo : List (Text × Int)) (s : State),
    create c src p ro mo = .ok s →
    s.source = src ∧ s.program = p ∧ s.pc = 0 ∧ s.steps = 0 ∧ s.status = .ready ∧ s.error = none ∧ s.output = [] ∧
    s.touchedRegs = [] ∧ s.touchedMem = [] ∧ s.readReg .zero = 0#32 ∧ s.regSlot .zero = 0#32 ∧
    (∀ r, r ≠ .zero → s.readReg r = narrow c.xlen (((lastRegOverride c r ro).map norm32).getD (c.initReg r))) ∧
    (∀ a, s.memRead a = narrow c.xlen (((lastMemOverride c a mo).map norm32).getD 0#32))

/-- 60_exceptions R154, the spec's own choice D28: `create` refuses exactly when some override is bad, and names it. -/
def Obligations.CreateRefusesExactlyBadOverrides : Prop :=
  ∀ (c : Config) (src : Text) (p : Program) (ro mo : List (Text × Int)),
    ((∃ s, create c src p ro mo = .ok s) ↔
      (∀ e ∈ ro, lookupReg c e.1 ≠ none) ∧ (∀ e ∈ mo, parseNum e.1 ≠ none)) ∧
    (∀ name, create c src p ro mo = .error (.initBadRegister name) →
      ∃ e ∈ ro, e.1 = name ∧ lookupReg c name = none) ∧
    (∀ key, create c src p ro mo = .error (.initBadAddress key) →
      ∃ e ∈ mo, e.1 = key ∧ parseNum key = none)

/-- The invariant holds in every state created from a loaded program, whatever the parameters and the overrides. -/
def Obligations.CreatedStateMeetsTheInvariant : Prop :=
  ∀ (c : Config) (src : Text) (p : Program) (ro mo : List (Text × Int)) (s : State),
    load c src = .ok p → create c src p ro mo = .ok s → s.Inv

/-! ## The loader -/

/-- 10_state R30, R31: a loaded Program has at least one instruction line and well-formed tables. -/
def Obligations.LoadedProgramIsWellFormed : Prop :=
  ∀ (c : Config) (src : Text) (p : Program), load c src = .ok p → p.wf = true ∧ 1 ≤ p.instrs.length

/-- 30_encoding R68, R72, R80, 20_memory R53, 60_exceptions R153: the source is cut at every LF and the lines are taken in
order; a load starts in `.text` with empty tables and the cursor at `DATA_BASE`; it completes for every source text and fails
only where it collected no line, with the message the spec gives. That the start of the cursor is narrowed to an `XLEN` below
32 is the model's choice, no rule's (log entry 13); at npad-core's 32 narrowing changes no value. -/
def Obligations.LoadFailsOnlyWithoutInstructionLines : Prop :=
  (∀ src : Text, ∃ st, loadLines npad (splitOn (.scalar '\n') src) (LoadState.start npad) = .ok st ∧
    load npad src = if st.instrs = [] then .error .emptyProgram else .ok st.program) ∧
  LoadError.emptyProgram.message = some (text "no instructions found") ∧
  (∀ c : Config, (LoadState.start c).seg = .text ∧ (LoadState.start c).instrs = [] ∧ (LoadState.start c).textLabels = [] ∧
    (LoadState.start c).dataLabels = [] ∧ (LoadState.start c).dataStrings = [] ∧
    (LoadState.start c).cursor = narrow c.xlen c.dataBase) ∧
  (∀ src : Text, splitOn (.scalar '\n') src ≠ [] ∧ (∀ line ∈ splitOn (.scalar '\n') src, .scalar '\n' ∉ line) ∧
    [CodePoint.scalar '\n'].intercalate (splitOn (.scalar '\n') src) = src) ∧
  (∀ (c : Config) (st : LoadState), loadLines c [] st = .ok st) ∧
  (∀ (c : Config) (line : Text) (lines : List Text) (st st' : LoadState), loadLine c line st = .ok st' →
    loadLines c (line :: lines) st = loadLines c lines st')

/-- 30_encoding R69 to R74, R102 (D9, D10, D11, D14): in `.text` every label of a line is bound to the number of lines
collected so far, which is the index of the instruction on the line or of the next one, and `N` where none follows; an
instruction is stored without labels, blanks and comment. A line of labels alone and a directive store nothing; `.data`, in
lower case, switches the segment and no other line does. -/
def Obligations.TextLabelIsTheIndexOfTheNextInstruction : Prop :=
  ∀ (c : Config) (names : List Text) (body line : Text) (st : LoadState),
    st.seg = .text → sourceLine names body line → definable c st.textLabels names →
    ∃ st', loadLine c line st = .ok st' ∧
      LabelsBound names st.instrs.length st.textLabels st'.textLabels ∧
      st'.instrs =
        (if body = [] ∨ body.head? = some (.scalar '.') then st.instrs else st.instrs ++ [body]) ∧
      st'.dataLabels = st.dataLabels ∧ st'.dataStrings = st.dataStrings ∧ st'.cursor = st.cursor ∧
      st'.seg = if body.takeWhile (!isSpace ·) = text ".data" then .data else .text

/-- 30_encoding R76, 20_memory R53, R54 (D4, D9, D12, D33): the payload with its escapes expanded is held at the cursor, which
every label of the line names, and the cursor moves past it and its terminator. The last four clauses say what expanding does,
from left to right. That the cursor is narrowed to an `XLEN` below 32 is the model's choice, no rule's (log entry 13); at
npad-core's 32 narrowing changes no value and the clause is R54's. -/
def Obligations.AsciizPayloadIsHeldAtItsLabel : Prop :=
  (∀ (c : Config) (names : List Text) (blanks payload line : Text) (st : LoadState),
    st.seg = .data → blanks ≠ [] → (∀ ch ∈ blanks, isSpace ch = true) →
    sourceLine names
      (chars ['.', 'a', 's', 'c', 'i', 'i', 'z'] ++ blanks ++ .scalar '"' :: (payload ++ [.scalar '"'])) line →
    definable c st.dataLabels names →
    ∃ st', loadLine c line st = .ok st' ∧
      LabelsBound names st.cursor st.dataLabels st'.dataLabels ∧
      st'.dataStrings.lookup st.cursor = some (expandEscapes payload) ∧
      (∀ a, a ≠ st.cursor → st'.dataStrings.lookup a = st.dataStrings.lookup a) ∧
      st'.cursor = narrow c.xlen (norm32 (st.cursor.toInt + c.strLen (expandEscapes payload) + 1)) ∧
      st'.instrs = st.instrs ∧ st'.textLabels = st.textLabels ∧ st'.seg = st.seg) ∧
  expandEscapes [] = [] ∧
  (∀ t, expandEscapes (.scalar '\\' :: .scalar 'n' :: t) = .scalar '\n' :: expandEscapes t) ∧
  (∀ t, expandEscapes (.scalar '\\' :: .scalar '"' :: t) = .scalar '"' :: expandEscapes t) ∧
  (∀ a t, (a = .scalar '\\' → t.head? ≠ some (.scalar 'n') ∧ t.head? ≠ some (.scalar '"')) →
    expandEscapes (a :: t) = a :: expandEscapes t)

/-- 30_encoding R77, 20_memory R56 (D9, D13): a `.word` line binds its labels to the cursor, advances the cursor by its count of
values and stores nothing. That the cursor is narrowed to an `XLEN` below 32 is the model's choice, no rule's (log entry 13); at
npad-core's 32 narrowing changes no value and the clause is R56's. -/
def Obligations.WordDirectiveOnlyAdvancesTheCursor : Prop :=
  ∀ (c : Config) (names : List Text) (blanks values line : Text) (st : LoadState),
    st.seg = .data → (values ≠ [] → blanks ≠ []) → (∀ ch ∈ blanks, isSpace ch = true) →
    sourceLine names (chars ['.', 'w', 'o', 'r', 'd'] ++ blanks ++ values) line →
    definable c st.dataLabels names →
    let count := ((splitOn (.scalar ',') values).filter fun v => trim v != []).length
    ∃ st', loadLine c line st = .ok st' ∧
      LabelsBound names st.cursor st.dataLabels st'.dataLabels ∧
      st'.cursor = narrow c.xlen (norm32 (st.cursor.toInt + (max 1 count * c.wordBytes : Nat))) ∧
      st'.dataStrings = st.dataStrings ∧ st'.instrs = st.instrs ∧ st'.textLabels = st.textLabels ∧ st'.seg = st.seg

/-! ## The decoder -/

/-- 30_encoding R84 to R97: no operand of a well-formed instruction is lost by encoding and decoding. -/
def Obligations.DecodeOfEncodeIsTheInstruction : Prop :=
  ∀ (p : Program) (i : Instr), p.wf = true → i.wf p = true → decode npad p (encode npad p i) = .ok i

/-- 30_encoding R90: a decoded `la`, branch or jump carries a value of the Program's tables. -/
def Obligations.DecodedInstructionIsWellFormed : Prop :=
  ∀ (c : Config) (p : Program) (line : Text) (i : Instr), decode c p line = .ok i → i.wf p = true

/-- Lines of the example table 30_encoding R104 (a sanity statement). -/
def Obligations.WrittenLinesDecodeToTheirInstructions : Prop :=
  let p : Program := { Program.empty with
    textLabels := [(text "loop", 0)], dataLabels := [(text "msg", npad.dataBase)] }
  decode npad p (text "LI $V0, 0x10") = .ok (.li .v0 16#32) ∧
  decode npad p (text "la $a0,msg") = .ok (.la .a0 npad.dataBase) ∧
  decode npad p (text "addi $sp, $sp, -4") = .ok (.addi .sp .sp (-4#32)) ∧
  decode npad p (text "lw $t0, -8( $fp )") = .ok (.lw .t0 (.based (-8#32) .fp)) ∧
  decode npad p (text "beq $zero,$zero,loop") = .ok (.beq .zero .zero 0) ∧
  decode npad p (text "Syscall") = .ok .syscall ∧
  decode npad p (text "add $t2, $t0, 1") = .error (.unsupportedInstruction (text "add $t2, $t0, 1")) ∧
  decode npad p (text "la $a0, loop") = .error (.unknownLabel (text "loop"))

/-- 30_encoding R92: a line that matches none of the twelve patterns is an unsupported instruction. -/
def Obligations.LineOfNoPatternIsUnsupported : Prop :=
  ∀ (p : Program) (line : Text), ¬ matchesSomeRow (trim line) →
    decode npad p line = .error (.unsupportedInstruction line)

/-- 10_state R24 (D2; the names themselves are log entry 4): a text names a register exactly when it is its name after case
folding, and no two registers share a name. -/
def Obligations.RegisterNamesMatchIgnoringCase : Prop :=
  ∀ (t : Text) (r : Reg), lookupReg npad t = some r ↔ fold t = npad.regName r

/-- 30_encoding R81, R83 (D16, D17): a text is a number literal exactly when it matches `NUM`; its digits, whatever their case
and with leading zeros, are read in base 10 or 16 from left to right, signed and wrapped. -/
def Obligations.NumberLiteralsAreReadAndWrapped : Prop :=
  let value (digit : CodePoint → Option Nat) (base : Nat) (ds : Text) : Nat :=
    ds.foldl (fun n ch => n * base + (digit ch).getD 0) 0
  (∀ ch, (decDigit ch).isSome = true ↔ ch ∈ text "0123456789") ∧
  (∀ ch, (hexDigit ch).isSome = true ↔ ch ∈ text "0123456789abcdefABCDEF") ∧
  (∀ d, d < 16 → hexDigit (.scalar (Nat.digitChar d)) = some d ∧
    hexDigit (.scalar (Nat.digitChar d).toUpper) = some d ∧ (d < 10 → decDigit (.scalar (Nat.digitChar d)) = some d)) ∧
  (∀ t : Text, parseNum t ≠ none ↔ isNumLiteral t) ∧
  (∀ ds : Text, ds ≠ [] → (∀ ch ∈ ds, (decDigit ch).isSome = true) →
    parseNum ds = some (norm32 (value decDigit 10 ds)) ∧
    parseNum (.scalar '-' :: ds) = some (norm32 (-(value decDigit 10 ds : Nat)))) ∧
  (∀ (x : CodePoint) (ds : Text), x = .scalar 'x' ∨ x = .scalar 'X' → ds ≠ [] →
    (∀ ch ∈ ds, (hexDigit ch).isSome = true) →
    parseNum (.scalar '0' :: x :: ds) = some (norm32 (value hexDigit 16 ds)) ∧
    parseNum (.scalar '-' :: .scalar '0' :: x :: ds) = some (norm32 (-(value hexDigit 16 ds : Nat)))) ∧
  (∀ n : Nat, parseNum (chars (Nat.toDigits 10 n)) = some (norm32 n) ∧
    parseNum (.scalar '-' :: chars (Nat.toDigits 10 n)) = some (norm32 (-n))) ∧
  (∀ (n : Nat) (x : CodePoint), x = .scalar 'x' ∨ x = .scalar 'X' →
    parseNum (.scalar '0' :: x :: chars (Nat.toDigits 16 n)) = some (norm32 n) ∧
    parseNum (.scalar '-' :: .scalar '0' :: x :: chars (Nat.toDigits 16 n)) = some (norm32 (-n)))

/-- 00_scope R14 and 30_encoding R83 (D17, D23): the decimal spelling of a value is a number literal of that value. -/
def Obligations.DecimalSpellingReadsBack : Prop := ∀ v : Word, parseNum (dec v) = some v

/-- 30_encoding R91 (D20): the three forms of a memory operand and the two errors. -/
def Obligations.MemoryOperandHasThreeForms : Prop :=
  (∀ (p : Program) (o sp₀ sp₁ name sp₂ : Text) (off : Word) (b : Reg),
    (o = [] ∧ off = 0#32 ∨ parseNum o = some off) → fold name = npad.regName b →
    (∀ ch ∈ sp₀ ++ sp₁ ++ sp₂, isSpace ch = true) →
    parseMem npad p (o ++ sp₀ ++ .scalar '(' :: (sp₁ ++ name ++ sp₂ ++ chars [')'])) = .ok (.based off b)) ∧
  (∀ (p : Program) (m : Text) (a : Word), parseNum m = some a → parseMem npad p m = .ok (.abs a)) ∧
  (∀ (p : Program) (m : Text), isIdent m = true →
    parseMem npad p m =
      match p.dataLabel m with
      | some a => .ok (.abs a)
      | none => .error (.unknownLabel m)) ∧
  (∀ (p : Program) (m : Text), trim m = m → parseNum m = none → isIdent m = false →
    (¬ ∃ (o sp₀ sp₁ name sp₂ : Text) (b : Reg), (o = [] ∨ parseNum o ≠ none) ∧ fold name = npad.regName b ∧
      (∀ ch ∈ sp₀ ++ sp₁ ++ sp₂, isSpace ch = true) ∧
      m = o ++ sp₀ ++ .scalar '(' :: (sp₁ ++ name ++ sp₂ ++ chars [')'])) →
    parseMem npad p m = .error (.invalidMemoryOperand m))

/-! ## The ALU -/

/-- 00_scope R10, 42_alu R122: the wrap and the three functions of the ALU as exact integer formulas, the same whether the
operands are read as signed or as unsigned numbers. -/
def Obligations.AluComputesExactlyAndWraps : Prop :=
  (∀ v : Int, (norm32 v).toInt = (v + 2 ^ 31) % 2 ^ 32 - 2 ^ 31) ∧
  (∀ a b : Word, (aluAdd a b).toInt = (a.toInt + b.toInt + 2 ^ 31) % 2 ^ 32 - 2 ^ 31) ∧
  (∀ a b : Word, (aluSub a b).toInt = (a.toInt - b.toInt + 2 ^ 31) % 2 ^ 32 - 2 ^ 31) ∧
  (∀ a b : Word, (aluAdd a b).toNat = (a.toNat + b.toNat) % 2 ^ 32 ∧
    (aluSub a b).toNat = (2 ^ 32 - b.toNat + a.toNat) % 2 ^ 32) ∧
  (∀ a b : Word, (aluEq a b = true ↔ a.toInt = b.toInt) ∧ (aluEq a b = true ↔ a.toNat = b.toNat))

/-- 42_alu R125, which the spec derives from R122. -/
def Obligations.AluArithmeticLaws : Prop :=
  ∀ a b c : Word,
    aluAdd a b = aluAdd b a ∧ aluAdd (aluAdd a b) c = aluAdd a (aluAdd b c) ∧ aluAdd a 0#32 = a ∧
    aluSub a b = aluAdd a (norm32 (-b.toInt)) ∧ aluSub a a = 0#32 ∧
    aluSub 0#32 (norm32 (-2147483648)) = norm32 (-2147483648) ∧
    aluAdd (norm32 2147483647) 1#32 = norm32 (-2147483648) ∧
    aluSub (norm32 (-2147483648)) 1#32 = norm32 2147483647

/-! ## The twelve instructions: the row's pattern, what does not match it, the effect and the frame -/

/-- 41_move_immediate R119. Which registers are touched is stated by TouchedSetsRecordWritesInOrder. -/
def Obligations.LiLoadsItsImmediate : Prop :=
  (∀ p line rd tok, rowLi (trim line) rd tok →
    decode npad p line =
      match parseNum tok with
      | some imm => .ok (.li rd imm)
      | none => .error (.invalidImmediate tok)) ∧
  RejectsOthers (chars ['l', 'i']) (fun l => ∃ rd tok, rowLi l rd tok) ∧
  (∀ rd imm s, ∃ t, exec (.li rd imm) s = .next t ∧ RegWriteEffect s t rd imm)

/-- 41_move_immediate R120. -/
def Obligations.LaLoadsTheDataAddress : Prop :=
  (∀ p line rd tok, rowLa (trim line) rd tok →
    decode npad p line =
      match p.dataLabel tok with
      | some a => .ok (.la rd a)
      | none => .error (.unknownLabel tok)) ∧
  RejectsOthers (chars ['l', 'a']) (fun l => ∃ rd tok, rowLa l rd tok) ∧
  (∀ rd addr s, ∃ t, exec (.la rd addr) s = .next t ∧ RegWriteEffect s t rd addr)

/-- 41_move_immediate R121. -/
def Obligations.MoveCopiesARegister : Prop :=
  (∀ p line rd rs, rowMove (trim line) rd rs → decode npad p line = .ok (.move rd rs)) ∧
  RejectsOthers (chars ['m', 'o', 'v', 'e']) (fun l => ∃ rd rs, rowMove l rd rs) ∧
  (∀ rd rs s, ∃ t, exec (.move rd rs) s = .next t ∧ RegWriteEffect s t rd (s.readReg rs) ∧
    (rd ≠ .zero → rd ∈ t.touchedRegs))

/-- 42_alu R126. -/
def Obligations.AddiAddsItsImmediate : Prop :=
  (∀ p line rd rs tok, rowAddi (trim line) rd rs tok →
    decode npad p line =
      match parseNum tok with
      | some imm => .ok (.addi rd rs imm)
      | none => .error (.invalidImmediate tok)) ∧
  RejectsOthers (chars ['a', 'd', 'd', 'i']) (fun l => ∃ rd rs tok, rowAddi l rd rs tok) ∧
  (∀ rd rs imm s, ∃ t, exec (.addi rd rs imm) s = .next t ∧
    RegWriteEffect s t rd (norm32 ((s.readReg rs).toInt + imm.toInt)))

/-- 42_alu R127. -/
def Obligations.AddAddsTwoRegisters : Prop :=
  (∀ p line rd rs rt, rowAdd (trim line) rd rs rt → decode npad p line = .ok (.add rd rs rt)) ∧
  RejectsOthers (chars ['a', 'd', 'd']) (fun l => ∃ rd rs rt, rowAdd l rd rs rt) ∧
  (∀ rd rs rt s, ∃ t, exec (.add rd rs rt) s = .next t ∧
    RegWriteEffect s t rd (norm32 ((s.readReg rs).toInt + (s.readReg rt).toInt)))

/-- 42_alu R128. -/
def Obligations.SubSubtractsTwoRegisters : Prop :=
  (∀ p line rd rs rt, rowSub (trim line) rd rs rt → decode npad p line = .ok (.sub rd rs rt)) ∧
  RejectsOthers (chars ['s', 'u', 'b']) (fun l => ∃ rd rs rt, rowSub l rd rs rt) ∧
  (∀ rd rs rt s, ∃ t, exec (.sub rd rs rt) s = .next t ∧
    RegWriteEffect s t rd (norm32 ((s.readReg rs).toInt - (s.readReg rt).toInt)))

/-- 43_load_store R135. That the sum of base and offset wraps is R130's, the spec's own choice D21 (log entry 28). -/
def Obligations.LwLoadsTheWordAtItsAddress : Prop :=
  (∀ p line rd m, rowLw (trim line) rd m →
    decode npad p line =
      match parseMem npad p (trim m) with
      | .ok operand => .ok (.lw rd operand)
      | .error e => .error e) ∧
  RejectsOthers (chars ['l', 'w']) (fun l => ∃ rd m, rowLw l rd m) ∧
  (∀ rd off base s, ∃ t, exec (.lw rd (.based off base)) s = .next t ∧
    RegWriteEffect s t rd (s.memRead (norm32 ((s.readReg base).toInt + off.toInt)))) ∧
  (∀ rd a s, ∃ t, exec (.lw rd (.abs a)) s = .next t ∧ RegWriteEffect s t rd (s.memRead a)) ∧
  (∀ rd m s, (∀ e ∈ s.mem, e.1 ≠ (effectiveAddress s m).toNat) →
    ∃ t, exec (.lw rd m) s = .next t ∧ t.readReg rd = 0#32)

/-- 43_load_store R136. That the sum of base and offset wraps is R130's, the spec's own choice D21 (log entry 28). The memory's
canonical form, which the invariant states, is a premise. -/
def Obligations.SwStoresTheWordAtItsAddress : Prop :=
  (∀ p line rs m, rowSw (trim line) rs m →
    decode npad p line =
      match parseMem npad p (trim m) with
      | .ok operand => .ok (.sw rs operand)
      | .error e => .error e) ∧
  RejectsOthers (chars ['s', 'w']) (fun l => ∃ rs m, rowSw l rs m) ∧
  (∀ rs off base s, Memory.wf s.mem → ∃ t, exec (.sw rs (.based off base)) s = .next t ∧
    StoreEffect s t (norm32 ((s.readReg base).toInt + off.toInt)) (s.readReg rs)) ∧
  (∀ rs a s, Memory.wf s.mem → ∃ t, exec (.sw rs (.abs a)) s = .next t ∧ StoreEffect s t a (s.readReg rs)) ∧
  (∀ rs m s t, exec (.sw rs m) s = .next t → effectiveAddress s m ∈ t.touchedMem ∧
    (effectiveAddress s m ∈ s.touchedMem → t.touchedMem = s.touchedMem))

/-- 44_branch_jump R138. That an unknown label fails also where the branch would not be taken is the spec's own choice D19 (log
entry 27). -/
def Obligations.BeqBranchesOnEquality : Prop :=
  (∀ p line rs rt tok, rowBeq (trim line) rs rt tok →
    decode npad p line =
      match p.textLabel tok with
      | some target => .ok (.beq rs rt target)
      | none => .error (.unknownLabel tok)) ∧
  RejectsOthers (chars ['b', 'e', 'q']) (fun l => ∃ rs rt tok, rowBeq l rs rt tok) ∧
  (∀ rs rt target s, ∃ t, exec (.beq rs rt target) s = .next t ∧
    JumpEffect s t (if s.readReg rs = s.readReg rt then target else s.pc + 1))

/-- 44_branch_jump R139. That an unknown label fails also where the branch would not be taken is the spec's own choice D19 (log
entry 27). -/
def Obligations.BneBranchesOnInequality : Prop :=
  (∀ p line rs rt tok, rowBne (trim line) rs rt tok →
    decode npad p line =
      match p.textLabel tok with
      | some target => .ok (.bne rs rt target)
      | none => .error (.unknownLabel tok)) ∧
  RejectsOthers (chars ['b', 'n', 'e']) (fun l => ∃ rs rt tok, rowBne l rs rt tok) ∧
  (∀ rs rt target s, ∃ t, exec (.bne rs rt target) s = .next t ∧
    JumpEffect s t (if s.readReg rs ≠ s.readReg rt then target else s.pc + 1))

/-- 44_branch_jump R140. -/
def Obligations.JumpSetsThePc : Prop :=
  (∀ p line tok, rowJ (trim line) tok →
    decode npad p line =
      match p.textLabel tok with
      | some target => .ok (.j target)
      | none => .error (.unknownLabel tok)) ∧
  RejectsOthers (chars ['j']) (fun l => ∃ tok, rowJ l tok) ∧
  (∀ target s, ∃ t, exec (.j target) s = .next t ∧ JumpEffect s t target)

/-- 45_syscall R142, R143: the service is chosen by `$v0`, its argument is `$a0`, and no register is written. -/
def Obligations.SyscallDispatchesOnTheSelector : Prop :=
  (∀ p line, rowSyscall (trim line) → decode npad p line = .ok .syscall) ∧
  RejectsOthers (chars ['s', 'y', 's', 'c', 'a', 'l', 'l']) rowSyscall ∧
  (∀ s, ∃ t, exec .syscall s = .next t ∧ SameRegs s t ∧
    (s.readReg .v0 = 1#32 → PrintEffect s t (dec (s.readReg .a0))) ∧
    (s.readReg .v0 = 4#32 → PrintEffect s t ((s.program.dataStr (s.readReg .a0)).getD [])) ∧
    (s.readReg .v0 = 10#32 → t.status = .halted) ∧
    (s.readReg .v0 = 11#32 → PrintEffect s t [chr ((s.readReg .a0).toNat % 256)]) ∧
    (s.readReg .v0 ≠ 1#32 → s.readReg .v0 ≠ 4#32 → s.readReg .v0 ≠ 10#32 → s.readReg .v0 ≠ 11#32 →
      t.status = .error ∧ t.error = some (npad.errorText (.unsupportedSyscall (s.readReg .v0)))))

/-- 45_syscall R146, R148 with the spec's own choices D7 and D8: a halting and a failing `syscall` change only `status` and
`error`; `pc` stays at the instruction. -/
def Obligations.SyscallHaltAndErrorKeepTheRest : Prop :=
  (∀ s, s.readReg .v0 = 10#32 → exec .syscall s = .next { s with status := .halted }) ∧
  (∀ s, s.readReg .v0 ≠ 1#32 → s.readReg .v0 ≠ 4#32 → s.readReg .v0 ≠ 10#32 → s.readReg .v0 ≠ 11#32 →
    exec .syscall s = .next { s with
      status := .error, error := some (npad.errorText (.unsupportedSyscall (s.readReg .v0))) })

/-- 40_execution_cycle R110: only `syscall` can halt or fail; every other decoded operation completes normally. -/
def Obligations.OnlySyscallHaltsOrFails : Prop :=
  (∀ i s, i ≠ .syscall → ∃ t, exec i s = .next t ∧ t.status = s.status ∧ t.error = s.error) ∧
  (∀ s, ∃ t, exec .syscall s = .next t ∧
    ((t.status = s.status ∧ t.error = s.error) ∨ (t.status = .halted ∧ t.error = s.error) ∨
      (t.status = .error ∧ t.error = some (npad.errorText (.unsupportedSyscall (s.readReg .v0))))))

/-- 20_memory R61, 43_load_store R130 (D21, D31): the word stored is the word loaded through the same operand, and a load of
any other address is as before the store. -/
def Obligations.StoreThenLoadReturnsTheValue : Prop :=
  ∀ (rs rd : Reg) (m : MemOperand) (s t u : State), Memory.wf s.mem → rd ≠ .zero →
    exec (.sw rs m) s = .next t →
    (exec (.lw rd m) t = .next u → u.readReg rd = s.readReg rs) ∧
    (∀ b, b ≠ effectiveAddress s m → exec (.lw rd (.abs b)) t = .next u → u.readReg rd = s.memRead b)

/-- 10_state R36, R37 with the spec's own choice D27: a completed write appends its register, a completed store its address,
unless it is there; `$zero` never enters. -/
def Obligations.TouchedSetsRecordWritesInOrder : Prop :=
  ∀ (i : Instr) (s t : State), exec i s = .next t →
    t.touchedRegs = (match destination i with
      | some r => if r = .zero ∨ r ∈ s.touchedRegs then s.touchedRegs else s.touchedRegs ++ [r]
      | none => s.touchedRegs) ∧
    t.touchedMem = (match storeAddress s i with
      | some a => if a ∈ s.touchedMem then s.touchedMem else s.touchedMem ++ [a]
      | none => s.touchedMem)

/-! ## The execution cycle -/

/-- 40_execution_cycle R113. -/
def Obligations.TerminalStateIsUnchanged : Prop :=
  ∀ s : State, s.status = .halted ∨ s.status = .error → step s = .next s

/-- 40_execution_cycle R106 with the spec's own choice D6: falling off the end halts and changes only the status, whatever
the step counter. -/
def Obligations.PcOutOfRangeHalts : Prop :=
  ∀ s : State, s.status = .ready → s.program.instrs.length ≤ s.pc → step s = .next { s with status := .halted }

/-- 40_execution_cycle R107 with the spec's own choice D6 (the bound is log entry 6): at the step bound the instruction is
not executed, whatever its line. -/
def Obligations.StepBoundEndsInTimeout : Prop :=
  ∀ s : State, s.status = .ready → s.pc < s.program.instrs.length → npad.maxSteps ≤ s.steps →
    step s = .next { s with status := .error, error := some (npad.errorText (.timeout npad.maxSteps)) }

/-- 40_execution_cycle R105, steps 4 to 9: where the line at `pc` decodes to an instruction, `exec` of that instruction answers
a next state, and the step is that state with one added to the step counter and `$zero`'s place cleared. -/
def Obligations.StepRunsTheDecodedInstruction : Prop :=
  ∀ (s : State) (line : Text) (i : Instr), s.status = .ready → s.program.instrs[s.pc]? = some line →
    s.steps < npad.maxSteps → decode npad s.program line = .ok i →
    ∃ t, exec i s = .next t ∧ step s = .next { t with steps := s.steps + 1, regs := t.regs.set 0 0#32 }

/-- 60_exceptions R152 with the spec's own choice D7: a decode error sets `status` and `error`, counts the step, and changes
nothing else. -/
def Obligations.DecodeErrorFreezesTheMachine : Prop :=
  ∀ (s : State) (line : Text) (e : Cause), s.status = .ready → s.program.instrs[s.pc]? = some line →
    s.steps < npad.maxSteps → decode npad s.program line = .error e →
    ∃ t, step s = .next t ∧ t.status = .error ∧ t.error = some (npad.errorText e) ∧ t.steps = s.steps + 1 ∧
      t.pc = s.pc ∧ t.output = s.output ∧ t.source = s.source ∧ t.program = s.program ∧ SameMem s t ∧
      (∀ r, t.readReg r = s.readReg r) ∧ t.touchedRegs = s.touchedRegs

/-- 40_execution_cycle R105: `step` is a total function from a machine state to a machine state. -/
def Obligations.StepAlwaysAnswersANextState : Prop := ∀ s : State, ∃ t, step s = .next t

/-- 10_state R35: the transitions of the status are exactly those of its table. -/
def Obligations.StatusTransitionsAreExact : Prop :=
  ∀ s t : State, step s = .next t →
    (s.status ≠ .ready → t = s) ∧
    (s.status = .ready →
      (t.status = .halted ↔
        s.program.instrs.length ≤ s.pc ∨
        (∃ line, s.program.instrs[s.pc]? = some line ∧ s.steps < npad.maxSteps ∧
          decode npad s.program line = .ok .syscall ∧ s.readReg .v0 = 10#32)) ∧
      (t.status = .error ↔
        (s.pc < s.program.instrs.length ∧ npad.maxSteps ≤ s.steps) ∨
        (∃ line, s.program.instrs[s.pc]? = some line ∧ s.steps < npad.maxSteps ∧
          ((∃ e, decode npad s.program line = .error e) ∨
            (decode npad s.program line = .ok .syscall ∧
              s.readReg .v0 ∉ [1#32, 4#32, 10#32, 11#32])))))

/-- 40_execution_cycle R109 with the spec's own choice D6: a step counts exactly when it reaches fetch and decode. -/
def Obligations.StepCounterCountsDecodedSteps : Prop :=
  ∀ s t : State, step s = .next t →
    t.steps = if s.status = .ready ∧ s.pc < s.program.instrs.length ∧ s.steps < npad.maxSteps then s.steps + 1
      else s.steps

/-- Every step keeps the invariant, from every state that meets it. -/
def Obligations.InvariantIsKeptByEveryStep : Prop :=
  ∀ s t : State, s.Inv → step s = .next t → t.Inv

/-- 40_execution_cycle R112: `$zero` is cleared by every step that reaches fetch, a failing one too; the clearing never
changes a value, for no instruction changes `$zero`; and `$zero` reads 0 in every state. -/
def Obligations.ZeroRegisterIsReasserted : Prop :=
  (∀ s t : State, s.status = .ready → s.pc < s.program.instrs.length → s.steps < npad.maxSteps → step s = .next t →
    t.regSlot .zero = 0#32) ∧
  (∀ (i : Instr) (s t : State), exec i s = .next t → t.regSlot .zero = s.regSlot .zero) ∧
  (∀ s : State, s.readReg .zero = 0#32)

/-- 20_memory R64: no instruction writes the instruction store, and no store is seen by fetch. -/
def Obligations.ProgramIsNeverWritten : Prop :=
  (∀ (i : Instr) (s t : State), exec i s = .next t → t.program = s.program ∧ t.source = s.source) ∧
  (∀ s t : State, step s = .next t → t.program = s.program ∧ t.source = s.source) ∧
  (∀ s t : State, Runs s t → t.program = s.program)

/-- 10_state R39: the output is empty at creation and only ever extended, by services 1, 4 and 11 alone. -/
def Obligations.OutputIsAppendOnly : Prop :=
  (∀ c src p ro mo s, create c src p ro mo = .ok s → s.output = []) ∧
  (∀ s t : State, step s = .next t → ∃ added, t.output = s.output ++ added ∧
    (added ≠ [] → ∃ line, s.program.instrs[s.pc]? = some line ∧ decode npad s.program line = .ok .syscall ∧
      s.readReg .v0 ∈ [1#32, 4#32, 11#32]))

/-- 10_state R38: the message is absent at creation and while the status is ready or halted; the step into `error` sets it
to the message of a cause, and nothing changes it afterwards. -/
def Obligations.ErrorMessageIsSetOnce : Prop :=
  (∀ c src p ro mo s, create c src p ro mo = .ok s → s.error = none) ∧
  (∀ s t : State, s.errorOk → step s = .next t →
    (t.status ≠ .error → t.error = none) ∧
    (s.status = .ready → t.status = .error → ∃ cause, t.error = some (npad.errorText cause)) ∧
    (∀ m, s.error = some m → t.error = some m))

/-- 43_load_store R132: a word of memory changes only by a `sw` that stores to its address. -/
def Obligations.OnlySwChangesMemory : Prop :=
  ∀ s t : State, Memory.wf s.mem → step s = .next t → ∀ a, t.memRead a ≠ s.memRead a →
    ∃ line rs m, s.program.instrs[s.pc]? = some line ∧ decode npad s.program line = .ok (.sw rs m) ∧
      effectiveAddress s m = a ∧ t.memRead a = s.readReg rs

/-- 10_state R23: a register changes only as the destination of the instruction at `pc`. -/
def Obligations.OnlyTheDestinationRegisterChanges : Prop :=
  ∀ s t : State, step s = .next t → ∀ r, t.readReg r ≠ s.readReg r →
    ∃ line i, s.program.instrs[s.pc]? = some line ∧ decode npad s.program line = .ok i ∧ destination i = some r

/-- 10_state R28 with the spec's own choice D8: after an instruction that completes, `pc` is the target of a transfer or one
more; after every other step it is unchanged. -/
def Obligations.PcMovesOnlyByCompletingInstructions : Prop :=
  ∀ s t : State, s.status = .ready → step s = .next t →
    (t.status = .ready → ∃ line i, s.program.instrs[s.pc]? = some line ∧ decode npad s.program line = .ok i ∧
      t.pc = nextPc s i) ∧
    (t.status ≠ .ready → t.pc = s.pc)

/-- 10_state R36, R37 with the spec's own choice D27, over whole runs: the touched sets only grow at their ends, and what is
not in them has kept its value. -/
def Obligations.UntouchedRegistersAndWordsKeepTheirValues : Prop :=
  ∀ s t : State, Memory.wf s.mem → Runs s t →
    s.touchedRegs <+: t.touchedRegs ∧ s.touchedMem <+: t.touchedMem ∧
    (∀ r, r ∉ t.touchedRegs → t.readReg r = s.readReg r) ∧ (∀ a, a ∉ t.touchedMem → t.memRead a = s.memRead a)

/-- 10_state R36, R37, R43: source text and touched sets carry no semantics; two states that differ only there step to
states that differ only there. -/
def Obligations.SourceAndTouchedSetsCarryNoSemantics : Prop :=
  ∀ s s' t : State, s.forget = s'.forget → step s = .next t → ∃ t', step s' = .next t' ∧ t.forget = t'.forget

/-! ## Runs -/

/-- 40_execution_cycle R114: from every state `runToEnd` answers a state that a run of steps reaches, and its status is
`halted` or `error`. -/
def Obligations.RunToEndReachesATerminalState : Prop :=
  ∀ s : State, ∃ t, runToEnd s = .next t ∧ Runs s t ∧ (t.status = .halted ∨ t.status = .error)

/-- 40_execution_cycle R115, which the spec derives: the step counter stays within the bound, and more calls than
`MAX_STEPS - steps + 1` change nothing. -/
def Obligations.RunToEndStaysWithinTheStepBound : Prop :=
  ∀ s t : State, runToEnd s = .next t →
    (s.steps ≤ npad.maxSteps → t.steps ≤ npad.maxSteps) ∧
    (∀ extra, runSteps (npad.maxSteps - s.steps + 1 + extra) s = .next t)

/-! ## Data lines that hold no data, and other parameters -/

/-- 30_encoding R69 to R72, R75, R76 (D9 to D12): in `.data`, a line of labels alone, a `.text`, `.data` or `.globl` line, and,
where the parameters do not refuse it, a line that is no supported directive (a malformed `.asciiz` among them) binds its
labels to the cursor, allocates and stores nothing, and switches the segment exactly where it is `.text`. -/
def Obligations.OtherDataLinesOnlyBindTheirLabels : Prop :=
  ∀ (c : Config) (names : List Text) (body line : Text) (st : LoadState),
    let first := body.takeWhile (!isSpace ·)
    st.seg = .data → sourceLine names body line → definable c st.dataLabels names →
    (c.strictDataDirectives = false ∨ body = [] ∨ first ∈ [text ".text", text ".data", text ".globl"]) →
    first ≠ text ".word" →
    (¬ ∃ blanks payload, blanks ≠ [] ∧ (∀ ch ∈ blanks, isSpace ch = true) ∧
      body = text ".asciiz" ++ blanks ++ .scalar '"' :: (payload ++ [.scalar '"'])) →
    ∃ st', loadLine c line st = .ok st' ∧
      LabelsBound names st.cursor st.dataLabels st'.dataLabels ∧
      st'.dataStrings = st.dataStrings ∧ st'.cursor = st.cursor ∧ st'.instrs = st.instrs ∧
      st'.textLabels = st.textLabels ∧ st'.seg = if first = text ".text" then .text else .data

/-- 45_syscall R143 with the parameters of 00_scope R9: the selector and argument registers, the four service numbers and the
message of an error are the parameters'. -/
def Obligations.SyscallFollowsTheParameters : Prop :=
  ∀ (c : Config) (s : State), [c.sysPrintInt, c.sysPrintString, c.sysExit, c.sysPrintChar].Nodup →
    let selector := s.readReg c.selectorReg
    let argument := s.readReg c.argReg
    ∃ t, execWith c .syscall s = .next t ∧ SameRegs s t ∧
      (selector = c.sysPrintInt → PrintEffect s t (dec argument)) ∧
      (selector = c.sysPrintString → PrintEffect s t ((s.program.dataStr argument).getD [])) ∧
      (selector = c.sysExit → t.status = .halted ∧ t.error = s.error) ∧
      (selector = c.sysPrintChar → PrintEffect s t [chr (argument.toNat % 256)]) ∧
      (selector ∉ [c.sysPrintInt, c.sysPrintString, c.sysExit, c.sysPrintChar] →
        t.status = .error ∧ t.error = some (c.errorText (.unsupportedSyscall selector)))

/-- 40_execution_cycle R114, R115 with the parameters of 00_scope R9: whatever the parameters, `runToEnd` answers a halted or
error state from every state, and keeps the step counter within the bound. -/
def Obligations.EveryParameterChoiceRunsToATerminalState : Prop :=
  ∀ (c : Config) (s : State), ∃ t, runToEndWith c s = .next t ∧ (t.status = .halted ∨ t.status = .error) ∧
    (s.steps ≤ c.maxSteps → t.steps ≤ c.maxSteps)

/-- 00_scope R9: the parametric machine at npad-core's parameters is the machine, where narrowing to `XLEN` changes no value and
all 32 registers have their names. The rest is the model's choice (log entry 13), no rule's, wherever `XLEN` or `NREGS` is below
32: every register, word and address is narrowed to `XLEN` bits by `bmod`, created states fit and every step keeps that; and
only the first `NREGS` registers have a name, so no decoded operand names another and no step changes another. -/
def Obligations.MachineIsTheParametricOneAtItsParameters : Prop :=
  (∀ i s, execWith npad i s = exec i s) ∧ (∀ s, stepWith npad s = step s) ∧ (∀ s, runToEndWith npad s = runToEnd s) ∧
  (∀ v, narrow npad.xlen v = v) ∧ registers npad = allRegs ∧
  (∀ (c : Config) (v : Word), (narrow c.xlen v).toInt = v.toInt.bmod (2 ^ c.xlen)) ∧
  (∀ (c : Config) src p ro mo s, create c src p ro mo = .ok s → s.InWidth c) ∧
  (∀ (c : Config) (s t : State), s.InWidth c → stepWith c s = .next t → t.InWidth c) ∧
  (∀ (c : Config) (s : State) (m : MemOperand), fits c (accessAddress c s m)) ∧
  (∀ (c : Config) (t : Text) (r : Reg), lookupReg c t = some r → regIndex r < c.nregs) ∧
  (∀ (c : Config) (p : Program) (line : Text) (i : Instr), decode c p line = .ok i →
    ∀ r ∈ operandRegs i, regIndex r < c.nregs) ∧
  (∀ (c : Config) (s t : State) (r : Reg), stepWith c s = .next t → c.nregs ≤ regIndex r → t.readReg r = s.readReg r)
end

