-- ==== Sys2Proof/Laws/Arith.lean ====
section
/-!
SUPPORT. Laws of the ALU functions (spec 42_alu R122, R125): the exact computation and wrap is the bit vectors' own.
-/

namespace Sys2Proof.Machine

theorem norm32_toInt (v : Word) : norm32 v.toInt = v := BitVec.ofInt_toInt

theorem aluAdd_eq_add (a b : Word) : aluAdd a b = a + b := by
  simp [aluAdd, norm32, BitVec.ofInt_add, BitVec.ofInt_toInt]

theorem aluSub_eq_sub (a b : Word) : aluSub a b = a - b := by
  simp [aluSub, norm32, Int.sub_eq_add_neg, BitVec.ofInt_add, BitVec.ofInt_neg, BitVec.ofInt_toInt, BitVec.sub_eq_add_neg]

theorem aluEq_iff (a b : Word) : aluEq a b = true ↔ a = b := by simp [aluEq]

/-! ## Values in `XLEN` bits (00_scope R9) -/

/-- At npad-core's `XLEN` a value is itself. -/
@[simp] theorem narrow_32 (v : Word) : narrow 32 v = v := by simp [narrow]

@[simp] theorem narrow_npad (v : Word) : narrow npad.xlen v = v := narrow_32 v

/-- A value in `n` bits, as a number: the value's own, wrapped to `n` bits. -/
theorem toInt_narrow {n : Nat} (h : n ≤ 32) (v : Word) : (narrow n v).toInt = v.toInt.bmod (2 ^ n) := by
  rw [narrow, BitVec.toInt_signExtend_of_le h, BitVec.toInt_setWidth, BitVec.toInt_eq_toNat_bmod]
  rw [Int.bmod_bmod_of_dvd (Nat.pow_dvd_pow 2 h)]

@[simp] theorem narrow_zero (n : Nat) : narrow n 0#32 = 0#32 := by simp [narrow, BitVec.signExtend]

/-- A value in `n` bits is in `n` bits. -/
theorem narrow_narrow {n : Nat} (h : n ≤ 32) (v : Word) : narrow n (narrow n v) = narrow n v := by
  apply BitVec.eq_of_toInt_eq
  rw [toInt_narrow h, toInt_narrow h, Int.bmod_bmod]

theorem lowByte_lt (v : Word) : lowByte v < 256 := Nat.mod_lt _ (by decide)

end Sys2Proof.Machine
end

