-- ==== Sys2Proof/Laws/State.lean ====
section
/-!
SUPPORT. What each update of the state leaves in each field: one lemma per field per update.
-/

namespace Sys2Proof.Machine

variable (s : State)

/-! ## setReg -/

@[simp] theorem State.setReg_source (r : Reg) (v : Word) : (s.setReg r v).source = s.source := rfl
@[simp] theorem State.setReg_program (r : Reg) (v : Word) : (s.setReg r v).program = s.program := rfl
@[simp] theorem State.setReg_regs (r : Reg) (v : Word) : (s.setReg r v).regs = if r = .zero then s.regs else s.regs.set (regIndex r) v := rfl
@[simp] theorem State.setReg_mem (r : Reg) (v : Word) : (s.setReg r v).mem = s.mem := rfl
@[simp] theorem State.setReg_output (r : Reg) (v : Word) : (s.setReg r v).output = s.output := rfl
@[simp] theorem State.setReg_status (r : Reg) (v : Word) : (s.setReg r v).status = s.status := rfl
@[simp] theorem State.setReg_error (r : Reg) (v : Word) : (s.setReg r v).error = s.error := rfl
@[simp] theorem State.setReg_pc (r : Reg) (v : Word) : (s.setReg r v).pc = s.pc := rfl
@[simp] theorem State.setReg_steps (r : Reg) (v : Word) : (s.setReg r v).steps = s.steps := rfl
@[simp] theorem State.setReg_touchedRegs (r : Reg) (v : Word) : (s.setReg r v).touchedRegs = s.touchedRegs := rfl
@[simp] theorem State.setReg_touchedMem (r : Reg) (v : Word) : (s.setReg r v).touchedMem = s.touchedMem := rfl

/-! ## touchReg -/

@[simp] theorem State.touchReg_source (r : Reg) : (s.touchReg r).source = s.source := rfl
@[simp] theorem State.touchReg_program (r : Reg) : (s.touchReg r).program = s.program := rfl
@[simp] theorem State.touchReg_regs (r : Reg) : (s.touchReg r).regs = s.regs := rfl
@[simp] theorem State.touchReg_mem (r : Reg) : (s.touchReg r).mem = s.mem := rfl
@[simp] theorem State.touchReg_output (r : Reg) : (s.touchReg r).output = s.output := rfl
@[simp] theorem State.touchReg_status (r : Reg) : (s.touchReg r).status = s.status := rfl
@[simp] theorem State.touchReg_error (r : Reg) : (s.touchReg r).error = s.error := rfl
@[simp] theorem State.touchReg_pc (r : Reg) : (s.touchReg r).pc = s.pc := rfl
@[simp] theorem State.touchReg_steps (r : Reg) : (s.touchReg r).steps = s.steps := rfl
@[simp] theorem State.touchReg_touchedRegs (r : Reg) : (s.touchReg r).touchedRegs = if r = .zero then s.touchedRegs else insertOnce r s.touchedRegs := rfl
@[simp] theorem State.touchReg_touchedMem (r : Reg) : (s.touchReg r).touchedMem = s.touchedMem := rfl

/-! ## writeReg -/

@[simp] theorem State.writeReg_source (r : Reg) (v : Word) : (s.writeReg r v).source = s.source := rfl
@[simp] theorem State.writeReg_program (r : Reg) (v : Word) : (s.writeReg r v).program = s.program := rfl
@[simp] theorem State.writeReg_regs (r : Reg) (v : Word) : (s.writeReg r v).regs = if r = .zero then s.regs else s.regs.set (regIndex r) v := rfl
@[simp] theorem State.writeReg_mem (r : Reg) (v : Word) : (s.writeReg r v).mem = s.mem := rfl
@[simp] theorem State.writeReg_output (r : Reg) (v : Word) : (s.writeReg r v).output = s.output := rfl
@[simp] theorem State.writeReg_status (r : Reg) (v : Word) : (s.writeReg r v).status = s.status := rfl
@[simp] theorem State.writeReg_error (r : Reg) (v : Word) : (s.writeReg r v).error = s.error := rfl
@[simp] theorem State.writeReg_pc (r : Reg) (v : Word) : (s.writeReg r v).pc = s.pc := rfl
@[simp] theorem State.writeReg_steps (r : Reg) (v : Word) : (s.writeReg r v).steps = s.steps := rfl
@[simp] theorem State.writeReg_touchedRegs (r : Reg) (v : Word) : (s.writeReg r v).touchedRegs = if r = .zero then s.touchedRegs else insertOnce r s.touchedRegs := rfl
@[simp] theorem State.writeReg_touchedMem (r : Reg) (v : Word) : (s.writeReg r v).touchedMem = s.touchedMem := rfl

/-! ## clearZero -/

@[simp] theorem State.clearZero_source : (s.clearZero).source = s.source := rfl
@[simp] theorem State.clearZero_program : (s.clearZero).program = s.program := rfl
@[simp] theorem State.clearZero_regs : (s.clearZero).regs = s.regs.set 0 0#32 := rfl
@[simp] theorem State.clearZero_mem : (s.clearZero).mem = s.mem := rfl
@[simp] theorem State.clearZero_output : (s.clearZero).output = s.output := rfl
@[simp] theorem State.clearZero_status : (s.clearZero).status = s.status := rfl
@[simp] theorem State.clearZero_error : (s.clearZero).error = s.error := rfl
@[simp] theorem State.clearZero_pc : (s.clearZero).pc = s.pc := rfl
@[simp] theorem State.clearZero_steps : (s.clearZero).steps = s.steps := rfl
@[simp] theorem State.clearZero_touchedRegs : (s.clearZero).touchedRegs = s.touchedRegs := rfl
@[simp] theorem State.clearZero_touchedMem : (s.clearZero).touchedMem = s.touchedMem := rfl

/-! ## setMem -/

@[simp] theorem State.setMem_source (a v : Word) : (s.setMem a v).source = s.source := rfl
@[simp] theorem State.setMem_program (a v : Word) : (s.setMem a v).program = s.program := rfl
@[simp] theorem State.setMem_regs (a v : Word) : (s.setMem a v).regs = s.regs := rfl
@[simp] theorem State.setMem_mem (a v : Word) : (s.setMem a v).mem = Memory.write s.mem a.toNat v := rfl
@[simp] theorem State.setMem_output (a v : Word) : (s.setMem a v).output = s.output := rfl
@[simp] theorem State.setMem_status (a v : Word) : (s.setMem a v).status = s.status := rfl
@[simp] theorem State.setMem_error (a v : Word) : (s.setMem a v).error = s.error := rfl
@[simp] theorem State.setMem_pc (a v : Word) : (s.setMem a v).pc = s.pc := rfl
@[simp] theorem State.setMem_steps (a v : Word) : (s.setMem a v).steps = s.steps := rfl
@[simp] theorem State.setMem_touchedRegs (a v : Word) : (s.setMem a v).touchedRegs = s.touchedRegs := rfl
@[simp] theorem State.setMem_touchedMem (a v : Word) : (s.setMem a v).touchedMem = s.touchedMem := rfl

/-! ## memWrite -/

@[simp] theorem State.memWrite_source (a v : Word) : (s.memWrite a v).source = s.source := rfl
@[simp] theorem State.memWrite_program (a v : Word) : (s.memWrite a v).program = s.program := rfl
@[simp] theorem State.memWrite_regs (a v : Word) : (s.memWrite a v).regs = s.regs := rfl
@[simp] theorem State.memWrite_mem (a v : Word) : (s.memWrite a v).mem = Memory.write s.mem a.toNat v := rfl
@[simp] theorem State.memWrite_output (a v : Word) : (s.memWrite a v).output = s.output := rfl
@[simp] theorem State.memWrite_status (a v : Word) : (s.memWrite a v).status = s.status := rfl
@[simp] theorem State.memWrite_error (a v : Word) : (s.memWrite a v).error = s.error := rfl
@[simp] theorem State.memWrite_pc (a v : Word) : (s.memWrite a v).pc = s.pc := rfl
@[simp] theorem State.memWrite_steps (a v : Word) : (s.memWrite a v).steps = s.steps := rfl
@[simp] theorem State.memWrite_touchedRegs (a v : Word) : (s.memWrite a v).touchedRegs = s.touchedRegs := rfl
@[simp] theorem State.memWrite_touchedMem (a v : Word) : (s.memWrite a v).touchedMem = insertOnce a s.touchedMem := rfl

/-! ## advance -/

@[simp] theorem State.advance_source : (s.advance).source = s.source := rfl
@[simp] theorem State.advance_program : (s.advance).program = s.program := rfl
@[simp] theorem State.advance_regs : (s.advance).regs = s.regs := rfl
@[simp] theorem State.advance_mem : (s.advance).mem = s.mem := rfl
@[simp] theorem State.advance_output : (s.advance).output = s.output := rfl
@[simp] theorem State.advance_status : (s.advance).status = s.status := rfl
@[simp] theorem State.advance_error : (s.advance).error = s.error := rfl
@[simp] theorem State.advance_pc : (s.advance).pc = s.pc + 1 := rfl
@[simp] theorem State.advance_steps : (s.advance).steps = s.steps := rfl
@[simp] theorem State.advance_touchedRegs : (s.advance).touchedRegs = s.touchedRegs := rfl
@[simp] theorem State.advance_touchedMem : (s.advance).touchedMem = s.touchedMem := rfl

/-! ## jump -/

@[simp] theorem State.jump_source (target : Nat) : (s.jump target).source = s.source := rfl
@[simp] theorem State.jump_program (target : Nat) : (s.jump target).program = s.program := rfl
@[simp] theorem State.jump_regs (target : Nat) : (s.jump target).regs = s.regs := rfl
@[simp] theorem State.jump_mem (target : Nat) : (s.jump target).mem = s.mem := rfl
@[simp] theorem State.jump_output (target : Nat) : (s.jump target).output = s.output := rfl
@[simp] theorem State.jump_status (target : Nat) : (s.jump target).status = s.status := rfl
@[simp] theorem State.jump_error (target : Nat) : (s.jump target).error = s.error := rfl
@[simp] theorem State.jump_pc (target : Nat) : (s.jump target).pc = target := rfl
@[simp] theorem State.jump_steps (target : Nat) : (s.jump target).steps = s.steps := rfl
@[simp] theorem State.jump_touchedRegs (target : Nat) : (s.jump target).touchedRegs = s.touchedRegs := rfl
@[simp] theorem State.jump_touchedMem (target : Nat) : (s.jump target).touchedMem = s.touchedMem := rfl

/-! ## branch -/

@[simp] theorem State.branch_source (taken : Bool) (target : Nat) : (s.branch taken target).source = s.source := rfl
@[simp] theorem State.branch_program (taken : Bool) (target : Nat) : (s.branch taken target).program = s.program := rfl
@[simp] theorem State.branch_regs (taken : Bool) (target : Nat) : (s.branch taken target).regs = s.regs := rfl
@[simp] theorem State.branch_mem (taken : Bool) (target : Nat) : (s.branch taken target).mem = s.mem := rfl
@[simp] theorem State.branch_output (taken : Bool) (target : Nat) : (s.branch taken target).output = s.output := rfl
@[simp] theorem State.branch_status (taken : Bool) (target : Nat) : (s.branch taken target).status = s.status := rfl
@[simp] theorem State.branch_error (taken : Bool) (target : Nat) : (s.branch taken target).error = s.error := rfl
@[simp] theorem State.branch_pc (taken : Bool) (target : Nat) : (s.branch taken target).pc = if taken then target else s.pc + 1 := rfl
@[simp] theorem State.branch_steps (taken : Bool) (target : Nat) : (s.branch taken target).steps = s.steps := rfl
@[simp] theorem State.branch_touchedRegs (taken : Bool) (target : Nat) : (s.branch taken target).touchedRegs = s.touchedRegs := rfl
@[simp] theorem State.branch_touchedMem (taken : Bool) (target : Nat) : (s.branch taken target).touchedMem = s.touchedMem := rfl

/-! ## print -/

@[simp] theorem State.print_source (t : Text) : (s.print t).source = s.source := rfl
@[simp] theorem State.print_program (t : Text) : (s.print t).program = s.program := rfl
@[simp] theorem State.print_regs (t : Text) : (s.print t).regs = s.regs := rfl
@[simp] theorem State.print_mem (t : Text) : (s.print t).mem = s.mem := rfl
@[simp] theorem State.print_output (t : Text) : (s.print t).output = s.output ++ t := rfl
@[simp] theorem State.print_status (t : Text) : (s.print t).status = s.status := rfl
@[simp] theorem State.print_error (t : Text) : (s.print t).error = s.error := rfl
@[simp] theorem State.print_pc (t : Text) : (s.print t).pc = s.pc := rfl
@[simp] theorem State.print_steps (t : Text) : (s.print t).steps = s.steps := rfl
@[simp] theorem State.print_touchedRegs (t : Text) : (s.print t).touchedRegs = s.touchedRegs := rfl
@[simp] theorem State.print_touchedMem (t : Text) : (s.print t).touchedMem = s.touchedMem := rfl

/-! ## halt -/

@[simp] theorem State.halt_source : (s.halt).source = s.source := rfl
@[simp] theorem State.halt_program : (s.halt).program = s.program := rfl
@[simp] theorem State.halt_regs : (s.halt).regs = s.regs := rfl
@[simp] theorem State.halt_mem : (s.halt).mem = s.mem := rfl
@[simp] theorem State.halt_output : (s.halt).output = s.output := rfl
@[simp] theorem State.halt_status : (s.halt).status = .halted := rfl
@[simp] theorem State.halt_error : (s.halt).error = s.error := rfl
@[simp] theorem State.halt_pc : (s.halt).pc = s.pc := rfl
@[simp] theorem State.halt_steps : (s.halt).steps = s.steps := rfl
@[simp] theorem State.halt_touchedRegs : (s.halt).touchedRegs = s.touchedRegs := rfl
@[simp] theorem State.halt_touchedMem : (s.halt).touchedMem = s.touchedMem := rfl

/-! ## raise -/

@[simp] theorem State.raise_source (c : Config) (e : Cause) : (s.raise c e).source = s.source := rfl
@[simp] theorem State.raise_program (c : Config) (e : Cause) : (s.raise c e).program = s.program := rfl
@[simp] theorem State.raise_regs (c : Config) (e : Cause) : (s.raise c e).regs = s.regs := rfl
@[simp] theorem State.raise_mem (c : Config) (e : Cause) : (s.raise c e).mem = s.mem := rfl
@[simp] theorem State.raise_output (c : Config) (e : Cause) : (s.raise c e).output = s.output := rfl
@[simp] theorem State.raise_status (c : Config) (e : Cause) : (s.raise c e).status = .error := rfl
@[simp] theorem State.raise_error (c : Config) (e : Cause) : (s.raise c e).error = some (c.errorText e) := rfl
@[simp] theorem State.raise_pc (c : Config) (e : Cause) : (s.raise c e).pc = s.pc := rfl
@[simp] theorem State.raise_steps (c : Config) (e : Cause) : (s.raise c e).steps = s.steps := rfl
@[simp] theorem State.raise_touchedRegs (c : Config) (e : Cause) : (s.raise c e).touchedRegs = s.touchedRegs := rfl
@[simp] theorem State.raise_touchedMem (c : Config) (e : Cause) : (s.raise c e).touchedMem = s.touchedMem := rfl

/-! ## retire -/

@[simp] theorem State.retire_source : (s.retire).source = s.source := rfl
@[simp] theorem State.retire_program : (s.retire).program = s.program := rfl
@[simp] theorem State.retire_regs : (s.retire).regs = s.regs.set 0 0#32 := rfl
@[simp] theorem State.retire_mem : (s.retire).mem = s.mem := rfl
@[simp] theorem State.retire_output : (s.retire).output = s.output := rfl
@[simp] theorem State.retire_status : (s.retire).status = s.status := rfl
@[simp] theorem State.retire_error : (s.retire).error = s.error := rfl
@[simp] theorem State.retire_pc : (s.retire).pc = s.pc := rfl
@[simp] theorem State.retire_steps : (s.retire).steps = s.steps + 1 := rfl
@[simp] theorem State.retire_touchedRegs : (s.retire).touchedRegs = s.touchedRegs := rfl
@[simp] theorem State.retire_touchedMem : (s.retire).touchedMem = s.touchedMem := rfl

/-! ## fail -/

@[simp] theorem State.fail_source (c : Config) (e : Cause) : (s.fail c e).source = s.source := rfl
@[simp] theorem State.fail_program (c : Config) (e : Cause) : (s.fail c e).program = s.program := rfl
@[simp] theorem State.fail_regs (c : Config) (e : Cause) : (s.fail c e).regs = s.regs.set 0 0#32 := rfl
@[simp] theorem State.fail_mem (c : Config) (e : Cause) : (s.fail c e).mem = s.mem := rfl
@[simp] theorem State.fail_output (c : Config) (e : Cause) : (s.fail c e).output = s.output := rfl
@[simp] theorem State.fail_status (c : Config) (e : Cause) : (s.fail c e).status = .error := rfl
@[simp] theorem State.fail_error (c : Config) (e : Cause) : (s.fail c e).error = some (c.errorText e) := rfl
@[simp] theorem State.fail_pc (c : Config) (e : Cause) : (s.fail c e).pc = s.pc := rfl
@[simp] theorem State.fail_steps (c : Config) (e : Cause) : (s.fail c e).steps = s.steps + 1 := rfl
@[simp] theorem State.fail_touchedRegs (c : Config) (e : Cause) : (s.fail c e).touchedRegs = s.touchedRegs := rfl
@[simp] theorem State.fail_touchedMem (c : Config) (e : Cause) : (s.fail c e).touchedMem = s.touchedMem := rfl

end Sys2Proof.Machine
end

