-- ==== Sys2Proof/Laws/Memory.lean ====
section
/-!
SUPPORT. The word memory: a read after a write, and the canonical form that every write keeps (spec 20_memory R46 to R48).
-/

namespace Sys2Proof.Machine

theorem Memory.read_of_lt {m : Memory} {a : Nat} (h : ∀ k ∈ m.map Prod.fst, a < k) :
    Memory.read m a = Memory.unlisted := by
  induction m with
  | nil => rfl
  | cons e m ih =>
    have ha : e.1 ≠ a := by have := h e.1 (by simp); omega
    simp only [Memory.read, ha, if_false]
    exact ih fun k hk => h k (by simp [hk])

/-- What every key reads after a write: the written word at its key, as before elsewhere. -/
theorem Memory.read_write {m : Memory} (hm : (m.map Prod.fst).Pairwise (· < ·)) (a b : Nat) (v : Word) :
    Memory.read (Memory.write m a v) b = if b = a then v else Memory.read m b := by
  induction m with
  | nil =>
    by_cases hv : v = Memory.unlisted <;> by_cases hb : a = b <;>
      simp_all [Memory.write, Memory.read, eq_comm (a := b)]
  | cons e m ih =>
    obtain ⟨k, w⟩ := e
    simp only [List.map_cons, List.pairwise_cons] at hm
    have ih := ih hm.2
    have hunl : ∀ x, x ≤ k → Memory.read m x = Memory.unlisted := fun x hx =>
      Memory.read_of_lt fun k' hk' => Nat.lt_of_le_of_lt hx (hm.1 k' hk')
    by_cases h1 : a < k
    · by_cases hv : v = Memory.unlisted
      · by_cases hb : b = a
        · subst hb; simp [Memory.write, h1, hv, Memory.read, hunl b (by omega), show k ≠ b by omega]
        · simp [Memory.write, h1, hv, hb]
      · by_cases hb : b = a
        · simp [Memory.write, h1, hv, Memory.read, hb]
        · simp [Memory.write, h1, hv, Memory.read, hb, show a ≠ b by omega]
    · by_cases h2 : a = k
      · subst h2
        by_cases hv : v = Memory.unlisted
        · by_cases hb : b = a
          · simp [Memory.write, hv, hb, hunl a (by omega)]
          · simp [Memory.write, hv, hb, Memory.read, show a ≠ b by omega]
        · by_cases hb : b = a
          · simp [Memory.write, hv, hb, Memory.read]
          · simp [Memory.write, hv, hb, Memory.read, show a ≠ b by omega]
      · simp only [Memory.write, h1, h2, if_false, Memory.read]
        by_cases hb : k = b
        · simp [hb, show b ≠ a by omega]
        · simp only [hb, if_false]; exact ih

theorem Memory.keys_write {m : Memory} {a : Nat} {v : Word} {k : Nat}
    (h : k ∈ (Memory.write m a v).map Prod.fst) : k = a ∨ k ∈ m.map Prod.fst := by
  induction m with
  | nil => by_cases hv : v = Memory.unlisted <;> simp_all [Memory.write]
  | cons e m ih =>
    obtain ⟨k', w⟩ := e
    simp only [Memory.write] at h
    split at h
    · split at h
      · exact .inr h
      · rcases List.mem_cons.mp h with h | h
        · exact .inl h
        · exact .inr h
    · split at h
      · split at h
        · exact .inr (List.mem_cons_of_mem _ h)
        · rcases List.mem_cons.mp h with h | h
          · exact .inl h
          · exact .inr (List.mem_cons_of_mem _ h)
      · rcases List.mem_cons.mp h with h | h
        · exact .inr (h ▸ List.mem_cons_self)
        · exact (ih h).imp id (List.mem_cons_of_mem _)

theorem Memory.pairwise_write {m : Memory} (hm : (m.map Prod.fst).Pairwise (· < ·)) (a : Nat) (v : Word) :
    ((Memory.write m a v).map Prod.fst).Pairwise (· < ·) := by
  induction m with
  | nil => by_cases hv : v = Memory.unlisted <;> simp [Memory.write, hv]
  | cons e m ih =>
    obtain ⟨k, w⟩ := e
    have hm' := List.pairwise_cons.mp hm
    simp only [Memory.write]
    split
    · next h1 =>
      split
      · exact hm
      · refine List.pairwise_cons.mpr ⟨fun x hx => ?_, hm⟩
        rcases List.mem_cons.mp hx with rfl | hx
        · exact h1
        · exact Nat.lt_trans h1 (hm'.1 x hx)
    · split
      · next h2 =>
        subst h2
        split
        · exact hm'.2
        · exact hm
      · next h1 h2 =>
        refine List.pairwise_cons.mpr ⟨fun x hx => ?_, ih hm'.2⟩
        rcases Memory.keys_write hx with rfl | hx
        · omega
        · exact hm'.1 x hx

theorem Memory.mem_write {m : Memory} {a : Nat} {v : Word} {e : Nat × Word}
    (h : e ∈ Memory.write m a v) : e ∈ m ∨ (e = (a, v) ∧ v ≠ Memory.unlisted) := by
  induction m with
  | nil => by_cases hv : v = Memory.unlisted <;> simp_all [Memory.write]
  | cons e' m ih =>
    obtain ⟨k', w⟩ := e'
    simp only [Memory.write] at h
    split at h
    · split at h
      · exact .inl h
      · next hv =>
        rcases List.mem_cons.mp h with h | h
        · exact .inr ⟨h, hv⟩
        · exact .inl h
    · split at h
      · split at h
        · exact .inl (List.mem_cons_of_mem _ h)
        · next hv =>
          rcases List.mem_cons.mp h with h | h
          · exact .inr ⟨h, hv⟩
          · exact .inl (List.mem_cons_of_mem _ h)
      · rcases List.mem_cons.mp h with h | h
        · exact .inl (h ▸ List.mem_cons_self)
        · exact (ih h).imp (List.mem_cons_of_mem _) id

/-- Every write keeps the canonical form. -/
theorem Memory.wf_write {m : Memory} (hm : Memory.wf m) {a : Nat} (ha : a < 2 ^ 32) (v : Word) :
    Memory.wf (Memory.write m a v) := by
  refine ⟨Memory.pairwise_write hm.1 a v, fun e he => ?_⟩
  rcases Memory.mem_write he with h | ⟨rfl, hv⟩
  · exact hm.2 e h
  · exact ⟨ha, hv⟩

theorem Memory.wf_nil : Memory.wf [] := ⟨List.Pairwise.nil, by simp⟩

theorem State.wf_setMem {s : State} (h : Memory.wf s.mem) (a v : Word) : Memory.wf (s.setMem a v).mem :=
  Memory.wf_write h a.isLt v

theorem State.wf_memWrite {s : State} (h : Memory.wf s.mem) (a v : Word) : Memory.wf (s.memWrite a v).mem :=
  Memory.wf_write h a.isLt v

/-- The store as a whole: what every address reads after it. -/
theorem State.memRead_memWrite {s : State} (h : Memory.wf s.mem) (a b v : Word) :
    (s.memWrite a v).memRead b = if b = a then v else s.memRead b := by
  have := Memory.read_write h.1 a.toNat b.toNat v
  simpa [State.memRead, BitVec.toNat_inj] using this

theorem State.memRead_setMem {s : State} (h : Memory.wf s.mem) (a b v : Word) :
    (s.setMem a v).memRead b = if b = a then v else s.memRead b :=
  State.memRead_memWrite h a b v

end Sys2Proof.Machine
end

