-- ==== Sys2Proof/Laws/Registers.lean ====
section
/-!
SUPPORT. The register file: reads after writes, and the ordered sets.
-/

namespace Sys2Proof.Machine

theorem regIndex_injective {r r' : Reg} (h : regIndex r = regIndex r') : r = r' := by
  have all : ∀ x y : Reg, regIndex x = regIndex y → x = y := by
    intro x y; cases x <;> cases y <;> simp [regIndex]
  exact all r r' h

theorem mem_allRegs (r : Reg) : r ∈ allRegs := by
  cases r <;> decide

@[simp] theorem State.regSlot_setReg_same (s : State) {r : Reg} (v : Word) (h : r ≠ .zero) :
    (s.setReg r v).regSlot r = v := by
  simp [State.regSlot, h]

@[simp] theorem State.regSlot_setReg_other (s : State) {r r' : Reg} (v : Word) (h : r' ≠ r) :
    (s.setReg r v).regSlot r' = s.regSlot r' := by
  have hi : (regIndex r : Nat) ≠ regIndex r' := fun e => h (regIndex_injective (Fin.ext e)).symm
  by_cases hz : r = .zero <;> simp [State.regSlot, hz, hi]

/-- A write to `$zero` leaves the register file as it is (10_state R22). -/
@[simp] theorem State.writeReg_zero (s : State) (v : Word) : s.writeReg .zero v = s := rfl

@[simp] theorem State.regSlot_writeReg (s : State) (r r' : Reg) (v : Word) :
    (s.writeReg r v).regSlot r' = (s.setReg r v).regSlot r' := rfl

@[simp] theorem State.readReg_zero (s : State) : s.readReg .zero = 0#32 := rfl

theorem State.readReg_eq_slot (s : State) {r : Reg} (h : r ≠ .zero) : s.readReg r = s.regSlot r := by
  simp [State.readReg, h]

/-- The register write as a whole: what every register reads after it. -/
theorem State.readReg_writeReg (s : State) (r r' : Reg) (v : Word) :
    (s.writeReg r v).readReg r' = if r' = r ∧ r ≠ .zero then v else s.readReg r' := by
  by_cases hz : r' = .zero
  · subst hz
    have : ¬ (Reg.zero = r ∧ r ≠ Reg.zero) := fun h => h.2 h.1.symm
    simp [this]
  · by_cases h : r' = r
    · subst h; simp [State.readReg, hz]
    · simp [State.readReg, hz, h]

/-- The re-assertion of `$zero` changes no other register's slot. -/
theorem State.regSlot_clearZero (s : State) (r : Reg) :
    s.clearZero.regSlot r = if r = .zero then 0#32 else s.regSlot r := by
  cases r <;> simp [State.regSlot, regIndex]

@[simp] theorem State.regSlot_retire (s : State) (r : Reg) :
    s.retire.regSlot r = if r = .zero then 0#32 else s.regSlot r :=
  State.regSlot_clearZero _ r

@[simp] theorem State.readReg_retire (s : State) (r : Reg) : s.retire.readReg r = s.readReg r := by
  by_cases h : r = .zero <;> simp [State.readReg, h]

/-- Registers read the same where the register files are the same. -/
theorem State.readReg_congr {s t : State} (h : t.regs = s.regs) (r : Reg) : t.readReg r = s.readReg r := by
  simp [State.readReg, State.regSlot, h]

/-! ## Ordered sets -/

theorem mem_insertOnce {α : Type} [DecidableEq α] {a b : α} {l : List α} :
    b ∈ insertOnce a l ↔ b = a ∨ b ∈ l := by
  unfold insertOnce; split <;> simp_all [or_comm]

theorem nodup_insertOnce {α : Type} [DecidableEq α] (a : α) {l : List α} (h : l.Nodup) :
    (insertOnce a l).Nodup := by
  unfold insertOnce; split
  · exact h
  · next hn => simpa using List.Nodup.concat hn h

theorem isPrefix_insertOnce {α : Type} [DecidableEq α] (a : α) (l : List α) : l <+: insertOnce a l := by
  unfold insertOnce; split <;> simp

end Sys2Proof.Machine
end

