-- ==== Sys2Proof/Laws/Exec.lean ====
section
/-!
SUPPORT. What `exec` answers for each instruction, everything one instruction can do, and everything one step can do.
-/

namespace Sys2Proof.Machine

variable (s : State)

@[simp] theorem State.putReg_npad (r : Reg) (v : Word) : s.putReg npad r v = s.writeReg r v := by
  simp [State.putReg]
@[simp] theorem accessAddress_npad (m : MemOperand) : accessAddress npad s m = effectiveAddress s m := by
  simp [accessAddress]

@[simp] theorem exec_li (rd : Reg) (imm : Word) :
    exec (.li rd imm) s = .next (s.writeReg rd imm).advance := by
  simp [exec, execLi, execLiWith]
@[simp] theorem exec_la (rd : Reg) (addr : Word) :
    exec (.la rd addr) s = .next (s.writeReg rd addr).advance := by
  simp [exec, execLa, execLaWith]
@[simp] theorem exec_move (rd rs : Reg) :
    exec (.move rd rs) s = .next (s.writeReg rd (s.readReg rs)).advance := by
  simp [exec, execMove, execMoveWith]
@[simp] theorem exec_addi (rd rs : Reg) (imm : Word) :
    exec (.addi rd rs imm) s = .next (s.writeReg rd (aluAdd (s.readReg rs) imm)).advance := by
  simp [exec, execAddi, execAddiWith]
@[simp] theorem exec_add (rd rs rt : Reg) :
    exec (.add rd rs rt) s = .next (s.writeReg rd (aluAdd (s.readReg rs) (s.readReg rt))).advance := by
  simp [exec, execAdd, execAddWith]
@[simp] theorem exec_sub (rd rs rt : Reg) :
    exec (.sub rd rs rt) s = .next (s.writeReg rd (aluSub (s.readReg rs) (s.readReg rt))).advance := by
  simp [exec, execSub, execSubWith]
@[simp] theorem exec_lw (rd : Reg) (m : MemOperand) :
    exec (.lw rd m) s = .next (s.writeReg rd (s.memRead (effectiveAddress s m))).advance := by
  simp [exec, execLw, execLwWith]
@[simp] theorem exec_sw (rs : Reg) (m : MemOperand) :
    exec (.sw rs m) s = .next (s.memWrite (effectiveAddress s m) (s.readReg rs)).advance := by
  simp [exec, execSw, execSwWith]
@[simp] theorem exec_beq (rs rt : Reg) (target : Nat) :
    exec (.beq rs rt target) s = .next (s.branch (aluEq (s.readReg rs) (s.readReg rt)) target) := rfl
@[simp] theorem exec_bne (rs rt : Reg) (target : Nat) :
    exec (.bne rs rt target) s = .next (s.branch (!aluEq (s.readReg rs) (s.readReg rt)) target) := rfl
@[simp] theorem exec_j (target : Nat) : exec (.j target) s = .next (s.jump target) := rfl
@[simp] theorem exec_syscall : exec .syscall s = .next (s.service npad) := rfl

/-- The five things a `syscall` can do under any parameters, each with the selector that chooses it (45_syscall R143). -/
theorem State.service_cases_of (c : Config) :
    (s.readReg c.selectorReg = c.sysPrintInt ∧ s.service c = (s.print (dec (s.readReg c.argReg))).advance) ∨
    (s.readReg c.selectorReg = c.sysPrintString ∧ s.service c = (s.print (s.stringAt (s.readReg c.argReg))).advance) ∨
    (s.readReg c.selectorReg = c.sysExit ∧ s.service c = s.halt) ∨
    (s.readReg c.selectorReg = c.sysPrintChar ∧ s.service c = (s.print [chr (lowByte (s.readReg c.argReg))]).advance) ∨
    (s.readReg c.selectorReg ∉ [c.sysPrintInt, c.sysPrintString, c.sysExit, c.sysPrintChar] ∧
      s.service c = s.raise c (.unsupportedSyscall (s.readReg c.selectorReg))) := by
  by_cases h1 : s.readReg c.selectorReg = c.sysPrintInt
  · exact .inl ⟨h1, if_pos h1⟩
  · by_cases h2 : s.readReg c.selectorReg = c.sysPrintString
    · exact .inr (.inl ⟨h2, (if_neg h1).trans (if_pos h2)⟩)
    · by_cases h3 : s.readReg c.selectorReg = c.sysExit
      · exact .inr (.inr (.inl ⟨h3, ((if_neg h1).trans (if_neg h2)).trans (if_pos h3)⟩))
      · by_cases h4 : s.readReg c.selectorReg = c.sysPrintChar
        · exact .inr (.inr (.inr (.inl ⟨h4, (((if_neg h1).trans (if_neg h2)).trans (if_neg h3)).trans (if_pos h4)⟩)))
        · exact .inr (.inr (.inr (.inr ⟨by simp [h1, h2, h3, h4],
            (((if_neg h1).trans (if_neg h2)).trans (if_neg h3)).trans (if_neg h4)⟩)))

/-- The five things a `syscall` can do at npad-core's parameters. -/
theorem State.service_cases :
    (s.readReg .v0 = 1#32 ∧ s.service npad = (s.print (dec (s.readReg .a0))).advance) ∨
    (s.readReg .v0 = 4#32 ∧ s.service npad = (s.print (s.stringAt (s.readReg .a0))).advance) ∨
    (s.readReg .v0 = 10#32 ∧ s.service npad = s.halt) ∨
    (s.readReg .v0 = 11#32 ∧ s.service npad = (s.print [chr (lowByte (s.readReg .a0))]).advance) ∨
    (s.readReg .v0 ∉ [1#32, 4#32, 10#32, 11#32] ∧
      s.service npad = s.raise npad (.unsupportedSyscall (s.readReg .v0))) :=
  s.service_cases_of npad

variable {s}

/-- Everything one cycle can do under any parameters, with the guards of the spec's order (40_execution_cycle R105). -/
theorem cycle_cases {c : Config} {execute : Instr → State → Host.Outcome State Fault Refusal} {t : State}
    (h : cycle c execute s = .next t) :
    (s.status ≠ .ready ∧ t = s) ∨
    (s.status = .ready ∧ s.fetch = none ∧ t = s.halt) ∨
    (s.status = .ready ∧ (∃ line, s.fetch = some line) ∧ c.maxSteps ≤ s.steps ∧ t = s.raise c (.timeout c.maxSteps)) ∨
    (∃ line e, s.status = .ready ∧ s.fetch = some line ∧ s.steps < c.maxSteps ∧
      decode c s.program line = .error e ∧ t = s.fail c e) ∨
    (∃ line i u, s.status = .ready ∧ s.fetch = some line ∧ s.steps < c.maxSteps ∧
      decode c s.program line = .ok i ∧ execute i s = .next u ∧ t = u.retire) := by
  unfold cycle at h
  split at h
  · next hs => cases h; exact .inl ⟨hs, rfl⟩
  · next hs =>
    have hs : s.status = .ready := Classical.not_not.mp hs
    split at h
    · next hf => cases h; exact .inr (.inl ⟨hs, hf, rfl⟩)
    · next line hf =>
      split at h
      · next hb => cases h; exact .inr (.inr (.inl ⟨hs, ⟨line, hf⟩, hb, rfl⟩))
      · next hb =>
        have hb : s.steps < c.maxSteps := Nat.lt_of_not_le hb
        split at h
        · next e hd => cases h; exact .inr (.inr (.inr (.inl ⟨line, e, hs, hf, hb, hd, rfl⟩)))
        · next i hd =>
          generalize hx : execute i s = o at h
          cases o with
          | next u => cases h; exact .inr (.inr (.inr (.inr ⟨line, i, u, hs, hf, hb, hd, hx, rfl⟩)))
          | fault r => cases r
          | refused r => cases h

/-- Everything one step can do. -/
theorem step_cases {t : State} (h : step s = .next t) :
    (s.status ≠ .ready ∧ t = s) ∨
    (s.status = .ready ∧ s.fetch = none ∧ t = s.halt) ∨
    (s.status = .ready ∧ (∃ line, s.fetch = some line) ∧ npad.maxSteps ≤ s.steps ∧
      t = s.raise npad (.timeout npad.maxSteps)) ∨
    (∃ line e, s.status = .ready ∧ s.fetch = some line ∧ s.steps < npad.maxSteps ∧
      decode npad s.program line = .error e ∧ t = s.fail npad e) ∨
    (∃ line i u, s.status = .ready ∧ s.fetch = some line ∧ s.steps < npad.maxSteps ∧
      decode npad s.program line = .ok i ∧ exec i s = .next u ∧ t = u.retire) :=
  cycle_cases h

/-- Everything one instruction can do: a register write, a store, a move of `pc`, a print, the halt, or the error of an
unknown selector. -/
theorem exec_cases {i : Instr} {t : State} (h : exec i s = .next t) :
    (∃ rd v, destination i = some rd ∧ storeAddress s i = none ∧ t = (s.writeReg rd v).advance) ∨
    (∃ rs m, i = .sw rs m ∧ t = (s.memWrite (effectiveAddress s m) (s.readReg rs)).advance) ∨
    (destination i = none ∧ storeAddress s i = none ∧ i ≠ .syscall ∧ ∃ target, t = s.jump target) ∨
    (i = .syscall ∧ s.readReg .v0 ∈ [1#32, 4#32, 11#32] ∧ ∃ text, t = (s.print text).advance) ∨
    (i = .syscall ∧ s.readReg .v0 = 10#32 ∧ t = s.halt) ∨
    (i = .syscall ∧ s.readReg .v0 ∉ [1#32, 4#32, 10#32, 11#32] ∧
      t = s.raise npad (.unsupportedSyscall (s.readReg .v0))) := by
  cases i with
  | syscall =>
    cases h
    rcases s.service_cases with ⟨hv, h⟩ | ⟨hv, h⟩ | ⟨hv, h⟩ | ⟨hv, h⟩ | ⟨hv, h⟩ <;> rw [h]
    · exact .inr (.inr (.inr (.inl ⟨rfl, by simp [hv], _, rfl⟩)))
    · exact .inr (.inr (.inr (.inl ⟨rfl, by simp [hv], _, rfl⟩)))
    · exact .inr (.inr (.inr (.inr (.inl ⟨rfl, hv, rfl⟩))))
    · exact .inr (.inr (.inr (.inl ⟨rfl, by simp [hv], _, rfl⟩)))
    · exact .inr (.inr (.inr (.inr (.inr ⟨rfl, hv, rfl⟩))))
  | sw rs m => rw [exec_sw] at h; cases h; exact .inr (.inl ⟨rs, m, rfl, rfl⟩)
  | beq rs rt target => cases h; exact .inr (.inr (.inl ⟨rfl, rfl, nofun, _, rfl⟩))
  | bne rs rt target => cases h; exact .inr (.inr (.inl ⟨rfl, rfl, nofun, _, rfl⟩))
  | j target => cases h; exact .inr (.inr (.inl ⟨rfl, rfl, nofun, _, rfl⟩))
  | _ => cases h; exact .inl ⟨_, _, rfl, rfl, rfl⟩

/-- A fetched line is the instruction line at `pc`, so `pc` is in range. -/
theorem State.fetch_some {line : Text} (h : s.fetch = some line) : s.pc < s.program.instrs.length :=
  (List.getElem?_eq_some_iff.mp h).1

theorem State.fetch_none : s.fetch = none ↔ s.program.instrs.length ≤ s.pc :=
  List.getElem?_eq_none_iff

end Sys2Proof.Machine
end

