-- ==== Sys2Proof/Laws/Text.lean ====
section
/-!
SUPPORT. Texts: trimming, tokens, register names and the parts of a pattern (spec 30_encoding R81, R82, R84).
-/

namespace Sys2Proof.Machine

/-! ## Runs of characters -/

/-- A run of characters that satisfy the test, followed by nothing or by one that does not, is the whole longest run. -/
theorem takeWhile_append_stop {p : CodePoint → Bool} {a b : Text} (ha : ∀ ch ∈ a, p ch = true)
    (hb : ∀ ch, b.head? = some ch → p ch = false) : (a ++ b).takeWhile p = a := by
  induction a with
  | nil => cases b with
    | nil => rfl
    | cons ch b => simp [hb ch rfl]
  | cons ch a ih => simp [ha ch (by simp), ih fun x hx => ha x (by simp [hx])]

theorem dropWhile_append_stop {p : CodePoint → Bool} {a b : Text} (ha : ∀ ch ∈ a, p ch = true)
    (hb : ∀ ch, b.head? = some ch → p ch = false) : (a ++ b).dropWhile p = b := by
  induction a with
  | nil => cases b with
    | nil => rfl
    | cons ch b => simp [hb ch rfl]
  | cons ch a ih => simpa [ha ch (by simp)] using ih fun x hx => ha x (by simp [hx])

/-- What is left after a longest run does not begin with a character of the run. -/
theorem head_dropWhile {p : CodePoint → Bool} {t : Text} {ch : CodePoint} (h : (t.dropWhile p).head? = some ch) :
    p ch = false := by
  induction t with
  | nil => cases h
  | cons x t ih =>
    by_cases hx : p x = true
    · exact ih (by simpa [hx] using h)
    · simp only [List.dropWhile_cons, hx] at h
      cases h
      simpa using hx

/-! ## Trimming -/

theorem trimStart_spaces_append {s : Text} (t : Text) (hs : ∀ ch ∈ s, isSpace ch = true) :
    trimStart (s ++ t) = trimStart t := by
  induction s with
  | nil => rfl
  | cons ch s ih =>
    simpa [trimStart, hs ch (by simp)] using ih fun x hx => hs x (by simp [hx])

theorem trimStart_eq_self {t : Text} (h : ∀ ch, t.head? = some ch → isSpace ch = false) : trimStart t = t := by
  cases t with
  | nil => rfl
  | cons ch t => simp [trimStart, h ch rfl]

theorem trimEnd_eq_self {t : Text} (h : ∀ ch, t.getLast? = some ch → isSpace ch = false) : trimEnd t = t := by
  have := trimStart_eq_self (t := t.reverse) (by simpa using h)
  simpa [trimEnd, trimStart] using congrArg List.reverse this

theorem trim_eq_self {t : Text} (h₁ : ∀ ch, t.head? = some ch → isSpace ch = false)
    (h₂ : ∀ ch, t.getLast? = some ch → isSpace ch = false) : trim t = t := by
  rw [trim, trimStart_eq_self h₁, trimEnd_eq_self h₂]

/-- A text is its leading `WS` and its trimmed start. -/
theorem exists_spaces_trimStart (t : Text) :
    ∃ s, (∀ ch ∈ s, isSpace ch = true) ∧ t = s ++ trimStart t :=
  ⟨t.takeWhile isSpace, fun _ h => List.mem_takeWhile_imp h, (List.takeWhile_append_dropWhile).symm⟩

theorem head_trimStart {t : Text} {ch : CodePoint} (h : (trimStart t).head? = some ch) : isSpace ch = false :=
  head_dropWhile h

/-- A trimmed text does not end with `WS`. -/
theorem getLast_trimEnd {t : Text} {ch : CodePoint} (h : (trimEnd t).getLast? = some ch) : isSpace ch = false := by
  have : ((t.reverse.dropWhile isSpace)).head? = some ch := by simpa [trimEnd] using h
  exact head_dropWhile this

theorem getLast_trim {t : Text} {ch : CodePoint} (h : (trim t).getLast? = some ch) : isSpace ch = false :=
  getLast_trimEnd h

/-- A text is its trimmed end and its trailing `WS`. -/
theorem exists_trimEnd_spaces (t : Text) :
    ∃ s, (∀ ch ∈ s, isSpace ch = true) ∧ t = trimEnd t ++ s := by
  obtain ⟨s, hs, h⟩ := exists_spaces_trimStart t.reverse
  refine ⟨s.reverse, by simpa using hs, ?_⟩
  have := congrArg List.reverse h
  simpa [trimEnd, trimStart] using this

/-- A trimmed text does not begin with `WS`. -/
theorem head_trim {t : Text} {ch : CodePoint} (h : (trim t).head? = some ch) : isSpace ch = false := by
  obtain ⟨s, -, hs⟩ := exists_trimEnd_spaces (trimStart t)
  have : (trimStart t).head? = some ch := by
    rw [hs]
    cases hx : trimEnd (trimStart t) with
    | nil => simp [trim, hx] at h
    | cons y ys => simpa [trim, hx] using h
  exact head_trimStart this

theorem trim_trim (t : Text) : trim (trim t) = trim t :=
  trim_eq_self (fun _ h => head_trim h) (fun _ h => getLast_trim h)

/-! ## Case folding, tokens and register names -/

theorem lower_eq_self {ch : CodePoint} (h : ch.number < 65) : lower ch = ch := by
  cases ch with
  | surrogate k => rfl
  | scalar c =>
    simp only [lower, Char.toLower]
    split
    · next hc =>
      have h65 : 65 ≤ c.toNat := hc.1
      simp only [CodePoint.number] at h
      omega
    · rfl

theorem number_lt_of_isSpace {ch : CodePoint} (h : isSpace ch = true) : ch.number < 33 := by
  simp only [isSpace, Bool.or_eq_true, beq_iff_eq] at h
  omega

theorem lower_of_isSpace {ch : CodePoint} (h : isSpace ch = true) : lower ch = ch :=
  lower_eq_self (Nat.lt_trans (number_lt_of_isSpace h) (by decide))

/-- No character of a text is `WS` where none of its folded form is. -/
theorem not_isSpace_of_fold {a m : Text} (h : fold a = m) (hm : ∀ ch ∈ m, isSpace ch = false) :
    ∀ ch ∈ a, isSpace ch = false := by
  intro ch hch
  cases hs : isSpace ch with
  | false => rfl
  | true =>
    have : lower ch ∈ m := h ▸ List.mem_map_of_mem hch
    rw [lower_of_isSpace hs] at this
    simp [hm ch this] at hs

/-- Every character of a text is a `TOK` character where every one of its folded form is. -/
theorem isTokChar_of_fold {a m : Text} (h : fold a = m) (hm : ∀ ch ∈ m, isTokChar ch = true) :
    ∀ ch ∈ a, isTokChar ch = true := by
  have hsp := not_isSpace_of_fold h fun ch hch => by simpa [isTokChar] using (Bool.and_eq_true_iff.mp (hm ch hch)).1
  intro ch hch
  have hl : lower ch ∈ m := h ▸ List.mem_map_of_mem hch
  have hne : ch ≠ .scalar ',' := by
    rintro rfl
    exact absurd (hm _ hl) (by decide)
  simp [isTokChar, hsp ch hch, hne]

theorem regName_tokChars (r : Reg) : ∀ ch ∈ regName r, isTokChar ch = true :=
  List.all_eq_true.mp (show (regName r).all isTokChar = true by cases r <;> rfl)

theorem regName_ne_nil (r : Reg) : regName r ≠ [] := by cases r <;> decide

theorem find_regName (r : Reg) : allRegs.find? (fun x => regName x == regName r) = some r := by cases r <;> rfl

theorem regName_injective {r r' : Reg} (h : regName r = regName r') : r = r' := by
  have := find_regName r
  rw [h, find_regName r'] at this
  exact (Option.some.inj this).symm

theorem isSpace_of_isTokChar {ch : CodePoint} (h : isTokChar ch = true) : isSpace ch = false := by
  simp only [isTokChar, Bool.and_eq_true, Bool.not_eq_true'] at h
  exact h.1

theorem isTokChar_of_isSpace {ch : CodePoint} (h : isSpace ch = true) : isTokChar ch = false := by
  simp [isTokChar, h]

/-! ## Tables -/

/-- What a key looks up after another, or the same, is bound. -/
theorem lookup_bindKey {α β : Type} [DecidableEq α] [BEq α] [LawfulBEq α] (k l : α) (v : β) (table : List (α × β)) :
    (bindKey k v table).lookup l = if l = k then some v else table.lookup l := by
  induction table with
  | nil =>
    by_cases h : l = k
    · simp [bindKey, h]
    · simp [bindKey, List.lookup_cons, h, beq_false_of_ne h]
  | cons e table ih =>
    obtain ⟨k', w⟩ := e
    by_cases hk : k' = k
    · subst hk
      by_cases h : l = k'
      · simp [bindKey, h]
      · simp [bindKey, List.lookup_cons, h, beq_false_of_ne h]
    · by_cases h : l = k'
      · subst h; simp [bindKey, hk]
      · simp [bindKey, List.lookup_cons, hk, beq_false_of_ne h, ih]

theorem mem_keys_bindKey {α β : Type} [DecidableEq α] {k l : α} {v : β} {table : List (α × β)}
    (h : l ∈ (bindKey k v table).map Prod.fst) : l = k ∨ l ∈ table.map Prod.fst := by
  induction table with
  | nil => simpa [bindKey] using h
  | cons e table ih =>
    obtain ⟨k', w⟩ := e
    by_cases hk : k' = k
    · rw [bindKey, if_pos hk] at h
      rcases List.mem_cons.mp h with h | h
      · exact .inl h
      · exact .inr (List.mem_cons_of_mem _ h)
    · rw [bindKey, if_neg hk] at h
      rcases List.mem_cons.mp h with h | h
      · exact .inr (h ▸ List.mem_cons_self)
      · exact (ih h).imp id (List.mem_cons_of_mem _)

/-- Binding a key keeps the keys distinct. -/
theorem nodup_keys_bindKey {α β : Type} [DecidableEq α] (k : α) (v : β) {table : List (α × β)}
    (h : (table.map Prod.fst).Nodup) : ((bindKey k v table).map Prod.fst).Nodup := by
  induction table with
  | nil => simp [bindKey]
  | cons e table ih =>
    obtain ⟨k', w⟩ := e
    have h' := List.nodup_cons.mp h
    by_cases hk : k' = k
    · subst hk; rw [bindKey, if_pos rfl]; exact h
    · rw [bindKey, if_neg hk]
      refine List.nodup_cons.mpr ⟨fun hm => ?_, ih h'.2⟩
      rcases mem_keys_bindKey hm with hm | hm
      · exact hk hm
      · exact h'.1 hm

end Sys2Proof.Machine
end

