-- ==== Sys2Proof/Laws/Grammar.lean ====
section
/-!
SUPPORT. The pattern table of spec 30_encoding R84 read by the decoder's own functions: what a pattern's spelling says of the
line's mnemonic and of the text after it.
-/

namespace Sys2Proof.Machine

theorem lookupReg_iff {t : Text} {r : Reg} : lookupReg npad t = some r ↔ fold t = npad.regName r := by
  constructor
  · intro h; have := List.find?_some h; exact (beq_iff_eq.mp this).symm
  · intro h; unfold lookupReg; rw [h]; exact find_regName r

theorem fold_reg_tok {a : Text} {r : Reg} (h : fold a = npad.regName r) : ∀ ch ∈ a, isTokChar ch = true :=
  isTokChar_of_fold h (regName_tokChars r)

theorem fold_reg_ne_nil {a : Text} {r : Reg} (h : fold a = npad.regName r) : a ≠ [] := by
  rintro rfl; exact regName_ne_nil r h.symm

theorem noSpace_of_all {m : Text} (h : m.all (fun ch => !isSpace ch) = true) : ∀ ch ∈ m, isSpace ch = false := by
  simpa using h

/-- A text that is empty or begins with no `WS` character. -/
def solid (t : Text) : Prop := ∀ ch, t.head? = some ch → isSpace ch = false

theorem skipComma_iff {t rest : Text} :
    skipComma t = some rest ↔
      solid rest ∧ ∃ s₁ s₂ : Text, (∀ ch ∈ s₁, isSpace ch = true) ∧ (∀ ch ∈ s₂, isSpace ch = true) ∧
        t = s₁ ++ .scalar ',' :: (s₂ ++ rest) := by
  constructor
  · intro h
    unfold skipComma at h
    split at h
    · next u hu =>
      cases h
      obtain ⟨s₁, h₁, e₁⟩ := exists_spaces_trimStart t
      obtain ⟨s₂, h₂, e₂⟩ := exists_spaces_trimStart u
      exact ⟨fun ch hc => head_trimStart hc, s₁, s₂, h₁, h₂, by rw [← e₂, ← hu, ← e₁]⟩
    · cases h
  · rintro ⟨hr, s₁, s₂, h₁, h₂, rfl⟩
    have : trimStart (s₁ ++ .scalar ',' :: (s₂ ++ rest)) = .scalar ',' :: (s₂ ++ rest) := by
      rw [trimStart_spaces_append _ h₁]
      exact trimStart_eq_self (by rintro ch h; cases h; decide)
    simp only [skipComma, this, trimStart_spaces_append _ h₂, trimStart_eq_self hr]

theorem regComma_iff {t rest : Text} {r : Reg} :
    regComma npad t = some (r, rest) ↔
      solid rest ∧ ∃ a s₁ s₂ : Text, fold a = npad.regName r ∧ (∀ ch ∈ s₁, isSpace ch = true) ∧
        (∀ ch ∈ s₂, isSpace ch = true) ∧ t = a ++ (s₁ ++ .scalar ',' :: (s₂ ++ rest)) := by
  constructor
  · intro h
    unfold regComma at h
    split at h
    · next r' rest' h₁ h₂ =>
      cases h
      obtain ⟨hs, s₁, s₂, hs₁, hs₂, e⟩ := skipComma_iff.mp h₂
      exact ⟨hs, _, s₁, s₂, lookupReg_iff.mp h₁, hs₁, hs₂, by rw [← e, List.takeWhile_append_dropWhile]⟩
    · cases h
  · rintro ⟨hs, a, s₁, s₂, ha, hs₁, hs₂, rfl⟩
    have hb : ∀ ch, (s₁ ++ .scalar ',' :: (s₂ ++ rest)).head? = some ch → isTokChar ch = false := by
      intro ch hc
      cases s₁ with
      | nil => cases hc; decide
      | cons x s => cases hc; exact isTokChar_of_isSpace (hs₁ _ (by simp))
    have h₁ := takeWhile_append_stop (fold_reg_tok ha) hb
    have h₂ := dropWhile_append_stop (fold_reg_tok ha) hb
    have h₃ := skipComma_iff.mpr ⟨hs, s₁, s₂, hs₁, hs₂, rfl⟩
    simp only [regComma, h₁, h₂, h₃, lookupReg_iff.mpr ha]

theorem tokEnd_iff {t u : Text} : tokEnd t = some u ↔ t = u ∧ u ≠ [] ∧ ∀ ch ∈ u, isTokChar ch = true := by
  simp only [tokEnd, Bool.and_eq_true, bne_iff_ne, List.all_eq_true, Option.ite_none_right_eq_some, Option.some.injEq]
  constructor
  · rintro ⟨⟨h1, h2⟩, rfl⟩; exact ⟨rfl, h1, h2⟩
  · rintro ⟨rfl, h1, h2⟩; exact ⟨⟨h1, h2⟩, rfl⟩

/-- The parts spell only texts that are not empty and begin with no `WS` character. -/
def SolidPieces (ps : List Piece) : Prop := ∀ t, spells npad ps t → t ≠ [] ∧ solid t

theorem solid_of_tokChars {t : Text} (h : ∀ ch ∈ t, isTokChar ch = true) (u : Text) (hne : t ≠ []) : solid (t ++ u) := by
  intro ch hc
  cases t with
  | nil => exact absurd rfl hne
  | cons x t => cases hc; exact isSpace_of_isTokChar (h _ (by simp))

theorem solidPieces_reg (r : Reg) (ps : List Piece) : SolidPieces (.reg r :: ps) := by
  rintro t ⟨a, b, rfl, ha, -⟩
  have hne := fold_reg_ne_nil ha
  exact ⟨by simp [hne], solid_of_tokChars (fold_reg_tok ha) b hne⟩

theorem solidPieces_tok (u : Text) (ps : List Piece) : SolidPieces (.tok u :: ps) := by
  rintro t ⟨a, b, rfl, ⟨rfl, hne, ha⟩, -⟩
  exact ⟨by simp [hne], solid_of_tokChars ha b hne⟩

/-- `(REG)\s*,\s*` before parts that begin with no `WS`. -/
theorem spells_reg_sep {r : Reg} {ps : List Piece} (hp : SolidPieces ps) {t : Text} :
    spells npad (.reg r :: (sep ++ ps)) t ↔ ∃ rest, regComma npad t = some (r, rest) ∧ spells npad ps rest := by
  constructor
  · rintro ⟨a, b, rfl, ha, s₁, c, rfl, ⟨-, hs₁⟩, k, d, rfl, rfl, s₂, e, rfl, ⟨-, hs₂⟩, he⟩
    exact ⟨e, regComma_iff.mpr ⟨(hp e he).2, a, s₁, s₂, ha, hs₁, hs₂, by simp⟩, he⟩
  · rintro ⟨rest, h, hr⟩
    obtain ⟨-, a, s₁, s₂, ha, hs₁, hs₂, rfl⟩ := regComma_iff.mp h
    exact ⟨a, _, rfl, ha, s₁, _, rfl, ⟨Nat.zero_le _, hs₁⟩, chars [','], _, rfl, rfl, s₂, _, rfl, ⟨Nat.zero_le _, hs₂⟩, hr⟩

theorem spells_tok {u t : Text} : spells npad [.tok u] t ↔ tokEnd t = some u := by
  rw [tokEnd_iff]
  constructor
  · rintro ⟨a, b, rfl, ⟨rfl, h⟩, rfl⟩; simpa using h
  · rintro ⟨rfl, h⟩; exact ⟨t, [], by simp, ⟨rfl, h⟩, rfl⟩

theorem spells_reg {r : Reg} {t : Text} : spells npad [.reg r] t ↔ lookupReg npad t = some r := by
  rw [lookupReg_iff]
  constructor
  · rintro ⟨a, b, rfl, h, rfl⟩; rw [List.append_nil]; exact h
  · intro h; exact ⟨t, [], by simp, h, rfl⟩

/-- The text after a line's mnemonic and its `WS`. -/
def bodyOf (line : Text) : Text := trimStart (line.dropWhile (!isSpace ·))

theorem spells_word {m : Text} (hm : ∀ ch ∈ m, isSpace ch = false) {ps : List Piece} (hp : SolidPieces ps) {line : Text} :
    spells npad (.word m :: .spaces 1 :: ps) line ↔ mnemonicOf line = m ∧ spells npad ps (bodyOf line) := by
  constructor
  · rintro ⟨a, b, rfl, ha, s, c, rfl, ⟨hl, hs⟩, hc⟩
    have hna : ∀ ch ∈ a, (!isSpace ch) = true := fun ch h => by simp [not_isSpace_of_fold ha hm ch h]
    have hb : ∀ ch, (s ++ c).head? = some ch → (!isSpace ch) = false := by
      intro ch hc
      cases s with
      | nil => simp at hl
      | cons x s => cases hc; simp [hs ch (by simp)]
    refine ⟨?_, ?_⟩
    · unfold mnemonicOf; rw [takeWhile_append_stop hna hb]; exact ha
    · unfold bodyOf; rw [dropWhile_append_stop hna hb, trimStart_spaces_append _ hs, trimStart_eq_self (hp c hc).2]
      exact hc
  · rintro ⟨hmn, hb⟩
    obtain ⟨s, hs, e⟩ := exists_spaces_trimStart (line.dropWhile (!isSpace ·))
    have hne := (hp _ hb).1
    refine ⟨line.takeWhile (!isSpace ·), line.dropWhile (!isSpace ·), by rw [List.takeWhile_append_dropWhile], hmn, s, _, e, ⟨?_, hs⟩, hb⟩
    cases s with
    | cons x s => simp
    | nil =>
      exfalso
      cases hx : bodyOf line with
      | nil => exact hne hx
      | cons x xs =>
        have h1 : isSpace x = false := (hp _ hb).2 x (by rw [hx]; rfl)
        have h2 : (line.dropWhile (!isSpace ·)).head? = some x := by rw [e]; simp [show trimStart _ = x :: xs from hx]
        have := head_dropWhile h2
        simp [h1] at this

theorem decode_eq (p : Program) (line : Text) :
    decode npad p line = match matchPattern npad p (mnemonicOf (trim line)) (bodyOf (trim line)) with
      | some result => result
      | none => .error (.unsupportedInstruction line) := rfl

theorem patternRI_iff {m l t : Text} {r : Reg} (hm : ∀ ch ∈ m, isSpace ch = false) :
    spells npad (patternRI m r t) l ↔
      mnemonicOf l = m ∧ ∃ u, regComma npad (bodyOf l) = some (r, u) ∧ tokEnd u = some t := by
  refine (spells_word (ps := .reg r :: (sep ++ [.tok t])) hm (solidPieces_reg _ _)).trans ?_
  simp only [spells_reg_sep (solidPieces_tok _ _), spells_tok]

theorem patternRR_iff {m l : Text} {r r' : Reg} (hm : ∀ ch ∈ m, isSpace ch = false) :
    spells npad (patternRR m r r') l ↔
      mnemonicOf l = m ∧ ∃ u, regComma npad (bodyOf l) = some (r, u) ∧ lookupReg npad u = some r' := by
  refine (spells_word (ps := .reg r :: (sep ++ [.reg r'])) hm (solidPieces_reg _ _)).trans ?_
  simp only [spells_reg_sep (solidPieces_reg _ _), spells_reg]

theorem patternRRI_iff {m l t : Text} {r r' : Reg} (hm : ∀ ch ∈ m, isSpace ch = false) :
    spells npad (patternRRI m r r' t) l ↔
      mnemonicOf l = m ∧ ∃ u, regComma npad (bodyOf l) = some (r, u) ∧
        ∃ v, regComma npad u = some (r', v) ∧ tokEnd v = some t := by
  refine (spells_word (ps := .reg r :: (sep ++ (.reg r' :: (sep ++ [.tok t])))) hm (solidPieces_reg _ _)).trans ?_
  simp only [spells_reg_sep (solidPieces_reg _ _), spells_reg_sep (solidPieces_tok _ _), spells_tok]

theorem patternRRR_iff {m l : Text} {r r' r'' : Reg} (hm : ∀ ch ∈ m, isSpace ch = false) :
    spells npad (patternRRR m r r' r'') l ↔
      mnemonicOf l = m ∧ ∃ u, regComma npad (bodyOf l) = some (r, u) ∧
        ∃ v, regComma npad u = some (r', v) ∧ lookupReg npad v = some r'' := by
  refine (spells_word (ps := .reg r :: (sep ++ (.reg r' :: (sep ++ [.reg r''])))) hm (solidPieces_reg _ _)).trans ?_
  simp only [spells_reg_sep (solidPieces_reg _ _), spells_reg]

theorem patternL_iff {m l t : Text} (hm : ∀ ch ∈ m, isSpace ch = false) :
    spells npad (patternL m t) l ↔ mnemonicOf l = m ∧ tokEnd (bodyOf l) = some t := by
  refine (spells_word (ps := [.tok t]) hm (solidPieces_tok _ _)).trans ?_
  simp only [spells_tok]

theorem patternRM_imp {m l t : Text} {r : Reg} (hm : ∀ ch ∈ m, isSpace ch = false) (hl : trim l = l)
    (h : spells npad (patternRM m r t) l) :
    mnemonicOf l = m ∧ regComma npad (bodyOf l) = some (r, trim t) ∧ trim t ≠ [] := by
  obtain ⟨hmn, hb⟩ := (spells_word (ps := .reg r :: (sep ++ [Piece.rest t])) hm (solidPieces_reg _ _)).mp h
  refine ⟨hmn, ?_⟩
  obtain ⟨a, b, hb, ha, s₁, c, rfl, ⟨-, hs₁⟩, k, d, rfl, rfl, s₂, e, rfl, ⟨-, hs₂⟩, f, g, rfl, ⟨rfl, hne⟩, rfl⟩ := hb
  rw [List.append_nil] at hb
  obtain ⟨s₀, -, e₀⟩ := exists_spaces_trimStart (l.dropWhile (!isSpace ·))
  have hlast : f.getLast? = l.getLast? := by
    have : l = (l.takeWhile (!isSpace ·) ++ (s₀ ++ (a ++ (s₁ ++ (chars [','] ++ s₂))))) ++ f := by
      conv => lhs; rw [← List.takeWhile_append_dropWhile (p := (!isSpace ·)) (l := l), e₀]
      rw [show trimStart (l.dropWhile (!isSpace ·)) = _ from hb]; simp
    rw [this, List.getLast?_append, List.getLast?_eq_some_getLast hne]; rfl
  have hend : ∀ ch, f.getLast? = some ch → isSpace ch = false := fun ch hc =>
    getLast_trim (t := l) (by rw [hl, ← hlast]; exact hc)
  obtain ⟨s₃, hs₃, e₃⟩ := exists_spaces_trimStart f
  have hne' : trimStart f ≠ [] := by
    intro h0
    rw [h0, List.append_nil] at e₃
    have := hend _ (List.getLast?_eq_some_getLast hne)
    rw [hs₃ _ (e₃ ▸ List.getLast_mem hne)] at this
    cases this
  have htrim : trim f = trimStart f := by
    refine trimEnd_eq_self fun ch hc => hend ch ?_
    rw [e₃, List.getLast?_append, hc]; rfl
  rw [htrim]
  refine ⟨regComma_iff.mpr ⟨fun ch hc => head_trimStart hc, a, s₁, s₂ ++ s₃, ha, hs₁, ?_, ?_⟩, hne'⟩
  · intro ch hc
    rcases List.mem_append.mp hc with hc | hc
    · exact hs₂ ch hc
    · exact hs₃ ch hc
  · rw [hb, List.append_assoc, ← e₃]; rfl

theorem patternRM_of {m l u : Text} {r : Reg} (hm : ∀ ch ∈ m, isSpace ch = false) (hmn : mnemonicOf l = m)
    (h : regComma npad (bodyOf l) = some (r, u)) (hu : u ≠ []) : spells npad (patternRM m r u) l := by
  refine (spells_word (ps := .reg r :: (sep ++ [Piece.rest u])) hm (solidPieces_reg _ _)).mpr ⟨hmn, ?_⟩
  obtain ⟨-, a, s₁, s₂, ha, hs₁, hs₂, e⟩ := regComma_iff.mp h
  rw [e]
  exact ⟨a, _, rfl, ha, s₁, _, rfl, ⟨Nat.zero_le _, hs₁⟩, chars [','], _, rfl, rfl, s₂, _, rfl, ⟨Nat.zero_le _, hs₂⟩,
    u, [], by simp, ⟨rfl, hu⟩, rfl⟩

theorem bodyOf_eq_nil {l : Text} (hl : trim l = l) : bodyOf l = [] ↔ l.takeWhile (!isSpace ·) = l := by
  constructor
  · intro h
    obtain ⟨s, hs, e⟩ := exists_spaces_trimStart (l.dropWhile (!isSpace ·))
    rw [show trimStart (l.dropWhile (!isSpace ·)) = [] from h, List.append_nil] at e
    cases hd : l.dropWhile (!isSpace ·) with
    | nil => conv => rhs; rw [← List.takeWhile_append_dropWhile (p := (!isSpace ·)) (l := l), hd]
             simp
    | cons x xs =>
      exfalso
      have hne : l.dropWhile (!isSpace ·) ≠ [] := by simp [hd]
      have h1 : isSpace ((l.dropWhile (!isSpace ·)).getLast hne) = true := hs _ (by rw [← e]; exact List.getLast_mem hne)
      have h2 : l.getLast? = some ((l.dropWhile (!isSpace ·)).getLast hne) := by
        conv => lhs; rw [← List.takeWhile_append_dropWhile (p := (!isSpace ·)) (l := l)]
        rw [List.getLast?_append, List.getLast?_eq_some_getLast hne]; rfl
      have := getLast_trim (t := l) (by rw [hl]; exact h2)
      simp [h1] at this
  · intro h
    have : l.dropWhile (!isSpace ·) = [] := by
      have h2 := List.takeWhile_append_dropWhile (p := (!isSpace ·)) (l := l)
      rw [h] at h2; simpa using h2
    simp [bodyOf, this, trimStart]

theorem patternN_iff {m l : Text} (hm : ∀ ch ∈ m, isSpace ch = false) (hl : trim l = l) :
    spells npad (patternN m) l ↔ mnemonicOf l = m ∧ bodyOf l = [] := by
  constructor
  · rintro ⟨a, b, rfl, ha, rfl⟩
    rw [List.append_nil] at *
    have hna : ∀ ch ∈ a, (!isSpace ch) = true := fun ch h => by simp [not_isSpace_of_fold ha hm ch h]
    have h1 : a.takeWhile (!isSpace ·) = a := List.takeWhile_eq_self_iff.mpr hna
    exact ⟨by unfold mnemonicOf; rw [h1]; exact ha, (bodyOf_eq_nil hl).mpr h1⟩
  · rintro ⟨h, hb⟩
    have h1 := (bodyOf_eq_nil hl).mp hb
    refine ⟨l, [], by simp, ?_, rfl⟩
    show fold l = m
    rw [← h]; unfold mnemonicOf; rw [h1]

/-- A line that matches a row has one of the twelve mnemonics. -/
theorem mnemonicOf_of_matchesSomeRow {l : Text} (hl : trim l = l) (h : matchesSomeRow l) :
    ∃ i : Instr, mnemonicOf l = i.mnemonic := by
  rcases h with ⟨r, t, h⟩ | ⟨r, t, h⟩ | ⟨r, r', h⟩ | ⟨r, r', t, h⟩ | ⟨r, r', r'', h⟩ | ⟨r, r', r'', h⟩ | ⟨r, t, h⟩ |
    ⟨r, t, h⟩ | ⟨r, r', t, h⟩ | ⟨r, r', t, h⟩ | ⟨t, h⟩ | h
  · exact ⟨.li .zero 0, ((patternRI_iff (noSpace_of_all rfl)).mp h).1⟩
  · exact ⟨.la .zero 0, ((patternRI_iff (noSpace_of_all rfl)).mp h).1⟩
  · exact ⟨.move .zero .zero, ((patternRR_iff (noSpace_of_all rfl)).mp h).1⟩
  · exact ⟨.addi .zero .zero 0, ((patternRRI_iff (noSpace_of_all rfl)).mp h).1⟩
  · exact ⟨.add .zero .zero .zero, ((patternRRR_iff (noSpace_of_all rfl)).mp h).1⟩
  · exact ⟨.sub .zero .zero .zero, ((patternRRR_iff (noSpace_of_all rfl)).mp h).1⟩
  · exact ⟨.lw .zero (.abs 0), (patternRM_imp (noSpace_of_all rfl) hl h).1⟩
  · exact ⟨.sw .zero (.abs 0), (patternRM_imp (noSpace_of_all rfl) hl h).1⟩
  · exact ⟨.beq .zero .zero 0, ((patternRRI_iff (noSpace_of_all rfl)).mp h).1⟩
  · exact ⟨.bne .zero .zero 0, ((patternRRI_iff (noSpace_of_all rfl)).mp h).1⟩
  · exact ⟨.j 0, ((patternL_iff (noSpace_of_all rfl)).mp h).1⟩
  · exact ⟨.syscall, ((patternN_iff (noSpace_of_all rfl) hl).mp h).1⟩

/-- No row of a format that begins with a register operand matches where no register and comma stand after the mnemonic. -/
theorem not_spells_of_regComma {l : Text} (hl : trim l = l) (h : regComma npad (bodyOf l) = none) {m : Text}
    (hm : ∀ ch ∈ m, isSpace ch = false) :
    (∀ r t, ¬ spells npad (patternRI m r t) l) ∧ (∀ r r', ¬ spells npad (patternRR m r r') l) ∧
    (∀ r r' t, ¬ spells npad (patternRRI m r r' t) l) ∧ (∀ r r' r'', ¬ spells npad (patternRRR m r r' r'') l) ∧
    (∀ r t, ¬ spells npad (patternRM m r t) l) := by
  refine ⟨fun r t hs => ?_, fun r r' hs => ?_, fun r r' t hs => ?_, fun r r' r'' hs => ?_, fun r t hs => ?_⟩
  · obtain ⟨-, u, hu, -⟩ := (patternRI_iff hm).mp hs; rw [h] at hu; cases hu
  · obtain ⟨-, u, hu, -⟩ := (patternRR_iff hm).mp hs; rw [h] at hu; cases hu
  · obtain ⟨-, u, hu, -⟩ := (patternRRI_iff hm).mp hs; rw [h] at hu; cases hu
  · obtain ⟨-, u, hu, -⟩ := (patternRRR_iff hm).mp hs; rw [h] at hu; cases hu
  · have := (patternRM_imp hm hl hs).2.1; rw [h] at this; cases this

end Sys2Proof.Machine
end

