-- ==== Sys2Proof/Laws/Loader.lean ====
section
/-!
SUPPORT. One source line: its labels are peeled and bound, its comment and `WS` are dropped (spec 30_encoding R69 to R71), and
what is left is loaded.
-/

namespace Sys2Proof.Machine

/-! ## Trimming a text with `WS` around it -/

theorem trimEnd_append_spaces (t : Text) {s : Text} (hs : ∀ ch ∈ s, isSpace ch = true) : trimEnd (t ++ s) = trimEnd t := by
  have := trimStart_spaces_append t.reverse (s := s.reverse) (by simpa using hs)
  simpa [trimEnd, trimStart] using congrArg List.reverse this

theorem trim_spaces_around {s₁ s₂ : Text} (t : Text) (h₁ : ∀ ch ∈ s₁, isSpace ch = true)
    (h₂ : ∀ ch ∈ s₂, isSpace ch = true) : trim (s₁ ++ t ++ s₂) = trim t := by
  obtain ⟨s, hs, h⟩ := exists_spaces_trimStart t
  unfold trim
  rw [List.append_assoc, trimStart_spaces_append _ h₁]
  by_cases ht : trimStart t = []
  · rw [ht, List.append_nil] at h
    subst h
    rw [trimStart_spaces_append _ hs, ht]
    have : trimStart s₂ = [] := by simpa [trimStart] using h₂
    rw [this]
  · have : trimStart (t ++ s₂) = trimStart t ++ s₂ := by
      conv => lhs; rw [h]
      rw [List.append_assoc, trimStart_spaces_append _ hs]
      refine trimStart_eq_self fun ch hc => head_trimStart (t := t) ?_
      cases hx : trimStart t with
      | nil => exact absurd hx ht
      | cons x xs => rw [hx] at hc; exact hc
    rw [this, trimEnd_append_spaces _ h₂]

/-- Trimming an end first changes nothing. -/
theorem trim_trimEnd (t : Text) : trim (trimEnd t) = trim t := by
  obtain ⟨s, hs, h⟩ := exists_trimEnd_spaces t
  have := trim_spaces_around (s₁ := []) (trimEnd t) (by simp) hs
  rw [List.nil_append, ← h] at this
  exact this.symm

/-! ## Labels -/

theorem isIdent_chars {name : Text} (h : isIdent name = true) : ∀ ch ∈ name, isIdentChar ch = true := by
  cases name with
  | nil => cases h
  | cons x t =>
    simp only [isIdent, Bool.and_eq_true, List.all_eq_true] at h
    intro ch hc
    rcases List.mem_cons.mp hc with rfl | hc
    · simp [isIdentChar, h.1]
    · exact h.2 ch hc

theorem isSpace_of_isIdentChar {ch : CodePoint} (h : isIdentChar ch = true) : isSpace ch = false := by
  cases hs : isSpace ch with
  | false => rfl
  | true =>
    have hn := number_lt_of_isSpace hs
    exfalso
    have hne : ∀ c : Char, 33 ≤ c.toNat → ch ≠ .scalar c := by
      rintro c hc rfl; simp only [CodePoint.number] at hn; omega
    simp [isIdentChar, isIdentHead, inRange, hne '_' (by decide), hne '.' (by decide)] at h
    omega

/-- A line that begins with a label gives the label and the trimmed remainder. -/
theorem peelLabel_label {name : Text} (rest : Text) (h : isIdent name = true) :
    peelLabel (name ++ .scalar ':' :: rest) = some (name, trim rest) := by
  have hstop : ∀ ch, (CodePoint.scalar ':' :: rest).head? = some ch → isIdentChar ch = false := by
    rintro ch hc; cases hc; decide
  simp only [peelLabel, takeWhile_append_stop (isIdent_chars h) hstop, dropWhile_append_stop (isIdent_chars h) hstop, h,
    if_true]

/-- `peelLabel` finds nothing exactly where no label stands. -/
theorem peelLabel_eq_none {t : Text} :
    peelLabel t = none ↔ ∀ name rest, isIdent name = true → t ≠ name ++ .scalar ':' :: rest := by
  constructor
  · rintro h name rest hn rfl
    rw [peelLabel_label rest hn] at h; cases h
  · intro h
    simp only [peelLabel]
    split
    · next hi =>
      split
      · next rest hd =>
        exact absurd (by rw [← hd, List.takeWhile_append_dropWhile]) (h _ rest hi)
      · rfl
    · rfl

/-- The labels at the head of a line, and what stands after them. -/
theorem peelLabels_labelled {body : Text} (hb : trim body = body)
    (hp : ∀ name rest, isIdent name = true → body ≠ name ++ .scalar ':' :: rest) (labels : List (Text × Text)) :
    (∀ e ∈ labels, isIdent e.1 = true ∧ ∀ ch ∈ e.2, isSpace ch = true) →
    ∀ (s₁ s₂ : Text) (fuel : Nat), (∀ ch ∈ s₁, isSpace ch = true) → (∀ ch ∈ s₂, isSpace ch = true) →
      (trim (s₁ ++ labelled labels body ++ s₂)).length ≤ fuel →
      peelLabels fuel (trim (s₁ ++ labelled labels body ++ s₂)) = (labels.map Prod.fst, body) := by
  induction labels with
  | nil =>
    intro _ s₁ s₂ fuel h₁ h₂ _
    rw [trim_spaces_around _ h₁ h₂, labelled, hb]
    cases fuel with
    | zero => rfl
    | succ n => simp [peelLabels, peelLabel_eq_none.mpr hp]
  | cons e labels ih =>
    obtain ⟨name, blanks⟩ := e
    intro hl s₁ s₂ fuel h₁ h₂
    obtain ⟨hn, hbl⟩ := hl (name, blanks) (by simp)
    have hhead : ∀ u ch, (name ++ CodePoint.scalar ':' :: u).head? = some ch → isSpace ch = false := by
      intro u ch hc
      cases hx : name with
      | nil => rw [hx] at hn; cases hn
      | cons x xs =>
        rw [hx] at hc; cases hc
        exact isSpace_of_isIdentChar (isIdent_chars hn _ (by simp [hx]))
    -- the trimmed line is the label and the rest with its end trimmed
    have key : trim (s₁ ++ labelled ((name, blanks) :: labels) body ++ s₂) =
        name ++ CodePoint.scalar ':' :: trimEnd (blanks ++ labelled labels body) := by
      rw [trim_spaces_around _ h₁ h₂, labelled, trim, trimStart_eq_self (hhead _)]
      obtain ⟨s, hs, h⟩ := exists_trimEnd_spaces (blanks ++ labelled labels body)
      conv => lhs; rw [h]
      rw [show name ++ CodePoint.scalar ':' :: (trimEnd (blanks ++ labelled labels body) ++ s) =
        (name ++ .scalar ':' :: trimEnd (blanks ++ labelled labels body)) ++ s by simp, trimEnd_append_spaces _ hs]
      refine trimEnd_eq_self fun ch hc => ?_
      rw [List.getLast?_append] at hc
      cases hx : trimEnd (blanks ++ labelled labels body) with
      | nil => rw [hx] at hc; cases hc; decide
      | cons x xs =>
        rw [hx] at hc
        refine getLast_trimEnd (t := blanks ++ labelled labels body) ?_
        rw [hx]
        simpa [List.getLast?_cons_cons] using hc
    rw [key]
    intro hf
    cases fuel with
    | zero => simp at hf
    | succ n =>
      have hrest : trim (trimEnd (blanks ++ labelled labels body)) = trim (blanks ++ labelled labels body ++ []) := by
        rw [List.append_nil, trim_trimEnd]
      have hlen : (trim (blanks ++ labelled labels body ++ [])).length ≤ n := by
        rw [← hrest]
        have h1 : ∀ t : Text, (trim t).length ≤ t.length := by
          intro t
          have ha : (trimStart t).length ≤ t.length := (List.dropWhile_sublist _).length_le
          have hb : (trimEnd (trimStart t)).length ≤ (trimStart t).length := by
            have := (List.dropWhile_sublist isSpace (l := (trimStart t).reverse)).length_le
            simpa [trimEnd] using this
          exact Nat.le_trans hb ha
        have := h1 (trimEnd (blanks ++ labelled labels body))
        simp only [List.length_append, List.length_cons] at hf
        omega
      have := ih (fun e he => hl e (by simp [he])) blanks [] n hbl (by simp) hlen
      simp only [peelLabels, peelLabel_label _ hn, hrest, this, List.map_cons]

theorem hash_not_mem_labelled {labels : List (Text × Text)} {body : Text} (hb : .scalar '#' ∉ body)
    (hl : ∀ e ∈ labels, isIdent e.1 = true ∧ ∀ ch ∈ e.2, isSpace ch = true) : .scalar '#' ∉ labelled labels body := by
  induction labels with
  | nil => exact hb
  | cons e labels ih =>
    obtain ⟨name, blanks⟩ := e
    obtain ⟨hn, hs⟩ := hl (name, blanks) (by simp)
    intro h
    rcases List.mem_append.mp h with h | h
    · exact absurd (isIdent_chars hn _ h) (by decide)
    · rcases List.mem_cons.mp h with h | h
      · cases h
      · rcases List.mem_append.mp h with h | h
        · exact absurd (hs _ h) (by decide)
        · exact ih (fun e he => hl e (by simp [he])) h

/-- Everything a source line does: its labels are bound, then its body is loaded where it is not empty. -/
theorem loadLine_sourceLine (c : Config) {names : List Text} {body line : Text} (st : LoadState)
    (h : sourceLine names body line) :
    loadLine c line st =
      match bindLabels c names st with
      | .error e => .error e
      | .ok st' => if body = [] then .ok st' else loadBody c body st' := by
  obtain ⟨before, after, comment, labels, rfl, rfl, hs, hc, hl, hb, ht, hp⟩ := h
  have h₁ : ∀ ch ∈ before, isSpace ch = true := fun ch h => hs ch (List.mem_append_left _ h)
  have h₂ : ∀ ch ∈ after, isSpace ch = true := fun ch h => hs ch (List.mem_append_right _ h)
  have hstrip : stripComment (before ++ labelled labels body ++ after ++ comment) =
      before ++ labelled labels body ++ after := by
    refine takeWhile_append_stop (fun ch h => bne_iff_ne.mpr ?_) (fun ch h => ?_)
    · rintro rfl
      rcases List.mem_append.mp h with h | h
      · rcases List.mem_append.mp h with h | h
        · exact absurd (h₁ _ h) (by decide)
        · exact hash_not_mem_labelled hb hl h
      · exact absurd (h₂ _ h) (by decide)
    · rcases hc with rfl | hc
      · cases h
      · rw [h] at hc; cases hc; rfl
  cases h : bindLabels c (labels.map Prod.fst) st <;>
    simp only [loadLine, hstrip, peelLabels_labelled ht hp labels hl before after _ h₁ h₂ (Nat.le_refl _), h]

/-! ## Binding labels -/

theorem definable.head {β : Type} {c : Config} {table : List (Text × β)} {name : Text} {names : List Text}
    (h : definable c table (name :: names)) : duplicateRefused c table name = false := by
  rcases h with h | ⟨-, h⟩
  · simp [duplicateRefused, h]
  · simp [duplicateRefused, h name (by simp)]

theorem definable.tail {β : Type} {c : Config} {table : List (Text × β)} {name : Text} {names : List Text} (v : β)
    (h : definable c table (name :: names)) : definable c (bindKey name v table) names := by
  rcases h with h | ⟨hn, h⟩
  · exact .inl h
  · have hn := List.nodup_cons.mp hn
    refine .inr ⟨hn.2, fun l hl => ?_⟩
    rw [lookup_bindKey, if_neg (by rintro rfl; exact hn.1 hl)]
    exact h l (by simp [hl])

theorem LabelsBound.nil {β : Type} (v : β) (table : List (Text × β)) : LabelsBound [] v table table :=
  ⟨by simp, fun _ _ => rfl, fun _ => rfl⟩

theorem LabelsBound.cons {β : Type} {name : Text} {names : List Text} {v : β} {old new : List (Text × β)}
    (h : LabelsBound names v (bindKey name v old) new) : LabelsBound (name :: names) v old new where
  bound l hl := by
    by_cases hm : l ∈ names
    · exact h.bound l hm
    · rcases List.mem_cons.mp hl with rfl | hl
      · rw [h.others _ hm, lookup_bindKey, if_pos rfl]
      · exact absurd hl hm
  others l hl := by
    obtain ⟨h1, h2⟩ := not_or.mp (fun h => hl (List.mem_cons.mpr h))
    rw [h.others l h2, lookup_bindKey, if_neg h1]
  none := nofun

/-- What binding labels does in `.text` (R71). -/
theorem bindLabels_text (c : Config) (names : List Text) (st : LoadState) (hs : st.seg = .text)
    (hd : definable c st.textLabels names) :
    ∃ table, bindLabels c names st = .ok { st with textLabels := table } ∧
      LabelsBound names st.instrs.length st.textLabels table := by
  induction names generalizing st with
  | nil => exact ⟨_, rfl, .nil _ _⟩
  | cons name names ih =>
    obtain ⟨table, h, hb⟩ := ih { st with textLabels := bindKey name st.instrs.length st.textLabels } hs (hd.tail _)
    have h1 : bindLabel c name st = .ok { st with textLabels := bindKey name st.instrs.length st.textLabels } := by
      simp only [bindLabel, hs, hd.head, Bool.false_eq_true, if_false]
    exact ⟨table, by simp only [bindLabels, h1, h], hb.cons⟩

/-- What binding labels does in `.data` (R71). -/
theorem bindLabels_data (c : Config) (names : List Text) (st : LoadState) (hs : st.seg = .data)
    (hd : definable c st.dataLabels names) :
    ∃ table, bindLabels c names st = .ok { st with dataLabels := table } ∧
      LabelsBound names st.cursor st.dataLabels table := by
  induction names generalizing st with
  | nil => exact ⟨_, rfl, .nil _ _⟩
  | cons name names ih =>
    obtain ⟨table, h, hb⟩ := ih { st with dataLabels := bindKey name st.cursor st.dataLabels } hs (hd.tail _)
    have h1 : bindLabel c name st = .ok { st with dataLabels := bindKey name st.cursor st.dataLabels } := by
      simp only [bindLabel, hs, hd.head, Bool.false_eq_true, if_false]
    exact ⟨table, by simp only [bindLabels, h1, h], hb.cons⟩

/-! ## The payload of an `.asciiz` line -/

theorem asciizPayload_quoted (payload : Text) :
    asciizPayload (.scalar '"' :: (payload ++ [.scalar '"'])) = some payload := by
  simp [asciizPayload]

/-- A text has a payload exactly where it stands between two quotes. -/
theorem asciizPayload_iff {t payload : Text} :
    asciizPayload t = some payload ↔ t = .scalar '"' :: (payload ++ [.scalar '"']) := by
  constructor
  · intro h
    unfold asciizPayload at h
    split at h
    · split at h
      · next hr =>
        cases h
        have := congrArg List.reverse hr
        rw [List.reverse_reverse, List.reverse_cons] at this
        rw [this]
      · cases h
    · cases h
  · rintro rfl; exact asciizPayload_quoted payload

/-- The text after the directive of an `.asciiz` line and its `WS` has the line's payload. -/
theorem asciizBody_payload {blanks : Text} (hne : blanks ≠ []) (hs : ∀ ch ∈ blanks, isSpace ch = true) (payload : Text) :
    let body := text ".asciiz" ++ blanks ++ .scalar '"' :: (payload ++ [.scalar '"'])
    body.takeWhile (!isSpace ·) = text ".asciiz" ∧
      asciizPayload (trimStart (body.dropWhile (!isSpace ·))) = some payload := by
  obtain ⟨x, xs, rfl⟩ := List.exists_cons_of_ne_nil hne
  have h₁ : ∀ ch ∈ text ".asciiz", (!isSpace ch) = true := by decide
  have h₂ : ∀ ch, (x :: xs ++ CodePoint.scalar '"' :: (payload ++ [CodePoint.scalar '"'])).head? = some ch → (!isSpace ch) = false := by
    rintro ch h; cases h; simp [hs]
  simp only [List.append_assoc, takeWhile_append_stop h₁ h₂, dropWhile_append_stop h₁ h₂, true_and]
  rw [trimStart_spaces_append _ hs, trimStart_eq_self (by rintro ch h; cases h; decide), asciizPayload_quoted]

end Sys2Proof.Machine
end

