-- ==== Sys2Proof/Laws/Numbers.lean ====
section
/-!
SUPPORT. Number literals and their decimal spelling (spec 00_scope R14, 30_encoding R83).
-/

namespace Sys2Proof.Machine

theorem decDigit_digitChar {d : Nat} (h : d < 10) : decDigit (.scalar (Nat.digitChar d)) = some d := by
  revert d; decide

theorem hexDigit_digitChar {d : Nat} (h : d < 16) : hexDigit (.scalar (Nat.digitChar d)) = some d := by
  revert d; decide

theorem inRange_iff {ch : CodePoint} {lo hi : Char} :
    inRange ch lo hi = true ↔ lo.toNat ≤ ch.number ∧ ch.number ≤ hi.toNat := by
  simp [inRange]

/-- The characters of R83's decimal digits. -/
theorem decDigit_isSome {ch : CodePoint} : (decDigit ch).isSome = true ↔ 48 ≤ ch.number ∧ ch.number ≤ 57 := by
  rw [← show inRange ch '0' '9' = true ↔ 48 ≤ ch.number ∧ ch.number ≤ 57 from inRange_iff, decDigit]
  split <;> simp [*]

theorem number_of_hexDigit {ch : CodePoint} (h : (hexDigit ch).isSome = true) : 48 ≤ ch.number := by
  unfold hexDigit at h
  split at h
  · next hr => exact (inRange_iff.mp hr).1
  · split at h
    · next hr => exact Nat.le_trans (by decide : 48 ≤ 'a'.toNat) (inRange_iff.mp hr).1
    · split at h
      · next hr => exact Nat.le_trans (by decide : 48 ≤ 'A'.toNat) (inRange_iff.mp hr).1
      · cases h

theorem readDigits_append (base : Nat) (digit : CodePoint → Option Nat) (acc : Nat) (t u : Text) :
    readDigits digit base acc (t ++ u) = (readDigits digit base acc t).bind fun n => readDigits digit base n u := by
  induction t generalizing acc with
  | nil => rfl
  | cons c t ih => simp only [List.cons_append, readDigits]; cases digit c <;> simp [ih]

/-- Digits that are read one by one as they are written read back as the number. -/
theorem readDigits_toDigits {digit : CodePoint → Option Nat} {base : Nat} (hb : 1 < base)
    (hd : ∀ d, d < base → digit (.scalar (Nat.digitChar d)) = some d) (n : Nat) :
    readDigits digit base 0 (chars (Nat.toDigits base n)) = some n := by
  induction n using Nat.strongRecOn with
  | _ n ih =>
    by_cases h : n < base
    · rw [Nat.toDigits_of_lt_base h]; simp [readDigits, hd n h]
    · have hlt : n / base < n := Nat.div_lt_self (by omega) hb
      rw [Nat.toDigits_of_base_le hb (by omega), chars, List.map_append, readDigits_append, ih _ hlt]
      simp only [Option.bind_some, List.map_cons, List.map_nil, readDigits, hd _ (Nat.mod_lt n (by omega))]
      rw [Nat.mul_comm, Nat.div_add_mod]

theorem decNat_isDigit (n : Nat) : ∀ ch ∈ decNat n, (decDigit ch).isSome = true := by
  intro ch h
  obtain ⟨c, hc, rfl⟩ := List.mem_map.mp h
  have hd : c.isDigit = true := Nat.isDigit_of_mem_toDigits (by decide) (by decide) hc
  simp only [Char.isDigit, Bool.and_eq_true, decide_eq_true_eq] at hd
  exact decDigit_isSome.mpr hd

theorem decNat_ne_nil (n : Nat) : decNat n ≠ [] := fun h => Nat.toDigits_ne_nil (List.map_eq_nil_iff.mp h)

theorem parseMagnitude_decNat (n : Nat) : parseMagnitude (decNat n) = some n := by
  have hc := decNat_isDigit n
  unfold parseMagnitude
  split
  · next ds h => exact absurd (hc (.scalar 'x') (by rw [h]; simp)) (by decide)
  · next ds h => exact absurd (hc (.scalar 'X') (by rw [h]; simp)) (by decide)
  · rw [readNat, if_neg (decNat_ne_nil n)]
    exact readDigits_toDigits (by decide) (fun _ h => decDigit_digitChar h) n

end Sys2Proof.Machine
end

