-- ==== Sys2Proof/Laws/PerInstr.lean ====
section
/-!
SUPPORT. Statements over every instruction, one lemma per constructor: the family `EncodeHead` says that an instruction's
encoding begins with its mnemonic, as a run of non-`WS` characters of its own (spec 30_encoding R86).
-/

namespace Sys2Proof.Laws.EncodeHead

open Sys2Proof Sys2Proof.Machine

def Statement (i : Instr) : Prop :=
  ∀ (c : Config) (p : Program), (encode c p i).takeWhile (!isSpace ·) = i.mnemonic

theorem li (rd : Reg) (imm : Word) : Statement (.li rd imm) := fun _ _ => rfl
theorem la (rd : Reg) (addr : Word) : Statement (.la rd addr) := fun _ _ => rfl
theorem move (rd rs : Reg) : Statement (.move rd rs) := fun _ _ => rfl
theorem addi (rd rs : Reg) (imm : Word) : Statement (.addi rd rs imm) := fun _ _ => rfl
theorem add (rd rs rt : Reg) : Statement (.add rd rs rt) := fun _ _ => rfl
theorem sub (rd rs rt : Reg) : Statement (.sub rd rs rt) := fun _ _ => rfl
theorem lw (rd : Reg) (m : MemOperand) : Statement (.lw rd m) := fun _ _ => rfl
theorem sw (rs : Reg) (m : MemOperand) : Statement (.sw rs m) := fun _ _ => rfl
theorem beq (rs rt : Reg) (target : Nat) : Statement (.beq rs rt target) := fun _ _ => rfl
theorem bne (rs rt : Reg) (target : Nat) : Statement (.bne rs rt target) := fun _ _ => rfl
theorem j (target : Nat) : Statement (.j target) := fun _ _ => rfl
theorem syscall : Statement (.syscall) := fun _ _ => rfl

end Sys2Proof.Laws.EncodeHead
end

