-- ==== Sys2Proof/Tests/Slice0.lean ====
section
/-!
SUPPORT. The model's own tests: ill-formed terms that WellFormed refuses, decoding of lines written out from spec
30_encoding R104, vectors of spec 95_test_vectors, and for every obligation with hypotheses a witness that meets them.
-/

namespace Sys2Proof.Tests

open Sys2Proof Sys2Proof.Machine

/-! ## The fixture: two lines, two text labels, one data label with a string -/

def fixture (line : String) : Program where
  instrs := [text line, text "syscall"]
  textLabels := [(text "loop", 0), (text "end", 2)]
  dataLabels := [(text "msg", npad.dataBase)]
  dataStrings := [(npad.dataBase, text "Hi\n")]

/-- A ready state with the line at `pc` = 0 and some registers and words set. -/
def stateOf (line : String) (rs : List (Reg × Int)) (ms : List (Int × Int)) : State :=
  let s := { State.reset with program := fixture line }
  let s := rs.foldl (fun s e => s.setReg e.1 (norm32 e.2)) s
  ms.foldl (fun s e => s.setMem (norm32 e.1) (norm32 e.2)) s

def nextState? (o : Host.Outcome State Fault Refusal) : Option State :=
  match o with
  | .next t => some t
  | .fault _ => none
  | .refused _ => none

/-- What one step of the line leaves, seen through a view. -/
def after {α : Type} (line : String) (rs : List (Reg × Int)) (ms : List (Int × Int)) (view : State → α) : Option α :=
  (nextState? (step (stateOf line rs ms))).map view

/-! ## WellFormed: one ill-formed term for each check -/

theorem test_wf_fixture : (fixture "li $t0, 1").wf = true := by decide
theorem test_wf_refuses_empty_line : (fixture "").wf = false := by decide
theorem test_wf_refuses_untrimmed_line : (fixture " syscall").wf = false := by decide
theorem test_wf_refuses_comment : (fixture "li $t0, 1 # x").wf = false := by decide
theorem test_wf_refuses_line_feed : (fixture "li $t0,\n1").wf = false := by decide
theorem test_wf_refuses_directive : (fixture ".word 1").wf = false := by decide
theorem test_wf_refuses_text_label_name : { fixture "syscall" with textLabels := [(text "1x", 0)] }.wf = false := by decide
theorem test_wf_refuses_text_label_past_end : { fixture "syscall" with textLabels := [(text "x", 3)] }.wf = false := by
  decide
theorem test_wf_refuses_text_label_twice :
    { fixture "syscall" with textLabels := [(text "x", 0), (text "x", 1)] }.wf = false := by decide
theorem test_wf_refuses_data_label_name : { fixture "syscall" with dataLabels := [(text "$x", 0)] }.wf = false := by decide
theorem test_wf_refuses_data_label_twice :
    { fixture "syscall" with dataLabels := [(text "x", 0), (text "x", 4)] }.wf = false := by decide
theorem test_wf_refuses_string_twice :
    { fixture "syscall" with dataStrings := [(0, []), (0, (chars ['a']))] }.wf = false := by decide
theorem test_wf_la : (Instr.la .a0 npad.dataBase).wf (fixture "syscall") = true := by decide
theorem test_wf_refuses_la : (Instr.la .a0 5#32).wf (fixture "syscall") = false := by decide
theorem test_wf_refuses_beq : (Instr.beq .t0 .t1 1).wf (fixture "syscall") = false := by decide
theorem test_wf_refuses_bne : (Instr.bne .t0 .t1 1).wf (fixture "syscall") = false := by decide
theorem test_wf_refuses_j : (Instr.j 1).wf (fixture "syscall") = false := by decide

/-! ## Decoding: lines written out from the patterns of 30_encoding R84 and its examples R104 -/

def decodes (line : String) : Except Cause Instr := decode npad (fixture "syscall") (text line)

theorem test_decode_li : decodes "LI\t$V0,0x10" = .ok (.li .v0 16#32) := by decide
theorem test_decode_la : decodes "la $a0,msg" = .ok (.la .a0 0x10010000#32) := by decide
theorem test_decode_move : decodes "move $T1 , $t0" = .ok (.move .t1 .t0) := by decide
theorem test_decode_addi : decodes "addi $sp, $sp, -4" = .ok (.addi .sp .sp 0xFFFFFFFC#32) := by decide
theorem test_decode_add : decodes "add $t2,$t0,$t1" = .ok (.add .t2 .t0 .t1) := by decide
theorem test_decode_sub : decodes "sub $t2, $zero, $t1" = .ok (.sub .t2 .zero .t1) := by decide
theorem test_decode_lw_based : decodes "lw $t0, -8( $fp )" = .ok (.lw .t0 (.based 0xFFFFFFF8#32 .fp)) := by decide
theorem test_decode_lw_label : decodes "lw $t0, msg" = .ok (.lw .t0 (.abs 0x10010000#32)) := by decide
theorem test_decode_sw_no_offset : decodes "sw $ra, ($sp)" = .ok (.sw .ra (.based 0#32 .sp)) := by decide
theorem test_decode_sw_literal : decodes "sw $t0, 0x100" = .ok (.sw .t0 (.abs 256#32)) := by decide
theorem test_decode_beq : decodes "beq $zero,$zero,loop" = .ok (.beq .zero .zero 0) := by decide
theorem test_decode_bne : decodes "bne $t0, $t1, end" = .ok (.bne .t0 .t1 2) := by decide
theorem test_decode_j : decodes "J end" = .ok (.j 2) := by decide
theorem test_decode_syscall : decodes "Syscall" = .ok .syscall := by decide
theorem test_decode_case_of_label : decodes "j Loop" = .error (.unknownLabel (text "Loop")) := by decide
theorem test_decode_data_label_is_no_target : decodes "j msg" = .error (.unknownLabel (text "msg")) := by decide
theorem test_decode_plus_sign : decodes "li $t0, +5" = .error (.invalidImmediate (text "+5")) := by decide
theorem test_decode_label_offset : decodes "lw $t0, msg+4" = .error (.invalidMemoryOperand (text "msg+4")) := by decide
theorem test_decode_bad_base : decodes "lw $t0, 4(sp)" = .error (.invalidMemoryOperand (text "4(sp)")) := by decide
theorem test_decode_immediate_in_register_slot :
    decodes "add $t2, $t0, 1" = .error (.unsupportedInstruction (text "add $t2, $t0, 1")) := by decide
theorem test_decode_numeric_register :
    decodes "move $t0, $8" = .error (.unsupportedInstruction (text "move $t0, $8")) := by decide
theorem test_decode_extra_operand :
    decodes "syscall 5" = .error (.unsupportedInstruction (text "syscall 5")) := by decide

/-! ## The loader: 95_test_vectors section 2.1 -/

def loads (source : String) : Except LoadError Program := load npad (text source)

theorem test_load_labels_and_comment :
    loads "a: b: li $t0, 1 # set" = .ok { Program.empty with
      instrs := [text "li $t0, 1"], textLabels := [(text "a", 0), (text "b", 0)] } := by decide
theorem test_load_globl_and_end_label :
    loads ".globl main\nmain:\nsyscall\nend:" = .ok { Program.empty with
      instrs := [text "syscall"], textLabels := [(text "main", 0), (text "end", 1)] } := by decide
theorem test_load_data_segment :
    loads ".data\nx: .space 8\ny: .word 1,2\ns: .asciiz \"a\\\"b\"\nt: .asciiz \"\"\n.text\nsyscall" =
      .ok { instrs := [text "syscall"], textLabels := []
            dataLabels := [(text "x", 0x10010000#32), (text "y", 0x10010000#32), (text "s", 0x10010008#32),
              (text "t", 0x1001000C#32)]
            dataStrings := [(0x10010008#32, text "a\"b"), (0x1001000C#32, [])] } := by decide
theorem test_load_hash_in_string :
    loads ".data\nq: .asciiz \"a#b\"\n.text\n.align 2\nsyscall" = .ok { Program.empty with
      instrs := [text "syscall"], dataLabels := [(text "q", 0x10010000#32)] } := by decide
theorem test_load_later_label_wins :
    (loads "x: li $t0,1\nx: li $t1,2").toOption.map (·.textLabels) = some [(text "x", 1)] := by decide
theorem test_load_empty_program : loads ".data\n.text\n" = .error .emptyProgram := by decide
theorem test_empty_program_message : LoadError.emptyProgram.message = some (text "no instructions found") := by decide

/-- Segments switch in lower case only (30_encoding R72, R102). -/
theorem test_load_segments :
    (loads "syscall\n.DATA\nx: syscall\n.data\ny:\nz: .text\nw: syscall").toOption.map
      (fun p => (p.instrs.length, p.textLabels, p.dataLabels)) =
      some (3, [(text "x", 1), (text "w", 2)], [(text "y", 0x10010000#32), (text "z", 0x10010000#32)]) := by decide

/-- A surrogate is a character like another (00_scope R14). -/
theorem test_load_surrogate :
    load npad (text ".data\ns: .asciiz \"" ++ [.surrogate 0, .surrogate 2047] ++ text "\"\n.text\nsyscall") =
      .ok { Program.empty with
        instrs := [text "syscall"], dataLabels := [(text "s", 0x10010000#32)]
        dataStrings := [(0x10010000#32, [.surrogate 0, .surrogate 2047])] } := by decide

/-! ## One step of each instruction: 95_test_vectors sections 2.2 to 2.6 -/

theorem test_li_wraps : after "li $t0, 2147483648" [] [] (·.readReg .t0) = some 0x80000000#32 := by decide
theorem test_li_zero : after "li $zero, 9" [] [] (fun t => (t.readReg .zero, t.touchedRegs, t.pc)) =
    some (0#32, [], 1) := by decide
theorem test_la : after "la $s0, msg" [] [] (·.readReg .s0) = some 0x10010000#32 := by decide
theorem test_la_text_label : after "la $s0, loop" [] [] (fun t => (t.status, t.error, t.pc, t.steps)) =
    some (.error, some (text "Unknown label: loop"), 0, 1) := by decide
theorem test_move : after "move $t1, $t0" [(.t0, -3)] [] (·.readReg .t1) = some 0xFFFFFFFD#32 := by decide
theorem test_move_self : after "move $t0, $t0" [(.t0, 8)] [] (fun t => (t.readReg .t0, t.touchedRegs)) =
    some (8#32, [.t0]) := by decide
theorem test_addi_wraps : after "addi $t0, $t0, -1" [(.t0, -2147483648)] [] (·.readReg .t0) = some 0x7FFFFFFF#32 := by decide
theorem test_addi_wide : after "addi $t0, $zero, 0x12345678" [] [] (·.readReg .t0) = some 305419896#32 := by decide
theorem test_add_wraps : after "add $t1, $t0, $t0" [(.t0, -2147483648)] [] (·.readReg .t1) = some 0#32 := by decide
theorem test_add_same : after "add $t0, $t0, $t0" [(.t0, 3)] [] (·.readReg .t0) = some 6#32 := by decide
theorem test_sub_order : after "sub $t2, $t0, $t1" [(.t0, 3), (.t1, 10)] [] (·.readReg .t2) = some 0xFFFFFFF9#32 := by decide
theorem test_sub_wraps : after "sub $t2, $zero, $t1" [(.t1, -2147483648)] [] (·.readReg .t2) = some 0x80000000#32 := by decide
theorem test_lw_base_is_destination : after "lw $t0, 0($t0)" [(.t0, 200)] [(200, 77)] (·.readReg .t0) = some 77#32 := by decide
theorem test_lw_unset : after "lw $t0, 12345" [(.t0, 5)] [] (·.readReg .t0) = some 0#32 := by decide
theorem test_sw_wraps : after "sw $t1, 4($t0)" [(.t0, 2147483647), (.t1, 5)] [] (fun t => (t.mem, t.touchedMem)) =
    some ([(0x80000003, 5#32)], [0x80000003#32]) := by decide
theorem test_sw_is_a_word : after "sw $t0, 1" [(.t0, 6)] [(0, 3)] (fun t => (t.memRead 0#32, t.memRead 1#32)) =
    some (3#32, 6#32) := by decide
theorem test_beq_taken : after "beq $t0, $t1, end" [(.t0, 4), (.t1, 4)] [] (·.pc) = some 2 := by decide
theorem test_beq_untaken : after "beq $t0, $t1, end" [(.t0, 4), (.t1, 5)] [] (·.pc) = some 1 := by decide
theorem test_bne_taken : after "bne $t0, $t1, end" [(.t0, 4), (.t1, 5)] [] (·.pc) = some 2 := by decide
theorem test_bne_unknown_label : after "bne $t0, $t0, nowhere" [] [] (·.error) =
    some (some (text "Unknown label: nowhere")) := by decide
theorem test_j : after "j end" [] [] (·.pc) = some 2 := by decide
theorem test_j_register : after "j $ra" [] [] (·.error) = some (some (text "Unknown label: $ra")) := by decide
theorem test_syscall_prints :
    after "syscall" [(.v0, 1), (.a0, -2147483648)] [] (·.output) = some (text "-2147483648") ∧
    after "syscall" [(.v0, 4), (.a0, 0x10010000)] [] (·.output) = some (text "Hi\n") ∧
    after "syscall" [(.v0, 4), (.a0, 0x10010001)] [] (fun t => (t.output, t.pc)) = some ([], 1) ∧
    after "syscall" [(.v0, 11), (.a0, 0x141)] [] (·.output) = some (chars ['A']) := by decide
theorem test_syscall_ends :
    after "syscall" [(.v0, 10)] [] (fun t => (t.status, t.error, t.pc, t.steps)) = some (.halted, none, 0, 1) ∧
    after "syscall" [] [] (fun t => (t.status, t.error, t.pc, t.steps)) =
      some (.error, some (text "Unsupported syscall: 0"), 0, 1) := by decide

/-! ## The execution cycle and creation: 95_test_vectors sections 2.7 and 2.8 -/

theorem test_timeout_before_decode :
    (nextState? (step { stateOf "foo" [] [] with steps := 10000 })).map (fun t => (t.status, t.error, t.steps)) =
      some (.error, some (text "Execution timed out after 10000 steps"), 10000) := by decide
theorem test_pc_check_before_bound :
    (nextState? (step { stateOf "foo" [] [] with pc := 2, steps := 10000 })).map (fun t => (t.status, t.pc, t.steps)) =
      some (.halted, 2, 10000) := by decide
theorem test_last_counted_step :
    (nextState? (step { stateOf "li $t0, 1" [] [] with steps := 9999 })).map (fun t => (t.status, t.readReg .t0, t.steps)) =
      some (.ready, 1#32, 10000) := by decide
theorem test_create_overrides :
    (create npad [] (fixture "syscall") [(text "$zero", 5), (text "$SP", 4294967295)]
      [(text "16", 4), (text "0x10", 3), (text "-4", 9)]).toOption.map
      (fun t => (t.readReg .zero, t.readReg .sp, t.mem, t.touchedRegs)) =
      some (0#32, 0xFFFFFFFF#32, [(16, 3#32), (0xFFFFFFFC, 9#32)], []) := by decide
theorem test_create_refuses_register :
    create npad [] (fixture "syscall") [(text "$foo", 1)] [] = .error (.initBadRegister (text "$foo")) := by decide
theorem test_create_refuses_address :
    create npad [] (fixture "syscall") [] [(text "abc", 1)] = .error (.initBadAddress (text "abc")) := by decide

/-! ## The host's numbering of words (log entry 1): the bytes of `li $t0,5`, the first lowest -/

/-- The number whose bytes, the lowest first, are the characters. -/
def wordOf : Text → Nat
  | [] => 0
  | c :: cs => c.number + 256 * wordOf cs

theorem test_table_word : decodeTableWord 72 (wordOf (text "li $t0,5")) = some (.li .t0 5#32) := by decide
theorem test_table_word_refused : decodeTableWord 72 (wordOf (text "foo $t0")) = none := by decide
theorem test_fetch_word :
    (nextState? (step (State.reset.withFetchWord 72 (wordOf (text "li $t0,5"))))).map (fun t => (t.readReg .t0, t.steps)) =
      some (5#32, 1) := by decide

/-! ## Witnesses: for every obligation with hypotheses, a case that meets them all -/

theorem witness_CreateAppliesTheHostOverrides :
    ∃ s, create npad [] (fixture "syscall") [(text "$zero", 5), (text "$SP", 4294967295)]
      [(text "16", 4), (text "0x10", 3)] = .ok s := ⟨_, rfl⟩
theorem witness_CreateRefusesExactlyBadOverrides :
    create npad [] (fixture "syscall") [(text "$sp", 1), (text "$foo", 1)] [(text "abc", 1)] =
      .error (.initBadRegister (text "$foo")) ∧
    create npad [] (fixture "syscall") [(text "$sp", 1)] [(text "1", 1), (text "abc", 1)] =
      .error (.initBadAddress (text "abc")) := ⟨rfl, rfl⟩
theorem witness_CreatedStateMeetsTheInvariant :
    ∃ p s, load npad (text "x: syscall") = .ok p ∧
      create npad (text "x: syscall") p [(text "$a0", -1)] [(text "-4", 9)] = .ok s := ⟨_, _, rfl, rfl⟩
theorem witness_LoadedProgramIsWellFormed : ∃ p, load npad (text "x: syscall\ny:") = .ok p := ⟨_, rfl⟩
/-- Two labels before an instruction, labels on a line of their own, and labels before directives. -/
theorem witness_TextLabelIsTheIndexOfTheNextInstruction :
    (LoadState.start npad).seg = .text ∧
      sourceLine [text "a", text "b.1"] (text "li $t0, 1") (text " a: b.1:\tli $t0, 1 # set") ∧
      sourceLine [text "a", text "a"] [] (text "a: a:") ∧ sourceLine [text "a"] (text ".data x") (text "a: .data x") ∧
      sourceLine [] (text ".TEXT") (text ".TEXT") ∧ definable npad (LoadState.start npad).textLabels [text "a", text "a"] :=
  ⟨rfl,
    ⟨text " ", text " ", text "# set", [(text "a", text " "), (text "b.1", text "\t")], by decide, rfl, by decide, by decide,
      by decide, by decide, by decide, peelLabel_eq_none.mp (by decide)⟩,
    ⟨[], [], [], [(text "a", text " "), (text "a", [])], by decide, rfl, by decide, by decide, by decide, by decide,
      by decide, peelLabel_eq_none.mp (by decide)⟩,
    ⟨[], [], [], [(text "a", text " ")], by decide, rfl, by decide, by decide, by decide, by decide, by decide,
      peelLabel_eq_none.mp (by decide)⟩,
    ⟨[], [], [], [], by decide, rfl, by decide, by decide, by decide, by decide, by decide, peelLabel_eq_none.mp (by decide)⟩,
    .inl rfl⟩

theorem witness_LoadFailsOnlyWithoutInstructionLines :
    splitOn (.scalar '\n') (text "a\n\nb\n") = [text "a", [], text "b", []] ∧
      ∃ st, loadLine npad (text "x: syscall") (LoadState.start npad) = .ok st := ⟨by decide, _, rfl⟩

/-- The condition on duplicates where the parameters refuse them. -/
theorem witness_TextLabelIsTheIndexOfTheNextInstruction_refuse :
    definable { npad with labelDuplicates := .refuse } (LoadState.start npad).textLabels [text "a", text "b"] :=
  .inr (by decide)

/-- A payload with both escapes, and the premises of the clauses about expanding. -/
theorem witness_AsciizPayloadIsHeldAtItsLabel :
    { LoadState.start npad with seg := .data }.seg = .data ∧ text " " ≠ [] ∧ (∀ ch ∈ text " ", isSpace ch = true) ∧
      sourceLine [text "msg"]
        (chars ['.', 'a', 's', 'c', 'i', 'i', 'z'] ++ text " " ++ .scalar '"' :: (text "a\\n\\\"" ++ [.scalar '"']))
        (text "msg: .asciiz \"a\\n\\\"\"") ∧
      definable npad (LoadState.start npad).dataLabels [text "msg"] ∧
      (text "\\n").head? ≠ some (.scalar 'n') ∧ (text "\\n").head? ≠ some (.scalar '"') ∧
      (CodePoint.surrogate 0 = .scalar '\\' → ([] : Text).head? ≠ some (.scalar 'n')) :=
  ⟨rfl, by decide, by decide,
    ⟨[], [], [], [(text "msg", text " ")], by decide, rfl, by decide, by decide, by decide, by decide, by decide,
      peelLabel_eq_none.mp (by decide)⟩,
    .inl rfl, by decide, by decide, nofun⟩

/-- A line with values, and one without. -/
theorem witness_WordDirectiveOnlyAdvancesTheCursor :
    { LoadState.start npad with seg := .data }.seg = .data ∧ (∀ ch ∈ text " ", isSpace ch = true) ∧
      sourceLine [text "w"] (chars ['.', 'w', 'o', 'r', 'd'] ++ text " " ++ text "1, ,2") (text "w: .word 1, ,2") ∧
      sourceLine [] (chars ['.', 'w', 'o', 'r', 'd'] ++ [] ++ []) (text ".word") ∧
      definable npad (LoadState.start npad).dataLabels [text "w"] :=
  ⟨rfl, by decide,
    ⟨[], [], [], [(text "w", text " ")], by decide, rfl, by decide, by decide, by decide, by decide, by decide,
      peelLabel_eq_none.mp (by decide)⟩,
    ⟨[], [], [], [], by decide, rfl, by decide, by decide, by decide, by decide, by decide, peelLabel_eq_none.mp (by decide)⟩,
    .inl rfl⟩
theorem witness_DecodeOfEncodeIsTheInstruction :
    (fixture "syscall").wf = true ∧ (Instr.beq .t0 .zero 2).wf (fixture "syscall") = true ∧
      (Instr.la .zero npad.dataBase).wf (fixture "syscall") = true ∧
      (Instr.lw .ra (.based (norm32 (-2147483648)) .sp)).wf (fixture "syscall") = true := by decide
theorem witness_DecodedInstructionIsWellFormed : decode npad (fixture "j end") (text "j end") = .ok (.j 2) := by decide
theorem witness_LineOfNoPatternIsUnsupported : ¬ matchesSomeRow (trim (text "nop")) := by
  intro h
  obtain ⟨i, hi⟩ := mnemonicOf_of_matchesSomeRow (trim_trim _) h
  have hn : mnemonicOf (trim (text "nop")) = chars ['n', 'o', 'p'] := by decide
  rw [hn] at hi
  cases i <;> exact absurd hi (by simp [Instr.mnemonic])
/-- Digits of every clause, with their values at the edges of the range. -/
theorem witness_NumberLiteralsAreReadAndWrapped :
    (∀ ch ∈ text "010", (decDigit ch).isSome = true) ∧ parseNum (text "010") = some 10#32 ∧
      parseNum (text "-0") = some 0#32 ∧ (∀ ch ∈ text "00fF", (hexDigit ch).isSome = true) ∧
      parseNum (text "0X00fF") = some 255#32 ∧ (CodePoint.scalar 'X' = .scalar 'x' ∨ CodePoint.scalar 'X' = .scalar 'X') ∧
      parseNum (text "0xFFFFFFFF") = some 0xFFFFFFFF#32 ∧ parseNum (text "-0x80000000") = some 0x80000000#32 ∧
      parseNum (text "4294967296") = some 0#32 := by decide
theorem witness_MemoryOperandHasThreeForms :
    parseNum (text "-0x4") = some (norm32 (-4)) ∧ fold (text "$Sp") = npad.regName .sp ∧
      (∀ ch ∈ text " " ++ text "\t" ++ [], isSpace ch = true) ∧ isIdent (text "msg") = true ∧
      trim (text "4(sp)") = text "4(sp)" ∧ parseNum (text "4(sp)") = none ∧ isIdent (text "4(sp)") = false := by
  refine ⟨by decide, by decide, by decide, by decide, by decide, by decide, by decide⟩

/-- The last form of `MemoryOperandHasThreeForms`: a text with no parenthesis is no `offset(base)`. -/
theorem witness_MemoryOperandHasThreeForms_none :
    trim (text "msg+4") = text "msg+4" ∧ parseNum (text "msg+4") = none ∧ isIdent (text "msg+4") = false ∧
      ¬ ∃ (o sp₀ sp₁ name sp₂ : Text) (b : Reg), (o = [] ∨ parseNum o ≠ none) ∧ fold name = npad.regName b ∧
        (∀ ch ∈ sp₀ ++ sp₁ ++ sp₂, isSpace ch = true) ∧
        (text "msg+4") = o ++ sp₀ ++ .scalar '(' :: (sp₁ ++ name ++ sp₂ ++ (chars [')'])) := by
  refine ⟨by decide, by decide, by decide, ?_⟩
  rintro ⟨o, sp₀, sp₁, name, sp₂, b, -, -, -, h⟩
  have : .scalar '(' ∈ (text "msg+4") := by rw [h]; simp
  exact absurd this (by decide)

theorem witness_LiLoadsItsImmediate :
    rowLi (trim (text "li $t0 , 5")) .t0 (text "5") ∧ mnemonicOf (trim (text "li $t0 5")) = chars ['l', 'i'] ∧
      ¬ ∃ rd tok, rowLi (trim (text "li $t0 5")) rd tok :=
  ⟨(patternRI_iff (noSpace_of_all rfl)).mpr ⟨by decide, _, rfl, rfl⟩, by decide, fun ⟨a, b, h⟩ =>
    (not_spells_of_regComma (trim_trim _) (by decide) (noSpace_of_all rfl)).1 a b h⟩
theorem witness_LaLoadsTheDataAddress :
    rowLa (trim (text "la $a0,msg")) .a0 (text "msg") ∧ mnemonicOf (trim (text "la $t0 5")) = chars ['l', 'a'] ∧
      ¬ ∃ rd tok, rowLa (trim (text "la $t0 5")) rd tok :=
  ⟨(patternRI_iff (noSpace_of_all rfl)).mpr ⟨by decide, _, rfl, rfl⟩, by decide, fun ⟨a, b, h⟩ =>
    (not_spells_of_regComma (trim_trim _) (by decide) (noSpace_of_all rfl)).1 a b h⟩
theorem witness_MoveCopiesARegister :
    rowMove (trim (text "move $T1, $t0")) .t1 .t0 ∧ mnemonicOf (trim (text "move $t0 5")) = chars ['m', 'o', 'v', 'e'] ∧
      ¬ ∃ rd rs, rowMove (trim (text "move $t0 5")) rd rs :=
  ⟨(patternRR_iff (noSpace_of_all rfl)).mpr ⟨by decide, _, rfl, rfl⟩, by decide, fun ⟨a, b, h⟩ =>
    (not_spells_of_regComma (trim_trim _) (by decide) (noSpace_of_all rfl)).2.1 a b h⟩
theorem witness_AddiAddsItsImmediate :
    rowAddi (trim (text "addi $t0,$t1, -1")) .t0 .t1 (text "-1") ∧ mnemonicOf (trim (text "addi $t0 5")) = chars ['a', 'd', 'd', 'i'] ∧
      ¬ ∃ rd rs tok, rowAddi (trim (text "addi $t0 5")) rd rs tok :=
  ⟨(patternRRI_iff (noSpace_of_all rfl)).mpr ⟨by decide, _, rfl, _, rfl, rfl⟩, by decide, fun ⟨a, b, c, h⟩ =>
    (not_spells_of_regComma (trim_trim _) (by decide) (noSpace_of_all rfl)).2.2.1 a b c h⟩
theorem witness_AddAddsTwoRegisters :
    rowAdd (trim (text "add $t0, $t1, $t2")) .t0 .t1 .t2 ∧ mnemonicOf (trim (text "add $t0 5")) = chars ['a', 'd', 'd'] ∧
      ¬ ∃ rd rs rt, rowAdd (trim (text "add $t0 5")) rd rs rt :=
  ⟨(patternRRR_iff (noSpace_of_all rfl)).mpr ⟨by decide, _, rfl, _, rfl, rfl⟩, by decide, fun ⟨a, b, c, h⟩ =>
    (not_spells_of_regComma (trim_trim _) (by decide) (noSpace_of_all rfl)).2.2.2.1 a b c h⟩
theorem witness_SubSubtractsTwoRegisters :
    rowSub (trim (text "SUB $t0, $t1, $zero")) .t0 .t1 .zero ∧ mnemonicOf (trim (text "sub $t0 5")) = chars ['s', 'u', 'b'] ∧
      ¬ ∃ rd rs rt, rowSub (trim (text "sub $t0 5")) rd rs rt :=
  ⟨(patternRRR_iff (noSpace_of_all rfl)).mpr ⟨by decide, _, rfl, _, rfl, rfl⟩, by decide, fun ⟨a, b, c, h⟩ =>
    (not_spells_of_regComma (trim_trim _) (by decide) (noSpace_of_all rfl)).2.2.2.1 a b c h⟩
theorem witness_LwLoadsTheWordAtItsAddress :
    rowLw (trim (text "lw $t0, -8( $fp )")) .t0 (text "-8( $fp )") ∧ mnemonicOf (trim (text "lw $t0 5")) = chars ['l', 'w'] ∧
      ¬ ∃ rd m, rowLw (trim (text "lw $t0 5")) rd m :=
  ⟨patternRM_of (noSpace_of_all rfl) (by decide) rfl (by decide), by decide, fun ⟨a, b, h⟩ =>
    (not_spells_of_regComma (trim_trim _) (by decide) (noSpace_of_all rfl)).2.2.2.2 a b h⟩
theorem witness_SwStoresTheWordAtItsAddress :
    rowSw (trim (text "sw $ra, ($sp)")) .ra (text "($sp)") ∧ mnemonicOf (trim (text "sw $t0 5")) = chars ['s', 'w'] ∧
      ¬ ∃ rs m, rowSw (trim (text "sw $t0 5")) rs m :=
  ⟨patternRM_of (noSpace_of_all rfl) (by decide) rfl (by decide), by decide, fun ⟨a, b, h⟩ =>
    (not_spells_of_regComma (trim_trim _) (by decide) (noSpace_of_all rfl)).2.2.2.2 a b h⟩

/-- Memory that lists nothing at the address of a `lw`, and something elsewhere. -/
theorem witness_LwLoadsTheWordAtItsAddress_unset :
    let s := stateOf "syscall" [(.sp, -8)] [(16, 3)]
    s.mem ≠ [] ∧ ∀ e ∈ s.mem, e.1 ≠ (effectiveAddress s (.based 4#32 .sp)).toNat := by decide
theorem witness_BeqBranchesOnEquality :
    rowBeq (trim (text "beq $zero,$zero,loop")) .zero .zero (text "loop") ∧ mnemonicOf (trim (text "beq $t0 5")) = chars ['b', 'e', 'q'] ∧
      ¬ ∃ rs rt tok, rowBeq (trim (text "beq $t0 5")) rs rt tok :=
  ⟨(patternRRI_iff (noSpace_of_all rfl)).mpr ⟨by decide, _, rfl, _, rfl, rfl⟩, by decide, fun ⟨a, b, c, h⟩ =>
    (not_spells_of_regComma (trim_trim _) (by decide) (noSpace_of_all rfl)).2.2.1 a b c h⟩
theorem witness_BneBranchesOnInequality :
    rowBne (trim (text "bne $t0,$t0,nowhere")) .t0 .t0 (text "nowhere") ∧ mnemonicOf (trim (text "bne $t0 5")) = chars ['b', 'n', 'e'] ∧
      ¬ ∃ rs rt tok, rowBne (trim (text "bne $t0 5")) rs rt tok :=
  ⟨(patternRRI_iff (noSpace_of_all rfl)).mpr ⟨by decide, _, rfl, _, rfl, rfl⟩, by decide, fun ⟨a, b, c, h⟩ =>
    (not_spells_of_regComma (trim_trim _) (by decide) (noSpace_of_all rfl)).2.2.1 a b c h⟩
theorem witness_SwStoresTheWordAtItsAddress_memory : Memory.wf (stateOf "syscall" [] [(-4, 9), (16, 3)]).mem := by decide
theorem witness_JumpSetsThePc :
    rowJ (trim (text "j\tend")) (text "end") ∧ mnemonicOf (trim (text "j a,b")) = chars ['j'] ∧
      ¬ ∃ tok, rowJ (trim (text "j a,b")) tok := by
  refine ⟨(patternL_iff (noSpace_of_all rfl)).mpr ⟨by decide, rfl⟩, by decide, fun ⟨tok, h⟩ => ?_⟩
  have := ((patternL_iff (noSpace_of_all rfl)).mp h).2
  rw [show tokEnd (bodyOf (trim (text "j a,b"))) = none by decide] at this
  cases this
theorem witness_SyscallDispatchesOnTheSelector :
    rowSyscall (trim (text " SYSCALL")) ∧ mnemonicOf (trim (text "syscall 4")) = chars ['s', 'y', 's', 'c', 'a', 'l', 'l'] ∧
      ¬ rowSyscall (trim (text "syscall 4")) := by
  refine ⟨(patternN_iff (noSpace_of_all rfl) (trim_trim _)).mpr ⟨by decide, by decide⟩, by decide, fun h => ?_⟩
  exact absurd ((patternN_iff (noSpace_of_all rfl) (trim_trim _)).mp h).2 (by decide)

/-- A state for each selector of a `syscall`, and one whose selector is none of them. -/
theorem witness_SyscallHaltAndErrorKeepTheRest :
    (∀ v ∈ [1, 4, 10, 11, -10], (stateOf "syscall" [(.v0, v)] []).readReg .v0 = norm32 v) ∧
      (norm32 (-10) : Word) ∉ [1#32, 4#32, 10#32, 11#32] := by decide
theorem witness_OnlySyscallHaltsOrFails : Instr.sw .t0 (.abs 4#32) ≠ .syscall := by decide
theorem witness_StoreThenLoadReturnsTheValue :
    let s := stateOf "syscall" [(.t0, -1), (.sp, -8)] [(0, 7)]
    let m := MemOperand.based 0#32 .sp
    Memory.wf s.mem ∧ Reg.t1 ≠ .zero ∧ (0#32 : Word) ≠ effectiveAddress s m ∧
      ∃ t u v, exec (.sw .t0 m) s = .next t ∧ exec (.lw .t1 m) t = .next u ∧ exec (.lw .t1 (.abs 0#32)) t = .next v :=
  ⟨by decide, by decide, by decide, _, _, _, rfl, rfl, rfl⟩
theorem witness_TouchedSetsRecordWritesInOrder :
    ∃ t, exec (.sw .t0 (.abs 4#32)) (stateOf "syscall" [] []) = .next t := ⟨_, rfl⟩
theorem witness_TerminalStateIsUnchanged :
    { State.reset with status := .halted }.status = .halted ∧
      { State.reset with status := .error, error := some [] }.status = .error := by decide
theorem witness_PcOutOfRangeHalts :
    let s := { stateOf "syscall" [] [] with pc := 2, steps := 10000 }
    s.status = .ready ∧ s.program.instrs.length ≤ s.pc := by decide
theorem witness_StepBoundEndsInTimeout :
    let s := { stateOf "foo" [] [] with pc := 1, steps := 10000 }
    s.status = .ready ∧ s.pc < s.program.instrs.length ∧ npad.maxSteps ≤ s.steps := by decide
theorem witness_StepRunsTheDecodedInstruction :
    let s := { stateOf "j end" [] [] with steps := 9999 }
    s.status = .ready ∧ s.program.instrs[s.pc]? = some (text "j end") ∧ s.steps < npad.maxSteps ∧
      decode npad s.program (text "j end") = .ok (.j 2) := by decide
theorem witness_DecodeErrorFreezesTheMachine :
    let s := { stateOf "li $t0, x" [] [] with steps := 9999 }
    s.status = .ready ∧ s.program.instrs[s.pc]? = some (text "li $t0, x") ∧ s.steps < npad.maxSteps ∧
      decode npad s.program (text "li $t0, x") = .error (.invalidImmediate (text "x")) := by decide

/-- Steps of every kind: not ready, out of range, at the bound, a decode error, an instruction. -/
theorem witness_StatusTransitionsAreExact :
    (∃ t, step { State.reset with status := .halted } = .next t) ∧ (∃ t, step State.reset = .next t) ∧
      (∃ t, step { stateOf "foo" [] [] with steps := 10000 } = .next t) ∧ (∃ t, step (stateOf "foo" [] []) = .next t) ∧
      (∃ t, step (stateOf "syscall" [(.v0, 10)] []) = .next t) := ⟨⟨_, rfl⟩, ⟨_, rfl⟩, ⟨_, rfl⟩, ⟨_, rfl⟩, ⟨_, rfl⟩⟩
theorem witness_StepCounterCountsDecodedSteps : ∃ t, step (stateOf "foo" [] []) = .next t := ⟨_, rfl⟩

/-- A state with lines, labels, registers, memory and touched sets that meets the invariant and steps. -/
theorem witness_InvariantIsKeptByEveryStep :
    let s := { stateOf "sw $t0, -4($sp)" [(.t0, 9), (.sp, 100)] [(96, 3)] with
      steps := 9999, touchedRegs := [.t0, .sp], touchedMem := [96#32] }
    s.Inv ∧ ∃ t, step s = .next t :=
  ⟨⟨by decide, by decide, by decide, by decide, by decide, by decide, by decide⟩, _, rfl⟩

/-- Also a state that no run reaches, with `$zero`'s place not 0. -/
theorem witness_ZeroRegisterIsReasserted :
    let s := { stateOf "foo" [] [] with regs := Vector.replicate 32 5#32, steps := 9999 }
    s.regSlot .zero = 5#32 ∧ s.status = .ready ∧ s.pc < s.program.instrs.length ∧ s.steps < npad.maxSteps ∧
      (∃ t, step s = .next t) ∧ ∃ t, exec (.li .zero 9#32) s = .next t :=
  ⟨by decide, by decide, by decide, by decide, ⟨_, rfl⟩, _, rfl⟩
theorem witness_ProgramIsNeverWritten :
    let s := stateOf "sw $t0, 0" [] []
    (∃ t, exec (.sw .t0 (.abs 0#32)) s = .next t) ∧ ∃ t, step s = .next t ∧ Runs s t :=
  ⟨⟨_, rfl⟩, _, rfl, .step (by decide) rfl (.done _)⟩
theorem witness_OutputIsAppendOnly :
    (∃ s, create npad [] (fixture "syscall") [] [] = .ok s) ∧
      (after "syscall" [(.v0, 11), (.a0, 65)] [] (·.output) = some ([] ++ (chars ['A']))) := ⟨⟨_, rfl⟩, by decide⟩
theorem witness_ErrorMessageIsSetOnce :
    (stateOf "foo" [] []).errorOk ∧ (∃ t, step (stateOf "foo" [] []) = .next t ∧ t.status = .error) ∧
      { State.reset with status := .error, error := some (chars ['x']) }.errorOk := ⟨by decide, ⟨_, rfl, rfl⟩, by decide⟩
theorem witness_OnlySwChangesMemory :
    let s := stateOf "sw $t0, 4" [(.t0, 9)] []
    Memory.wf s.mem ∧ ∃ t, step s = .next t ∧ t.memRead 4#32 ≠ s.memRead 4#32 := ⟨by decide, _, rfl, by decide⟩
theorem witness_OnlyTheDestinationRegisterChanges :
    ∃ t, step (stateOf "li $t0, 5" [] []) = .next t ∧ t.readReg .t0 ≠ (stateOf "li $t0, 5" [] []).readReg .t0 :=
  ⟨_, rfl, by decide⟩
theorem witness_PcMovesOnlyByCompletingInstructions :
    (∃ t, step (stateOf "j end" [] []) = .next t ∧ t.status = .ready) ∧
      ∃ t, step (stateOf "syscall" [(.v0, 10)] []) = .next t ∧ t.status ≠ .ready := ⟨⟨_, rfl, rfl⟩, _, rfl, by decide⟩
theorem witness_UntouchedRegistersAndWordsKeepTheirValues :
    let s := stateOf "sw $t0, 4" [(.t0, 9)] []
    Memory.wf s.mem ∧ ∃ t, Runs s t ∧ t.touchedMem = [4#32] := ⟨by decide, _, .step (by decide) rfl (.done _), rfl⟩
theorem witness_SourceAndTouchedSetsCarryNoSemantics :
    let s := stateOf "li $t0, 5" [] []
    s.forget = { s with source := chars ['x'], touchedRegs := [.t1] }.forget ∧ ∃ t, step s = .next t := ⟨rfl, _, rfl⟩
theorem witness_RunToEndStaysWithinTheStepBound :
    (∃ t, runToEnd { stateOf "syscall" [] [] with steps := 9999 } = .next t) ∧ 9999 ≤ npad.maxSteps := ⟨⟨_, rfl⟩, by decide⟩

/-- A line of labels alone, a segment switch, one of no supported directive, and two malformed `.asciiz` lines. -/
theorem witness_OtherDataLinesOnlyBindTheirLabels :
    { LoadState.start npad with seg := .data }.seg = .data ∧ sourceLine [text "x"] [] (text "x:") ∧
      sourceLine [text "x"] (text ".text") (text "x: .text# y") ∧
      sourceLine [text "x"] (text ".space 8") (text "x: .space 8") ∧ sourceLine [] (text ".asciiz \"a") (text ".asciiz \"a#b\"") ∧
      definable npad (LoadState.start npad).dataLabels [text "x"] ∧
      (npad.strictDataDirectives = false ∧
        (text ".text").takeWhile (!isSpace ·) ∈ [text ".text", text ".data", text ".globl"]) ∧
      (∀ body ∈ [[], text ".text", text ".data 1", text ".globl x", text ".space 8", text ".asciiz \"a", text ".asciiz\"a\""],
        body.takeWhile (!isSpace ·) ≠ text ".word" ∧
        ¬ ∃ blanks payload, blanks ≠ [] ∧ (∀ ch ∈ blanks, isSpace ch = true) ∧
          body = text ".asciiz" ++ blanks ++ .scalar '"' :: (payload ++ [.scalar '"'])) := by
  refine ⟨rfl,
    ⟨[], [], [], [(text "x", [])], by decide, rfl, by decide, by decide, by decide, by decide, by decide,
      peelLabel_eq_none.mp (by decide)⟩,
    ⟨[], [], text "# y", [(text "x", text " ")], by decide, rfl, by decide, by decide, by decide, by decide, by decide,
      peelLabel_eq_none.mp (by decide)⟩,
    ⟨[], [], [], [(text "x", text " ")], by decide, rfl, by decide, by decide, by decide, by decide, by decide,
      peelLabel_eq_none.mp (by decide)⟩,
    ⟨[], [], text "#b\"", [], by decide, rfl, by decide, by decide, by decide, by decide, by decide,
      peelLabel_eq_none.mp (by decide)⟩, .inl rfl, by decide, fun body hb => ⟨?_, ?_⟩⟩
  · revert body; decide
  · rintro ⟨blanks, payload, hne, hs, rfl⟩
    have none : ∀ body ∈ [[], text ".text", text ".data 1", text ".globl x", text ".space 8", text ".asciiz \"a",
          text ".asciiz\"a\""],
        body.takeWhile (!isSpace ·) = text ".asciiz" →
        (asciizPayload (trimStart (body.dropWhile (!isSpace ·)))).isSome = false := by decide
    obtain ⟨first, some⟩ := asciizBody_payload hne hs payload
    have := none _ hb first
    rw [some] at this
    cases this

/-- Distinct service numbers, and a state for each clause. -/
theorem witness_SyscallFollowsTheParameters :
    [npad.sysPrintInt, npad.sysPrintString, npad.sysExit, npad.sysPrintChar].Nodup ∧
      let c := { npad with selectorReg := .t0, argReg := .t1, sysPrintInt := 7#32 }
      [c.sysPrintInt, c.sysPrintString, c.sysExit, c.sysPrintChar].Nodup ∧
      ∀ v ∈ [7, 4, 10, 11, 1], (stateOf "syscall" [(.t0, v)] []).readReg c.selectorReg = norm32 v := by decide
theorem witness_EveryParameterChoiceRunsToATerminalState :
    (stateOf "syscall" [] []).steps ≤ { npad with maxSteps := 0 }.maxSteps := by decide

/-! ## Other parameters: 8 bits, eight registers (00_scope R9; log entry 13) -/

def small : Config := { npad with xlen := 8, xlen_bound := by decide, nregs := 8, nregs_bound := by decide }

theorem test_small_wraps :
    (nextState? (execWith small (.addi .v0 .v0 1#32) (stateOf "syscall" [(.v0, 127)] []))).map (·.readReg .v0) =
      some (norm32 (-128)) := by decide
theorem test_small_address_wraps :
    (nextState? (execWith small (.sw .v0 (.based 1#32 .v0)) (stateOf "syscall" [(.v0, 127)] []))).map (·.mem) =
      some [(0xFFFFFF80, 127#32)] := by decide
theorem test_small_registers :
    lookupReg small (text "$A3") = some .a3 ∧ lookupReg small (text "$t0") = none := by decide
theorem witness_MachineIsTheParametricOneAtItsParameters :
    (∃ s, create small [] (fixture "addi $a0, $a0, 1") [(text "$a0", 200)] [(text "300", 400)] = .ok s ∧
      s.mem = [(44, norm32 (-112))] ∧ s.InWidth small ∧ ∃ t, stepWith small s = .next t) ∧
      lookupReg small (text "$A3") = some .a3 ∧ small.nregs ≤ regIndex .t0 ∧
      decode small Program.empty (text "lw $v0, 4($a3)") = .ok (.lw .v0 (.based 4#32 .a3)) :=
  ⟨⟨_, rfl, by decide, ⟨fun r => by cases r <;> decide, by decide⟩, _, rfl⟩, by decide, by decide, by decide⟩

end Sys2Proof.Tests
end

section
/-!
PROOFS. The state family (spec 10_state R35, R38, R39): what creation keeps, what an instruction and a step do to the
status, the error message and the output.
-/

namespace Sys2Proof.Machine

/-! ## Creation

A created state is the initial one after value overrides only, so it has every property that these keep. -/

theorem overrideRegs_induction {c : Config} {P : State → Prop} (setReg : ∀ s r v, P s → P (s.setReg r v))
    (overrides : List (Text × Int)) {s t : State} (h : overrideRegs c overrides s = .ok t) (hs : P s) : P t := by
  induction overrides generalizing s with
  | nil => cases h; exact hs
  | cons e rest ih =>
    obtain ⟨name, v⟩ := e
    rw [overrideRegs] at h
    split at h
    · exact ih h (setReg _ _ _ hs)
    · cases h

theorem overrideMem_induction {c : Config} {P : State → Prop} (setMem : ∀ s a v, P s → P (s.setMem a v))
    (overrides : List (Text × Int)) {s t : State} (h : overrideMem c overrides s = .ok t) (hs : P s) : P t := by
  induction overrides generalizing s with
  | nil => cases h; exact hs
  | cons e rest ih =>
    obtain ⟨key, v⟩ := e
    rw [overrideMem] at h
    split at h
    · exact ih h (setMem _ _ _ hs)
    · cases h

/-- What holds of the initial state and is kept by setting registers and words holds of every created state. -/
theorem create_induction {c : Config} {src : Text} {p : Program} {ro mo : List (Text × Int)} {P : State → Prop}
    (initial : P (State.initial c src p)) (setReg : ∀ s r v, P s → P (s.setReg r v))
    (setMem : ∀ s a v, P s → P (s.setMem a v)) {s : State} (h : create c src p ro mo = .ok s) : P s := by
  rw [create] at h
  split at h
  · next u hu => exact overrideMem_induction setMem mo h (overrideRegs_induction setReg ro hu initial)
  · cases h

theorem create_output {c : Config} {src : Text} {p : Program} {ro mo : List (Text × Int)} {s : State}
    (h : create c src p ro mo = .ok s) : s.output = [] :=
  create_induction (P := fun s => s.output = []) rfl (fun _ _ _ hs => hs) (fun _ _ _ hs => hs) h

theorem create_error {c : Config} {src : Text} {p : Program} {ro mo : List (Text × Int)} {s : State}
    (h : create c src p ro mo = .ok s) : s.error = none :=
  create_induction (P := fun s => s.error = none) rfl (fun _ _ _ hs => hs) (fun _ _ _ hs => hs) h

variable {s t : State} {i : Instr}

/-! ## The status -/

/-- From a ready state, only the halt of selector 10 leads to `halted` and only an unknown selector to `error`. -/
theorem exec_status_iff (hs : s.status = .ready) (h : exec i s = .next t) :
    (t.status = .halted ↔ i = .syscall ∧ s.readReg .v0 = 10#32) ∧
    (t.status = .error ↔ i = .syscall ∧ s.readReg .v0 ∉ [1#32, 4#32, 10#32, 11#32]) := by
  rcases exec_cases h with ⟨rd, v, hd, -, rfl⟩ | ⟨rs, m, rfl, rfl⟩ | ⟨-, -, hi, target, rfl⟩ |
    ⟨rfl, hv, added, rfl⟩ | ⟨rfl, hv, rfl⟩ | ⟨rfl, hv, rfl⟩
  · have hi : i ≠ .syscall := by rintro rfl; cases hd
    simp [hs, hi]
  · simp [hs]
  · simp [hs, hi]
  · have ne : s.readReg .v0 ≠ 10#32 := fun e => absurd (e ▸ hv) (by decide)
    have known : s.readReg .v0 ∈ [1#32, 4#32, 10#32, 11#32] :=
      (by decide : [1#32, 4#32, 11#32] ⊆ [1#32, 4#32, 10#32, 11#32]) hv
    simp [hs, ne, known, -List.mem_cons]
  · simp [hv]
  · have ne : s.readReg .v0 ≠ 10#32 := fun e => absurd (e ▸ hv) (by decide)
    simp [ne, hv, -List.mem_cons]

/-- Settles O43, by the five things a step can do; a step that runs an instruction moves the status as the instruction
does. -/
theorem statusTransitionsAreExact : Obligations.StatusTransitionsAreExact := by
  unfold Obligations.StatusTransitionsAreExact
  intro s t h
  rcases step_cases h with ⟨hs, rfl⟩ | ⟨hs, hf, rfl⟩ | ⟨hs, ⟨line, hf⟩, hb, rfl⟩ | ⟨line, e, hs, hf, hb, hd, rfl⟩ |
    ⟨line, i, u, hs, hf, hb, hd, hx, rfl⟩
  · exact ⟨fun _ => rfl, fun hr => absurd hr hs⟩
  all_goals refine ⟨fun hn => absurd hs hn, fun _ => ?_⟩
  · have outside := State.fetch_none.mp hf
    simp [outside, Nat.not_lt.mpr outside]
  · have inside := State.fetch_some hf
    simp [inside, hb, Nat.not_le.mpr inside, Nat.not_lt.mpr hb]
  · have inside := State.fetch_some hf
    rw [State.fetch] at hf
    simp [hf, hd, hb, Nat.not_le.mpr inside]
  · have inside := State.fetch_some hf
    rw [State.fetch] at hf
    obtain ⟨halted, error⟩ := exec_status_iff hs hx
    simp [halted, error, hf, hd, hb, Nat.not_le.mpr inside, Nat.not_le.mpr hb]

/-! ## The error message

Status and message change together, and only on entry into the error state (60_exceptions R152). -/

theorem exec_error_of_ready (hs : s.status = .ready) (h : exec i s = .next t) :
    (t.status ≠ .error ∧ t.error = s.error) ∨ (t.status = .error ∧ ∃ cause, t.error = some (npad.errorText cause)) := by
  rcases exec_cases h with ⟨_, _, _, _, rfl⟩ | ⟨_, _, _, rfl⟩ | ⟨_, _, _, _, rfl⟩ | ⟨_, _, _, rfl⟩ | ⟨_, _, rfl⟩ |
    ⟨_, _, rfl⟩
  case inr.inr.inr.inr.inr => exact .inr ⟨rfl, _, rfl⟩
  all_goals exact .inl ⟨by simp [hs], rfl⟩

theorem step_error_of_ready (hs : s.status = .ready) (h : step s = .next t) :
    (t.status ≠ .error ∧ t.error = s.error) ∨ (t.status = .error ∧ ∃ cause, t.error = some (npad.errorText cause)) := by
  rcases step_cases h with ⟨hn, -⟩ | ⟨-, -, rfl⟩ | ⟨-, -, -, rfl⟩ | ⟨_, _, -, -, -, -, rfl⟩ |
    ⟨_, _, u, -, -, -, -, hx, rfl⟩
  · exact absurd hs hn
  · exact .inl ⟨nofun, rfl⟩
  · exact .inr ⟨rfl, _, rfl⟩
  · exact .inr ⟨rfl, _, rfl⟩
  · exact exec_error_of_ready (t := u) hs hx

/-- A step from a state that is not ready changes nothing (40_execution_cycle R113). -/
theorem step_eq_of_not_ready (hs : s.status ≠ .ready) (h : step s = .next t) : t = s := by
  rcases step_cases h with ⟨-, rfl⟩ | ⟨hr, _⟩ | ⟨hr, _⟩ | ⟨_, _, hr, _⟩ | ⟨_, _, _, hr, _⟩
  · rfl
  all_goals exact absurd hr hs

/-- Settles O49: a ready state has no message to lose, and a state that is not ready steps to itself. -/
theorem errorMessageIsSetOnce : Obligations.ErrorMessageIsSetOnce := by
  unfold Obligations.ErrorMessageIsSetOnce
  refine ⟨fun _ _ _ _ _ _ => create_error, fun s t ok h => ?_⟩
  have none_of_ne : s.status ≠ .error → s.error = none := fun hn => Classical.not_not.mp fun he => hn (ok.mpr he)
  by_cases hs : s.status = .ready
  · have absent : s.error = none := none_of_ne (by simp [hs])
    rw [absent]
    rcases step_error_of_ready hs h with ⟨ne, same⟩ | ⟨failed, cause⟩
    · exact ⟨fun _ => same.trans absent, fun _ failed => absurd failed ne, nofun⟩
    · exact ⟨fun ne => absurd failed ne, fun _ _ => cause, nofun⟩
  · obtain rfl := step_eq_of_not_ready hs h
    exact ⟨none_of_ne, fun hr => absurd hr hs, fun _ => id⟩

/-! ## The output

Three services print (45_syscall R144, R145, R147); no other path through a step reaches the output. -/

theorem exec_output_cases (h : exec i s = .next t) :
    t.output = s.output ∨
    (i = .syscall ∧ s.readReg .v0 ∈ [1#32, 4#32, 11#32] ∧ ∃ added, t.output = s.output ++ added) := by
  rcases exec_cases h with ⟨_, _, _, _, rfl⟩ | ⟨_, _, _, rfl⟩ | ⟨_, _, _, _, rfl⟩ | ⟨hi, hv, added, rfl⟩ |
    ⟨_, _, rfl⟩ | ⟨_, _, rfl⟩
  case inr.inr.inr.inl => exact .inr ⟨hi, hv, added, rfl⟩
  all_goals exact .inl rfl

theorem step_output_cases (h : step s = .next t) :
    t.output = s.output ∨
    ((∃ line, s.program.instrs[s.pc]? = some line ∧ decode npad s.program line = .ok .syscall ∧
      s.readReg .v0 ∈ [1#32, 4#32, 11#32]) ∧ ∃ added, t.output = s.output ++ added) := by
  rcases step_cases h with ⟨_, rfl⟩ | ⟨_, _, rfl⟩ | ⟨_, _, _, rfl⟩ | ⟨_, _, _, _, _, _, rfl⟩ |
    ⟨line, i, u, -, hf, -, hd, hx, rfl⟩
  case inr.inr.inr.inr =>
    rcases exec_output_cases hx with same | ⟨rfl, hv, printed⟩
    · exact .inl same
    · exact .inr ⟨⟨line, hf, hd, hv⟩, printed⟩
  all_goals exact .inl rfl

/-- Settles O48: a step that leaves the output has appended the empty text. -/
theorem outputIsAppendOnly : Obligations.OutputIsAppendOnly := by
  unfold Obligations.OutputIsAppendOnly
  refine ⟨fun _ _ _ _ _ _ => create_output, fun s t h => ?_⟩
  rcases step_output_cases h with same | ⟨printing, added, ht⟩
  · exact ⟨[], by rw [same, List.append_nil], fun ne => absurd rfl ne⟩
  · exact ⟨added, ht, fun _ => printing⟩

end Sys2Proof.Machine
end

section
/-!
PROOFS. The memory family (spec 20_memory R64): the Program and its source are immutable once loaded.
-/

namespace Sys2Proof.Machine

variable {s t : State} {i : Instr}

/-- Each kind of effect in `exec_cases` updates other fields of the state; a store is one of them. -/
theorem exec_program_source (h : exec i s = .next t) : t.program = s.program ∧ t.source = s.source := by
  rcases exec_cases h with ⟨rd, v, -, -, rfl⟩ | ⟨rs, m, -, rfl⟩ | ⟨-, -, -, target, rfl⟩ | ⟨-, -, added, rfl⟩ |
    ⟨-, -, rfl⟩ | ⟨-, -, rfl⟩
  all_goals exact ⟨rfl, rfl⟩

theorem step_program_source (h : step s = .next t) : t.program = s.program ∧ t.source = s.source := by
  rcases step_cases h with ⟨-, rfl⟩ | ⟨-, -, rfl⟩ | ⟨-, -, -, rfl⟩ | ⟨line, e, -, -, -, -, rfl⟩ |
    ⟨line, i, u, -, -, -, -, hx, rfl⟩
  case inr.inr.inr.inr => simpa using exec_program_source hx
  all_goals exact ⟨rfl, rfl⟩

theorem Runs.program_eq (h : Runs s t) : t.program = s.program := by
  induction h with
  | done => rfl
  | step _ first _ ih => exact ih.trans (step_program_source first).1

/-- Settles O47: every instruction keeps Program and source, hence every step, hence by induction every run. -/
theorem programIsNeverWritten : Obligations.ProgramIsNeverWritten := by
  unfold Obligations.ProgramIsNeverWritten
  exact ⟨fun _ _ _ => exec_program_source, fun _ _ => step_program_source, fun _ _ => Runs.program_eq⟩

end Sys2Proof.Machine
end

section
/-!
PROOFS. The encoding family (spec 30_encoding R84, R86, R92): each decoder of the dispatch on the mnemonic, as an `↔` with its
pattern of the grammar, hence the decoder rejects what no pattern spells.
-/

namespace Sys2Proof.Machine

/-! ## What each format's decoder answers on the text after the mnemonic -/

section Decoders

variable {p : Program} {m l : Text} {x : Except Cause Instr} (hm : ∀ ch ∈ m, isSpace ch = false) (hl : mnemonicOf l = m)
include hm hl

theorem decodeLi_eq_some_iff :
    decodeLi npad (bodyOf l) = some x ↔
      ∃ rd t, spells npad (patternRI m rd t) l ∧ (decodeImmediate t).map (.li rd) = x := by
  simp only [decodeLi, Option.bind_eq_some_iff, Option.map_eq_some_iff, Prod.exists, patternRI_iff hm, hl, true_and]
  exact ⟨fun ⟨rd, u, hu, t, ht, hx⟩ => ⟨rd, t, ⟨u, hu, ht⟩, hx⟩, fun ⟨rd, t, ⟨u, hu, ht⟩, hx⟩ => ⟨rd, u, hu, t, ht, hx⟩⟩

theorem decodeLa_eq_some_iff :
    decodeLa npad p (bodyOf l) = some x ↔
      ∃ rd t, spells npad (patternRI m rd t) l ∧ (decodeDataLabel p t).map (.la rd) = x := by
  simp only [decodeLa, Option.bind_eq_some_iff, Option.map_eq_some_iff, Prod.exists, patternRI_iff hm, hl, true_and]
  exact ⟨fun ⟨rd, u, hu, t, ht, hx⟩ => ⟨rd, t, ⟨u, hu, ht⟩, hx⟩, fun ⟨rd, t, ⟨u, hu, ht⟩, hx⟩ => ⟨rd, u, hu, t, ht, hx⟩⟩

theorem decodeMove_eq_some_iff :
    decodeMove npad (bodyOf l) = some x ↔ ∃ rd rs, spells npad (patternRR m rd rs) l ∧ .ok (.move rd rs) = x := by
  simp only [decodeMove, Option.bind_eq_some_iff, Option.map_eq_some_iff, Prod.exists, patternRR_iff hm, hl, true_and]
  exact ⟨fun ⟨rd, u, hu, rs, hs, hx⟩ => ⟨rd, rs, ⟨u, hu, hs⟩, hx⟩,
    fun ⟨rd, rs, ⟨u, hu, hs⟩, hx⟩ => ⟨rd, u, hu, rs, hs, hx⟩⟩

theorem decodeAddi_eq_some_iff :
    decodeAddi npad (bodyOf l) = some x ↔
      ∃ rd rs t, spells npad (patternRRI m rd rs t) l ∧ (decodeImmediate t).map (.addi rd rs) = x := by
  simp only [decodeAddi, Option.bind_eq_some_iff, Option.map_eq_some_iff, Prod.exists, patternRRI_iff hm, hl, true_and]
  exact ⟨fun ⟨rd, u, hu, rs, v, hv, t, ht, hx⟩ => ⟨rd, rs, t, ⟨u, hu, v, hv, ht⟩, hx⟩,
    fun ⟨rd, rs, t, ⟨u, hu, v, hv, ht⟩, hx⟩ => ⟨rd, u, hu, rs, v, hv, t, ht, hx⟩⟩

theorem decodeBranch_eq_some_iff {op : Reg → Reg → Nat → Instr} :
    decodeBranch npad p op (bodyOf l) = some x ↔
      ∃ rs rt t, spells npad (patternRRI m rs rt t) l ∧ (decodeTextLabel p t).map (op rs rt) = x := by
  simp only [decodeBranch, Option.bind_eq_some_iff, Option.map_eq_some_iff, Prod.exists, patternRRI_iff hm, hl, true_and]
  exact ⟨fun ⟨rs, u, hu, rt, v, hv, t, ht, hx⟩ => ⟨rs, rt, t, ⟨u, hu, v, hv, ht⟩, hx⟩,
    fun ⟨rs, rt, t, ⟨u, hu, v, hv, ht⟩, hx⟩ => ⟨rs, u, hu, rt, v, hv, t, ht, hx⟩⟩

theorem decodeThreeRegs_eq_some_iff {op : Reg → Reg → Reg → Instr} :
    decodeThreeRegs npad op (bodyOf l) = some x ↔
      ∃ rd rs rt, spells npad (patternRRR m rd rs rt) l ∧ .ok (op rd rs rt) = x := by
  simp only [decodeThreeRegs, Option.bind_eq_some_iff, Option.map_eq_some_iff, Prod.exists, patternRRR_iff hm, hl, true_and]
  exact ⟨fun ⟨rd, u, hu, rs, v, hv, rt, ht, hx⟩ => ⟨rd, rs, rt, ⟨u, hu, v, hv, ht⟩, hx⟩,
    fun ⟨rd, rs, rt, ⟨u, hu, v, hv, ht⟩, hx⟩ => ⟨rd, u, hu, rs, v, hv, rt, ht, hx⟩⟩

theorem decodeJ_eq_some_iff :
    decodeJ p (bodyOf l) = some x ↔ ∃ t, spells npad (patternL m t) l ∧ (decodeTextLabel p t).map .j = x := by
  simp only [decodeJ, Option.map_eq_some_iff, patternL_iff hm, hl, true_and]

/-- `(.+)` also captures blanks before the operand, which the decoder drops. -/
theorem decodeAccess_eq_some_iff {op : Reg → MemOperand → Instr} (trimmed : trim l = l) :
    decodeAccess npad p op (bodyOf l) = some x ↔
      ∃ r t, spells npad (patternRM m r t) l ∧ (parseMem npad p (trim t)).map (op r) = x := by
  simp only [decodeAccess, restEnd, Option.bind_eq_some_iff, Option.map_eq_some_iff, Prod.exists,
    Option.ite_none_right_eq_some, bne_iff_ne, Option.some.injEq]
  constructor
  · rintro ⟨r, u, hu, _, ⟨hne, rfl⟩, hx⟩
    have spelt := patternRM_of hm hl hu hne
    obtain ⟨-, hu', -⟩ := patternRM_imp hm trimmed spelt
    have same : trim u = u := by simpa [hu] using hu'.symm
    exact ⟨r, u, spelt, by rwa [same]⟩
  · rintro ⟨r, t, spelt, hx⟩
    obtain ⟨-, hu, hne⟩ := patternRM_imp hm trimmed spelt
    exact ⟨r, trim t, hu, trim t, ⟨hne, rfl⟩, hx⟩

theorem decodeSyscall_eq_some_iff (trimmed : trim l = l) :
    decodeSyscall (bodyOf l) = some x ↔ spells npad (patternN m) l ∧ .ok .syscall = x := by
  simp only [decodeSyscall, Option.ite_none_right_eq_some, Option.some.injEq, patternN_iff hm trimmed, hl, true_and]

end Decoders

/-! ## The dispatch on the mnemonic -/

/-- The branches of `matchPattern` stand in the order of the rows: each is its row, or the mnemonic is a later row's. -/
theorem matchesSomeRow_of_matchPattern {p : Program} {l : Text} {x : Except Cause Instr} (trimmed : trim l = l)
    (h : matchPattern npad p (mnemonicOf l) (bodyOf l) = some x) : matchesSomeRow l := by
  unfold matchPattern at h
  rcases ite_eq_iff.mp h with ⟨li, h⟩ | ⟨-, h⟩
  · obtain ⟨rd, t, row, -⟩ := (decodeLi_eq_some_iff (noSpace_of_all rfl) li).mp h
    exact .inl ⟨rd, t, row⟩
  right
  rcases ite_eq_iff.mp h with ⟨la, h⟩ | ⟨-, h⟩
  · obtain ⟨rd, t, row, -⟩ := (decodeLa_eq_some_iff (noSpace_of_all rfl) la).mp h
    exact .inl ⟨rd, t, row⟩
  right
  rcases ite_eq_iff.mp h with ⟨move, h⟩ | ⟨-, h⟩
  · obtain ⟨rd, rs, row, -⟩ := (decodeMove_eq_some_iff (noSpace_of_all rfl) move).mp h
    exact .inl ⟨rd, rs, row⟩
  right
  rcases ite_eq_iff.mp h with ⟨addi, h⟩ | ⟨-, h⟩
  · obtain ⟨rd, rs, t, row, -⟩ := (decodeAddi_eq_some_iff (noSpace_of_all rfl) addi).mp h
    exact .inl ⟨rd, rs, t, row⟩
  right
  rcases ite_eq_iff.mp h with ⟨add, h⟩ | ⟨-, h⟩
  · obtain ⟨rd, rs, rt, row, -⟩ := (decodeThreeRegs_eq_some_iff (noSpace_of_all rfl) add).mp h
    exact .inl ⟨rd, rs, rt, row⟩
  right
  rcases ite_eq_iff.mp h with ⟨sub, h⟩ | ⟨-, h⟩
  · obtain ⟨rd, rs, rt, row, -⟩ := (decodeThreeRegs_eq_some_iff (noSpace_of_all rfl) sub).mp h
    exact .inl ⟨rd, rs, rt, row⟩
  right
  rcases ite_eq_iff.mp h with ⟨lw, h⟩ | ⟨-, h⟩
  · obtain ⟨rd, m, row, -⟩ := (decodeAccess_eq_some_iff (noSpace_of_all rfl) lw trimmed).mp h
    exact .inl ⟨rd, m, row⟩
  right
  rcases ite_eq_iff.mp h with ⟨sw, h⟩ | ⟨-, h⟩
  · obtain ⟨rs, m, row, -⟩ := (decodeAccess_eq_some_iff (noSpace_of_all rfl) sw trimmed).mp h
    exact .inl ⟨rs, m, row⟩
  right
  rcases ite_eq_iff.mp h with ⟨beq, h⟩ | ⟨-, h⟩
  · obtain ⟨rs, rt, t, row, -⟩ := (decodeBranch_eq_some_iff (noSpace_of_all rfl) beq).mp h
    exact .inl ⟨rs, rt, t, row⟩
  right
  rcases ite_eq_iff.mp h with ⟨bne, h⟩ | ⟨-, h⟩
  · obtain ⟨rs, rt, t, row, -⟩ := (decodeBranch_eq_some_iff (noSpace_of_all rfl) bne).mp h
    exact .inl ⟨rs, rt, t, row⟩
  right
  rcases ite_eq_iff.mp h with ⟨j, h⟩ | ⟨-, h⟩
  · obtain ⟨t, row, -⟩ := (decodeJ_eq_some_iff (noSpace_of_all rfl) j).mp h
    exact .inl ⟨t, row⟩
  right
  rcases ite_eq_iff.mp h with ⟨syscall, h⟩ | ⟨-, h⟩
  · exact ((decodeSyscall_eq_some_iff (noSpace_of_all rfl) syscall trimmed).mp h).1
  · cases h

/-- Settles O14: where the dispatch answers at all, the line matches a row; otherwise `decode` is left with the error of R92. -/
theorem lineOfNoPatternIsUnsupported : Obligations.LineOfNoPatternIsUnsupported := by
  unfold Obligations.LineOfNoPatternIsUnsupported
  intro p line unmatched
  rw [decode_eq]
  cases h : matchPattern npad p (mnemonicOf (trim line)) (bodyOf (trim line)) with
  | none => rfl
  | some x => exact absurd (matchesSomeRow_of_matchPattern (trim_trim line) h) unmatched

end Sys2Proof.Machine
end

section
/-!
PROOFS. The execution cycle family (spec 40_execution_cycle R112 to R114): the zero register, terminal states, and
`runToEnd`, whose fuel the step counter bounds.
-/

namespace Sys2Proof.Machine

variable {s t : State} {i : Instr} {c : Config} {execute : Instr → State → Host.Outcome State Fault Refusal}
  {next : State → Host.Outcome State Fault Refusal} {fuel : Nat}

/-! ## Terminal states -/

theorem Status.ne_ready_iff {x : Status} : x ≠ .ready ↔ x = .halted ∨ x = .error := by
  cases x <;> decide

theorem cycle_of_not_ready (hs : s.status ≠ .ready) : cycle c execute s = .next s := if_pos hs

/-- Settles O37: the status is the first thing a cycle looks at. -/
theorem terminalStateIsUnchanged : Obligations.TerminalStateIsUnchanged := by
  unfold Obligations.TerminalStateIsUnchanged
  exact fun s hs => cycle_of_not_ready (Status.ne_ready_iff.mpr hs)

/-! ## The zero register -/

@[simp] theorem State.regSlot_zero_setReg (s : State) (r : Reg) (v : Word) :
    (s.setReg r v).regSlot .zero = s.regSlot .zero := by
  by_cases hz : r = .zero
  · subst hz; rfl
  · exact State.regSlot_setReg_other s v (Ne.symm hz)

theorem State.regSlot_zero_retire (s : State) : s.retire.regSlot .zero = 0#32 := by simp

/-- Only the register write of `exec_cases` touches the register file, and it passes over `$zero`. -/
theorem exec_regSlot_zero (h : exec i s = .next t) : t.regSlot .zero = s.regSlot .zero := by
  rcases exec_cases h with ⟨rd, v, -, -, rfl⟩ | ⟨rs, m, -, rfl⟩ | ⟨-, -, -, target, rfl⟩ | ⟨-, -, added, rfl⟩ |
    ⟨-, -, rfl⟩ | ⟨-, -, rfl⟩
  case inl => exact State.regSlot_zero_setReg s rd v
  all_goals rfl

/-- A step that reaches fetch ends with `retire`, whether its line decodes or not. -/
theorem step_regSlot_zero (hs : s.status = .ready) (inside : s.pc < s.program.instrs.length)
    (hb : s.steps < npad.maxSteps) (h : step s = .next t) : t.regSlot .zero = 0#32 := by
  rcases step_cases h with ⟨hn, -⟩ | ⟨-, hf, -⟩ | ⟨-, -, bound, -⟩ | ⟨line, e, -, -, -, -, rfl⟩ |
    ⟨line, i, u, -, -, -, -, -, rfl⟩
  · exact absurd hs hn
  · exact absurd inside (Nat.not_lt.mpr (State.fetch_none.mp hf))
  · exact absurd hb (Nat.not_lt.mpr bound)
  · exact State.regSlot_zero_retire (s.raise npad e)
  · exact State.regSlot_zero_retire u

/-- Settles O46: `retire` clears the place, the register write leaves it alone, and a read does not look at it. -/
theorem zeroRegisterIsReasserted : Obligations.ZeroRegisterIsReasserted := by
  unfold Obligations.ZeroRegisterIsReasserted
  exact ⟨fun _ _ => step_regSlot_zero, fun _ _ _ => exec_regSlot_zero, State.readReg_zero⟩

/-! ## Totality

A cycle answers a next state wherever its execute function does (40_execution_cycle R105). -/

theorem exec_total (i : Instr) (s : State) : ∃ t, exec i s = .next t := by
  cases i <;> exact ⟨_, rfl⟩

theorem cycle_total (total : ∀ i, ∃ t, execute i s = .next t) : ∃ t, cycle c execute s = .next t := by
  unfold cycle
  split
  · exact ⟨_, rfl⟩
  · split
    · exact ⟨_, rfl⟩
    · split
      · exact ⟨_, rfl⟩
      · split
        · exact ⟨_, rfl⟩
        · next i _ =>
          obtain ⟨u, hu⟩ := total i
          exact ⟨u.retire, by rw [hu, retireOutcome]⟩

theorem step_total (s : State) : ∃ t, step s = .next t := cycle_total fun i => exec_total i s

/-! ## The step counter -/

theorem exec_steps (h : exec i s = .next t) : t.steps = s.steps := by
  rcases exec_cases h with ⟨rd, v, -, -, rfl⟩ | ⟨rs, m, -, rfl⟩ | ⟨-, -, -, target, rfl⟩ | ⟨-, -, added, rfl⟩ |
    ⟨-, -, rfl⟩ | ⟨-, -, rfl⟩
  all_goals rfl

/-- The step function counts up to the bound every step that leaves a ready state ready: what ends a run. -/
def CountsReadySteps (bound : Nat) (next : State → Host.Outcome State Fault Refusal) : Prop :=
  ∀ s t : State, s.status = .ready → t.status = .ready → next s = .next t → s.steps < bound ∧ t.steps = s.steps + 1

/-- Every other way through the cycle leaves the ready state. -/
theorem cycle_countsReadySteps (keeps : ∀ i s u, execute i s = .next u → u.steps = s.steps) :
    CountsReadySteps c.maxSteps (cycle c execute) := by
  intro s t hs ht h
  rcases cycle_cases h with ⟨hn, -⟩ | ⟨-, -, rfl⟩ | ⟨-, -, -, rfl⟩ | ⟨line, e, -, -, -, -, rfl⟩ |
    ⟨line, i, u, -, -, hb, -, hx, rfl⟩
  · exact absurd hs hn
  · cases ht
  · cases ht
  · cases ht
  · exact ⟨hb, congrArg (· + 1) (keeps i s u hx)⟩

theorem step_countsReadySteps : CountsReadySteps npad.maxSteps step := cycle_countsReadySteps fun _ _ _ => exec_steps

/-! ## Runs of at most `fuel` steps -/

theorem runStepsOf_of_not_ready (hs : s.status ≠ .ready) : runStepsOf next fuel s = .next s := by
  cases fuel with
  | zero => rfl
  | succ fuel => exact if_neg hs

theorem runStepsOf_succ (hs : s.status = .ready) (h : next s = .next t) :
    runStepsOf next (fuel + 1) s = runStepsOf next fuel t := by
  rw [runStepsOf, if_pos hs, h]

/-- More fuel than the counter is below the bound is enough to leave the ready state. -/
theorem runStepsOf_terminates {bound : Nat} (total : ∀ s, ∃ t, next s = .next t) (counts : CountsReadySteps bound next)
    (enough : bound - s.steps < fuel) : ∃ t, runStepsOf next fuel s = .next t ∧ t.status ≠ .ready := by
  induction fuel generalizing s with
  | zero => exact absurd enough (Nat.not_lt_zero _)
  | succ fuel ih =>
    by_cases hs : s.status = .ready
    · obtain ⟨t, first⟩ := total s
      rw [runStepsOf_succ hs first]
      by_cases ht : t.status = .ready
      · obtain ⟨below, counted⟩ := counts s t hs ht first
        exact ih (by omega)
      · exact ⟨t, runStepsOf_of_not_ready ht, ht⟩
    · exact ⟨s, runStepsOf_of_not_ready hs, hs⟩

theorem Runs.of_runSteps (h : runSteps fuel s = .next t) : Runs s t := by
  unfold runSteps at h
  induction fuel generalizing s with
  | zero => cases h; exact .done _
  | succ fuel ih =>
    by_cases hs : s.status = .ready
    · obtain ⟨u, first⟩ := step_total s
      rw [runStepsOf_succ hs first] at h
      exact .step hs first (ih h)
    · rw [runStepsOf_of_not_ready hs] at h
      cases h
      exact .done _

/-- Settles O55: the fuel of `runToEnd` is one more than the counter is below the bound, and what it answers is reached by
steps. -/
theorem runToEndReachesATerminalState : Obligations.RunToEndReachesATerminalState := by
  unfold Obligations.RunToEndReachesATerminalState
  intro s
  obtain ⟨t, ran, ended⟩ :=
    runStepsOf_terminates step_total step_countsReadySteps (Nat.lt_succ_self (npad.maxSteps - s.steps))
  exact ⟨t, ran, Runs.of_runSteps ran, Status.ne_ready_iff.mp ended⟩

end Sys2Proof.Machine
end

section
/-!
PROOFS. The family of immediate, address and register moves (spec 41_move_immediate R119 to R121). The first two parts serve
every instruction: how a line's mnemonic decides its decoding, and the effect of a register write.
-/

namespace Sys2Proof.Machine

/-! ## Decoding a line whose mnemonic is known -/

section Decoding

variable {p : Program} {m line tok : Text} {rd rs : Reg} {x : Except Cause Instr}

theorem decode_of_matchPattern (hm : mnemonicOf (trim line) = m)
    (h : matchPattern npad p m (bodyOf (trim line)) = some x) : decode npad p line = x := by
  rw [decode_eq, hm, h]

/-- Where the mnemonic's decoder answers only on lines of its pattern, it rejects every other line (30_encoding R92). -/
theorem rejectsOthers_of_matchPattern {matched : Text → Prop}
    (only : ∀ p l x, trim l = l → mnemonicOf l = m → matchPattern npad p m (bodyOf l) = some x → matched l) :
    RejectsOthers m matched := by
  intro p line hm unmatched
  rw [decode_eq, hm]
  cases h : matchPattern npad p m (bodyOf (trim line)) with
  | none => rfl
  | some x => exact absurd (only p _ x (trim_trim line) hm h) unmatched

theorem decode_of_rowLi (row : rowLi (trim line) rd tok) :
    decode npad p line = (decodeImmediate tok).map (.li rd) := by
  have hm := ((patternRI_iff (noSpace_of_all rfl)).mp row).1
  exact decode_of_matchPattern hm ((decodeLi_eq_some_iff (noSpace_of_all rfl) hm).mpr ⟨rd, tok, row, rfl⟩)

theorem decode_of_rowLa (row : rowLa (trim line) rd tok) :
    decode npad p line = (decodeDataLabel p tok).map (.la rd) := by
  have hm := ((patternRI_iff (noSpace_of_all rfl)).mp row).1
  exact decode_of_matchPattern hm ((decodeLa_eq_some_iff (noSpace_of_all rfl) hm).mpr ⟨rd, tok, row, rfl⟩)

theorem decode_of_rowMove (row : rowMove (trim line) rd rs) : decode npad p line = .ok (.move rd rs) := by
  have hm := ((patternRR_iff (noSpace_of_all rfl)).mp row).1
  exact decode_of_matchPattern hm ((decodeMove_eq_some_iff (noSpace_of_all rfl) hm).mpr ⟨rd, rs, row, rfl⟩)

end Decoding

theorem rejectsOthers_li : RejectsOthers (chars ['l', 'i']) fun l => ∃ rd tok, rowLi l rd tok := by
  refine rejectsOthers_of_matchPattern fun p l x _ hm h => ?_
  obtain ⟨rd, tok, row, -⟩ := (decodeLi_eq_some_iff (noSpace_of_all rfl) hm).mp h
  exact ⟨rd, tok, row⟩

theorem rejectsOthers_la : RejectsOthers (chars ['l', 'a']) fun l => ∃ rd tok, rowLa l rd tok := by
  refine rejectsOthers_of_matchPattern fun p l x _ hm h => ?_
  obtain ⟨rd, tok, row, -⟩ := (decodeLa_eq_some_iff (noSpace_of_all rfl) hm).mp h
  exact ⟨rd, tok, row⟩

theorem rejectsOthers_move : RejectsOthers (chars ['m', 'o', 'v', 'e']) fun l => ∃ rd rs, rowMove l rd rs := by
  refine rejectsOthers_of_matchPattern fun p l x _ hm h => ?_
  obtain ⟨rd, rs, row, -⟩ := (decodeMove_eq_some_iff (noSpace_of_all rfl) hm).mp h
  exact ⟨rd, rs, row⟩

/-! ## The effect of a register write -/

variable (s : State) (rd : Reg) (v : Word)

@[simp] theorem State.regSlot_advance (r : Reg) : s.advance.regSlot r = s.regSlot r := rfl
@[simp] theorem State.readReg_advance (r : Reg) : s.advance.readReg r = s.readReg r := rfl

/-- Every instruction with a destination register answers this state. -/
theorem regWriteEffect_writeReg_advance : RegWriteEffect s (s.writeReg rd v).advance rd v where
  value := by
    by_cases hz : rd = .zero
    · simp [hz]
    · simp [State.readReg_writeReg, hz]
  others r hr := by simp [State.readReg_writeReg, hr]
  zero hz := by
    subst hz
    exact ⟨fun _ => rfl, fun _ => rfl, rfl⟩
  mem := ⟨fun _ => rfl, rfl⟩
  output := rfl
  pc := rfl
  control := ⟨rfl, rfl, rfl, rfl, rfl⟩

theorem State.mem_touchedRegs_writeReg (hz : rd ≠ .zero) : rd ∈ (s.writeReg rd v).touchedRegs := by
  simp [hz, mem_insertOnce]

/-! ## The three moves -/

/-- Settles O21: `li` writes what its immediate decodes to. -/
theorem liLoadsItsImmediate : Obligations.LiLoadsItsImmediate := by
  unfold Obligations.LiLoadsItsImmediate
  refine ⟨fun p line rd tok row => ?_, rejectsOthers_li,
    fun rd imm s => ⟨_, exec_li s rd imm, regWriteEffect_writeReg_advance s rd imm⟩⟩
  rw [decode_of_rowLi row, decodeImmediate]
  cases parseNum tok <;> rfl

/-- Settles O22: `la` writes the address its label is resolved to. -/
theorem laLoadsTheDataAddress : Obligations.LaLoadsTheDataAddress := by
  unfold Obligations.LaLoadsTheDataAddress
  refine ⟨fun p line rd tok row => ?_, rejectsOthers_la,
    fun rd addr s => ⟨_, exec_la s rd addr, regWriteEffect_writeReg_advance s rd addr⟩⟩
  rw [decode_of_rowLa row, decodeDataLabel]
  cases p.dataLabel tok <;> rfl

/-- Settles O23: `move` writes what its source reads before the write. -/
theorem moveCopiesARegister : Obligations.MoveCopiesARegister := by
  unfold Obligations.MoveCopiesARegister
  exact ⟨fun _ _ _ _ => decode_of_rowMove, rejectsOthers_move, fun rd rs s =>
    ⟨_, exec_move s rd rs, regWriteEffect_writeReg_advance s rd (s.readReg rs),
      State.mem_touchedRegs_writeReg s rd (s.readReg rs)⟩⟩

end Sys2Proof.Machine
end

section
/-!
PROOFS. The ALU family (spec 42_alu R122, R126 to R128): the wrap as an integer formula, and `addi`, `add` and `sub`. The
decoding of `add` and `sub` is proved once, over the format of three registers.
-/

namespace Sys2Proof.Machine

/-! ## The wrap -/

theorem toInt_norm32 (v : Int) : (norm32 v).toInt = (v + 2 ^ 31) % 2 ^ 32 - 2 ^ 31 := by
  have wrap : (norm32 v).toInt = v.bmod (2 ^ 32) := BitVec.toInt_ofInt v
  rw [wrap, Int.bmod_def]
  split <;> omega

/-- Settles O19: each signed formula is the wrap of the exact result; the unsigned ones are the bit vectors' own sum and
difference. -/
theorem aluComputesExactlyAndWraps : Obligations.AluComputesExactlyAndWraps := by
  unfold Obligations.AluComputesExactlyAndWraps
  refine ⟨toInt_norm32, fun a b => toInt_norm32 (a.toInt + b.toInt), fun a b => toInt_norm32 (a.toInt - b.toInt),
    fun a b => ⟨?_, ?_⟩, fun a b => ⟨?_, ?_⟩⟩
  · rw [aluAdd_eq_add, BitVec.toNat_add]
  · rw [aluSub_eq_sub, BitVec.toNat_sub]
  · rw [aluEq_iff, BitVec.toInt_inj]
  · rw [aluEq_iff, BitVec.toNat_inj]

/-! ## Decoding -/

section Decoding

variable {p : Program} {m line tok : Text} {rd rs rt : Reg} {op : Reg → Reg → Reg → Instr}

theorem decode_of_rowAddi (row : rowAddi (trim line) rd rs tok) :
    decode npad p line = (decodeImmediate tok).map (.addi rd rs) := by
  have hm := ((patternRRI_iff (noSpace_of_all rfl)).mp row).1
  exact decode_of_matchPattern hm ((decodeAddi_eq_some_iff (noSpace_of_all rfl) hm).mpr ⟨rd, rs, tok, row, rfl⟩)

theorem rejectsOthers_addi :
    RejectsOthers (chars ['a', 'd', 'd', 'i']) fun l => ∃ rd rs tok, rowAddi l rd rs tok := by
  refine rejectsOthers_of_matchPattern fun p l x _ hm h => ?_
  obtain ⟨rd, rs, tok, row, -⟩ := (decodeAddi_eq_some_iff (noSpace_of_all rfl) hm).mp h
  exact ⟨rd, rs, tok, row⟩

/-- `add` and `sub` share this: only the mnemonic and the operation differ. -/
theorem decode_of_patternRRR (hm : ∀ ch ∈ m, isSpace ch = false)
    (dispatch : ∀ t, matchPattern npad p m t = decodeThreeRegs npad op t)
    (row : spells npad (patternRRR m rd rs rt) (trim line)) : decode npad p line = .ok (op rd rs rt) := by
  have hl := ((patternRRR_iff hm).mp row).1
  refine decode_of_matchPattern hl ?_
  rw [dispatch]
  exact (decodeThreeRegs_eq_some_iff hm hl).mpr ⟨rd, rs, rt, row, rfl⟩

theorem rejectsOthers_patternRRR (hm : ∀ ch ∈ m, isSpace ch = false)
    (dispatch : ∀ p t, matchPattern npad p m t = decodeThreeRegs npad op t) :
    RejectsOthers m fun l => ∃ rd rs rt, spells npad (patternRRR m rd rs rt) l := by
  refine rejectsOthers_of_matchPattern fun p l x _ hl h => ?_
  rw [dispatch] at h
  obtain ⟨rd, rs, rt, row, -⟩ := (decodeThreeRegs_eq_some_iff hm hl).mp h
  exact ⟨rd, rs, rt, row⟩

end Decoding

theorem matchPattern_add (p : Program) (t : Text) :
    matchPattern npad p (chars ['a', 'd', 'd']) t = decodeThreeRegs npad .add t := rfl

theorem matchPattern_sub (p : Program) (t : Text) :
    matchPattern npad p (chars ['s', 'u', 'b']) t = decodeThreeRegs npad .sub t := rfl

/-! ## The three instructions

Each writes its result to one register; the result is the wrapped exact sum or difference by the definition of the ALU. -/

/-- Settles O24: the second operand of the sum is what the immediate decodes to. -/
theorem addiAddsItsImmediate : Obligations.AddiAddsItsImmediate := by
  unfold Obligations.AddiAddsItsImmediate
  refine ⟨fun p line rd rs tok row => ?_, rejectsOthers_addi, fun rd rs imm s =>
    ⟨_, exec_addi s rd rs imm, regWriteEffect_writeReg_advance s rd (aluAdd (s.readReg rs) imm)⟩⟩
  rw [decode_of_rowAddi row, decodeImmediate]
  cases parseNum tok <;> rfl

/-- Settles O25: both operands of the sum are read before the write. -/
theorem addAddsTwoRegisters : Obligations.AddAddsTwoRegisters := by
  unfold Obligations.AddAddsTwoRegisters
  exact ⟨fun p _ _ _ _ => decode_of_patternRRR (noSpace_of_all rfl) (matchPattern_add p),
    rejectsOthers_patternRRR (noSpace_of_all rfl) matchPattern_add, fun rd rs rt s =>
    ⟨_, exec_add s rd rs rt, regWriteEffect_writeReg_advance s rd (aluAdd (s.readReg rs) (s.readReg rt))⟩⟩

/-- Settles O26: both operands of the difference are read before the write. -/
theorem subSubtractsTwoRegisters : Obligations.SubSubtractsTwoRegisters := by
  unfold Obligations.SubSubtractsTwoRegisters
  exact ⟨fun p _ _ _ _ => decode_of_patternRRR (noSpace_of_all rfl) (matchPattern_sub p),
    rejectsOthers_patternRRR (noSpace_of_all rfl) matchPattern_sub, fun rd rs rt s =>
    ⟨_, exec_sub s rd rs rt, regWriteEffect_writeReg_advance s rd (aluSub (s.readReg rs) (s.readReg rt))⟩⟩

end Sys2Proof.Machine
end

section
/-!
PROOFS. The load and store family (spec 43_load_store R130, R135, R136): `lw` and `sw`. The decoding of both is proved once,
over the format of a register and a memory operand, and so is the effect of a store, over its address.
-/

namespace Sys2Proof.Machine

/-! ## Decoding -/

section Decoding

variable {p : Program} {m line t : Text} {r : Reg} {op : Reg → MemOperand → Instr}

theorem decode_of_patternRM (hm : ∀ ch ∈ m, isSpace ch = false)
    (dispatch : ∀ u, matchPattern npad p m u = decodeAccess npad p op u)
    (row : spells npad (patternRM m r t) (trim line)) :
    decode npad p line = (parseMem npad p (trim t)).map (op r) := by
  have hl := (patternRM_imp hm (trim_trim line) row).1
  refine decode_of_matchPattern hl ?_
  rw [dispatch]
  exact (decodeAccess_eq_some_iff hm hl (trim_trim line)).mpr ⟨r, t, row, rfl⟩

theorem rejectsOthers_patternRM (hm : ∀ ch ∈ m, isSpace ch = false)
    (dispatch : ∀ p u, matchPattern npad p m u = decodeAccess npad p op u) :
    RejectsOthers m fun l => ∃ r t, spells npad (patternRM m r t) l := by
  refine rejectsOthers_of_matchPattern fun p l x trimmed hl h => ?_
  rw [dispatch] at h
  obtain ⟨r, t, row, -⟩ := (decodeAccess_eq_some_iff hm hl trimmed).mp h
  exact ⟨r, t, row⟩

end Decoding

theorem matchPattern_lw (p : Program) (t : Text) :
    matchPattern npad p (chars ['l', 'w']) t = decodeAccess npad p .lw t := rfl

theorem matchPattern_sw (p : Program) (t : Text) :
    matchPattern npad p (chars ['s', 'w']) t = decodeAccess npad p .sw t := rfl

/-! ## Memory

What an unlisted address reads (20_memory R46) and what a store leaves. -/

theorem Memory.read_eq_unlisted {m : Memory} {a : Nat} (absent : ∀ e ∈ m, e.1 ≠ a) :
    Memory.read m a = Memory.unlisted := by
  induction m with
  | nil => rfl
  | cons e m ih =>
    obtain ⟨head, tail⟩ := List.forall_mem_cons.mp absent
    rw [Memory.read, if_neg head, ih tail]

theorem insertOnce_of_mem {α : Type} [DecidableEq α] {a : α} {l : List α} (h : a ∈ l) : insertOnce a l = l := if_pos h

@[simp] theorem State.memRead_advance (s : State) (a : Word) : s.advance.memRead a = s.memRead a := rfl

/-- Every `sw` answers this state. -/
theorem storeEffect_memWrite_advance {s : State} (canonical : Memory.wf s.mem) (a v : Word) :
    StoreEffect s (s.memWrite a v).advance a v where
  value := by simp [State.memRead_memWrite canonical]
  others b hb := by simp [State.memRead_memWrite canonical, hb]
  regs := ⟨fun _ => rfl, fun _ => rfl, rfl⟩
  output := rfl
  pc := rfl
  control := ⟨rfl, rfl, rfl, rfl, rfl⟩

/-! ## The two instructions

Each effect is proved for every operand; that the address of `offset(base)` is the wrapped exact sum is the definition of
`effectiveAddress`. -/

theorem exec_lw_effect (rd : Reg) (m : MemOperand) (s : State) :
    ∃ t, exec (.lw rd m) s = .next t ∧ RegWriteEffect s t rd (s.memRead (effectiveAddress s m)) :=
  ⟨_, exec_lw s rd m, regWriteEffect_writeReg_advance s rd (s.memRead (effectiveAddress s m))⟩

theorem exec_sw_effect (rs : Reg) (m : MemOperand) {s : State} (canonical : Memory.wf s.mem) :
    ∃ t, exec (.sw rs m) s = .next t ∧ StoreEffect s t (effectiveAddress s m) (s.readReg rs) :=
  ⟨_, exec_sw s rs m, storeEffect_memWrite_advance canonical (effectiveAddress s m) (s.readReg rs)⟩

theorem exec_sw_touchedMem {rs : Reg} {m : MemOperand} {s t : State} (h : exec (.sw rs m) s = .next t) :
    t.touchedMem = insertOnce (effectiveAddress s m) s.touchedMem := by
  rw [exec_sw] at h
  cases h
  rfl

/-- A load from an unlisted address reads 0, and so does `$zero` after any load. -/
theorem exec_lw_unlisted (rd : Reg) (m : MemOperand) (s : State)
    (absent : ∀ e ∈ s.mem, e.1 ≠ (effectiveAddress s m).toNat) :
    ∃ t, exec (.lw rd m) s = .next t ∧ t.readReg rd = 0#32 := by
  obtain ⟨t, ran, effect⟩ := exec_lw_effect rd m s
  have loaded : s.memRead (effectiveAddress s m) = 0#32 := Memory.read_eq_unlisted absent
  exact ⟨t, ran, by rw [effect.value, loaded, ite_self]⟩

/-- Settles O27: both operand shapes are the general effect of a load at their effective address. -/
theorem lwLoadsTheWordAtItsAddress : Obligations.LwLoadsTheWordAtItsAddress := by
  unfold Obligations.LwLoadsTheWordAtItsAddress
  refine ⟨fun p line rd m row => ?_, rejectsOthers_patternRM (noSpace_of_all rfl) matchPattern_lw,
    fun rd off base => exec_lw_effect rd (.based off base), fun rd a => exec_lw_effect rd (.abs a), exec_lw_unlisted⟩
  rw [decode_of_patternRM (noSpace_of_all rfl) (matchPattern_lw p) row]
  cases parseMem npad p (trim m) <;> rfl

/-- Settles O28: both operand shapes are the general effect of a store at their effective address, which is added to the
touched set where it is not yet in it. -/
theorem swStoresTheWordAtItsAddress : Obligations.SwStoresTheWordAtItsAddress := by
  unfold Obligations.SwStoresTheWordAtItsAddress
  refine ⟨fun p line rs m row => ?_, rejectsOthers_patternRM (noSpace_of_all rfl) matchPattern_sw,
    fun rs off base _ => exec_sw_effect rs (.based off base), fun rs a _ => exec_sw_effect rs (.abs a),
    fun rs m s t ran => ?_⟩
  · rw [decode_of_patternRM (noSpace_of_all rfl) (matchPattern_sw p) row]
    cases parseMem npad p (trim m) <;> rfl
  · rw [exec_sw_touchedMem ran]
    exact ⟨mem_insertOnce.mpr (.inl rfl), insertOnce_of_mem⟩

end Sys2Proof.Machine
end

section
/-!
PROOFS. The branch and jump family (spec 44_branch_jump R138 to R140): `beq`, `bne` and `j`. The decoding of both branches is
proved once, over the format of two registers and a label; each of the three instructions answers a move of `pc`, whose effect
is proved once, over the target.
-/

namespace Sys2Proof.Machine

/-! ## Decoding

A label is resolved before any register is read, so it fails whether or not the branch would be taken (D19). -/

section Decoding

variable {p : Program} {m line tok : Text} {rs rt : Reg} {op : Reg → Reg → Nat → Instr}

theorem decode_of_patternRRL (hm : ∀ ch ∈ m, isSpace ch = false)
    (dispatch : ∀ t, matchPattern npad p m t = decodeBranch npad p op t)
    (row : spells npad (patternRRI m rs rt tok) (trim line)) :
    decode npad p line = (decodeTextLabel p tok).map (op rs rt) := by
  have hl := ((patternRRI_iff hm).mp row).1
  refine decode_of_matchPattern hl ?_
  rw [dispatch]
  exact (decodeBranch_eq_some_iff hm hl).mpr ⟨rs, rt, tok, row, rfl⟩

theorem rejectsOthers_patternRRL (hm : ∀ ch ∈ m, isSpace ch = false)
    (dispatch : ∀ p t, matchPattern npad p m t = decodeBranch npad p op t) :
    RejectsOthers m fun l => ∃ rs rt tok, spells npad (patternRRI m rs rt tok) l := by
  refine rejectsOthers_of_matchPattern fun p l x _ hl h => ?_
  rw [dispatch] at h
  obtain ⟨rs, rt, tok, row, -⟩ := (decodeBranch_eq_some_iff hm hl).mp h
  exact ⟨rs, rt, tok, row⟩

theorem decode_of_rowJ (row : rowJ (trim line) tok) : decode npad p line = (decodeTextLabel p tok).map .j := by
  have hm := ((patternL_iff (noSpace_of_all rfl)).mp row).1
  exact decode_of_matchPattern hm ((decodeJ_eq_some_iff (noSpace_of_all rfl) hm).mpr ⟨tok, row, rfl⟩)

end Decoding

theorem matchPattern_beq (p : Program) (t : Text) :
    matchPattern npad p (chars ['b', 'e', 'q']) t = decodeBranch npad p .beq t := rfl

theorem matchPattern_bne (p : Program) (t : Text) :
    matchPattern npad p (chars ['b', 'n', 'e']) t = decodeBranch npad p .bne t := rfl

theorem rejectsOthers_j : RejectsOthers (chars ['j']) fun l => ∃ tok, rowJ l tok := by
  refine rejectsOthers_of_matchPattern fun p l x _ hm h => ?_
  obtain ⟨tok, row, -⟩ := (decodeJ_eq_some_iff (noSpace_of_all rfl) hm).mp h
  exact ⟨tok, row⟩

/-! ## The effect of a move of `pc` -/

variable (s : State)

theorem jumpEffect_jump (target : Nat) : JumpEffect s (s.jump target) target where
  pc := rfl
  regs := ⟨fun _ => rfl, fun _ => rfl, rfl⟩
  mem := ⟨fun _ => rfl, rfl⟩
  output := rfl
  control := ⟨rfl, rfl, rfl, rfl, rfl⟩

/-- A branch is the jump to its target or to the next instruction. -/
theorem State.branch_eq_jump (taken : Bool) (target : Nat) :
    s.branch taken target = s.jump (if taken then target else s.pc + 1) := rfl

theorem exec_beq_eq_jump (rs rt : Reg) (target : Nat) :
    exec (.beq rs rt target) s = .next (s.jump (if s.readReg rs = s.readReg rt then target else s.pc + 1)) := by
  simp only [exec_beq, State.branch_eq_jump, aluEq_iff]

theorem exec_bne_eq_jump (rs rt : Reg) (target : Nat) :
    exec (.bne rs rt target) s = .next (s.jump (if s.readReg rs ≠ s.readReg rt then target else s.pc + 1)) := by
  simp only [exec_bne, State.branch_eq_jump, Bool.not_eq_true', ← Bool.not_eq_true, aluEq_iff, ne_eq]

/-! ## The three instructions -/

/-- Settles O29: `beq` is the jump to its target where its registers read equal. -/
theorem beqBranchesOnEquality : Obligations.BeqBranchesOnEquality := by
  unfold Obligations.BeqBranchesOnEquality
  refine ⟨fun p line rs rt tok row => ?_, rejectsOthers_patternRRL (noSpace_of_all rfl) matchPattern_beq,
    fun rs rt target s => ⟨_, exec_beq_eq_jump s rs rt target, jumpEffect_jump s _⟩⟩
  rw [decode_of_patternRRL (noSpace_of_all rfl) (matchPattern_beq p) row, decodeTextLabel]
  cases p.textLabel tok <;> rfl

/-- Settles O30: `bne` is the jump to its target where its registers read different. -/
theorem bneBranchesOnInequality : Obligations.BneBranchesOnInequality := by
  unfold Obligations.BneBranchesOnInequality
  refine ⟨fun p line rs rt tok row => ?_, rejectsOthers_patternRRL (noSpace_of_all rfl) matchPattern_bne,
    fun rs rt target s => ⟨_, exec_bne_eq_jump s rs rt target, jumpEffect_jump s _⟩⟩
  rw [decode_of_patternRRL (noSpace_of_all rfl) (matchPattern_bne p) row, decodeTextLabel]
  cases p.textLabel tok <;> rfl

/-- Settles O31: `j` is the jump to its label's index. -/
theorem jumpSetsThePc : Obligations.JumpSetsThePc := by
  unfold Obligations.JumpSetsThePc
  refine ⟨fun p line tok row => ?_, rejectsOthers_j, fun target s => ⟨_, exec_j s target, jumpEffect_jump s target⟩⟩
  rw [decode_of_rowJ row, decodeTextLabel]
  cases p.textLabel tok <;> rfl

end Sys2Proof.Machine
end

section
/-!
PROOFS. The syscall family (spec 45_syscall R142, R143): `syscall`. What each selector does is proved once for every choice of
the parameters of 00_scope R9 with distinct service numbers; the effect of printing is proved once, over the text.
-/

namespace Sys2Proof.Machine

/-! ## Decoding -/

theorem decode_of_rowSyscall {p : Program} {line : Text} (row : rowSyscall (trim line)) :
    decode npad p line = .ok .syscall := by
  have hm := ((patternN_iff (noSpace_of_all rfl) (trim_trim line)).mp row).1
  exact decode_of_matchPattern hm
    ((decodeSyscall_eq_some_iff (noSpace_of_all rfl) hm (trim_trim line)).mpr ⟨row, rfl⟩)

theorem rejectsOthers_syscall : RejectsOthers (chars ['s', 'y', 's', 'c', 'a', 'l', 'l']) rowSyscall := by
  refine rejectsOthers_of_matchPattern fun p l x trimmed hm h => ?_
  exact ((decodeSyscall_eq_some_iff (noSpace_of_all rfl) hm trimmed).mp h).1

/-! ## The effect of a service -/

variable (s : State)

/-- Each of the three printing services answers this state. -/
theorem printEffect_print_advance (text : Text) : PrintEffect s (s.print text).advance text where
  output := rfl
  pc := rfl
  regs := ⟨fun _ => rfl, fun _ => rfl, rfl⟩
  mem := ⟨fun _ => rfl, rfl⟩
  control := ⟨rfl, rfl, rfl, rfl, rfl⟩

theorem sameRegs_service (c : Config) : SameRegs s (s.service c) := by
  rcases s.service_cases_of c with ⟨-, h⟩ | ⟨-, h⟩ | ⟨-, h⟩ | ⟨-, h⟩ | ⟨-, h⟩ <;> rw [h]
  all_goals exact ⟨fun _ => rfl, fun _ => rfl, rfl⟩

/-- The converse of `State.service_cases_of`: distinct service numbers leave each selector only one of the five cases. -/
theorem service_of_selector (c : Config)
    (distinct : [c.sysPrintInt, c.sysPrintString, c.sysExit, c.sysPrintChar].Nodup) :
    (s.readReg c.selectorReg = c.sysPrintInt → s.service c = (s.print (dec (s.readReg c.argReg))).advance) ∧
    (s.readReg c.selectorReg = c.sysPrintString →
      s.service c = (s.print (s.stringAt (s.readReg c.argReg))).advance) ∧
    (s.readReg c.selectorReg = c.sysExit → s.service c = s.halt) ∧
    (s.readReg c.selectorReg = c.sysPrintChar →
      s.service c = (s.print [chr (lowByte (s.readReg c.argReg))]).advance) ∧
    (s.readReg c.selectorReg ∉ [c.sysPrintInt, c.sysPrintString, c.sysExit, c.sysPrintChar] →
      s.service c = s.raise c (.unsupportedSyscall (s.readReg c.selectorReg))) := by
  simp only [List.nodup_cons, List.mem_cons, List.not_mem_nil, or_false, not_or] at distinct ⊢
  obtain ⟨⟨intString, intExit, intChar⟩, ⟨stringExit, stringChar⟩, exitChar, -⟩ := distinct
  rcases s.service_cases_of c with ⟨hv, h⟩ | ⟨hv, h⟩ | ⟨hv, h⟩ | ⟨hv, h⟩ | ⟨hv, h⟩
  · simp [h, hv, intString, intExit, intChar]
  · simp [h, hv, Ne.symm intString, stringExit, stringChar]
  · simp [h, hv, Ne.symm intExit, Ne.symm stringExit, exitChar]
  · simp [h, hv, Ne.symm intChar, Ne.symm stringChar, Ne.symm exitChar]
  · simp only [List.mem_cons, List.not_mem_nil, or_false, not_or] at hv
    simp [h, hv]

/-! ## The instruction -/

/-- Settles O32: npad-core's four service numbers are distinct, so the selector decides the state that `syscall` answers. -/
theorem syscallDispatchesOnTheSelector : Obligations.SyscallDispatchesOnTheSelector := by
  unfold Obligations.SyscallDispatchesOnTheSelector
  refine ⟨fun _ _ => decode_of_rowSyscall, rejectsOthers_syscall, fun s =>
    ⟨s.service npad, exec_syscall s, sameRegs_service s npad, ?_⟩⟩
  obtain ⟨printInt, printString, exit, printChar, others⟩ := service_of_selector s npad (by decide)
  refine ⟨fun hv => ?_, fun hv => ?_, fun hv => ?_, fun hv => ?_, fun h1 h4 h10 h11 => ?_⟩
  · rw [printInt hv]
    exact printEffect_print_advance s _
  · rw [printString hv]
    exact printEffect_print_advance s _
  · rw [exit hv]
    rfl
  · rw [printChar hv]
    exact printEffect_print_advance s _
  · have unknown : s.readReg .v0 ∉ [1#32, 4#32, 10#32, 11#32] := by simp [h1, h4, h10, h11]
    rw [others unknown]
    exact ⟨rfl, rfl⟩

end Sys2Proof.Machine
end

section
/-!
PROOFS. Number literals (spec 00_scope R14, 30_encoding R81, R83): which texts are literals, what their digits spell, and the
decimal spelling of a word.
-/

namespace Sys2Proof.Machine

/-! ## Digits -/

/-- A code point below the surrogates is the scalar value of its number. -/
theorem CodePoint.eq_scalar_ofNat {ch : CodePoint} (h : ch.number < 0xD800) : ch = .scalar (Char.ofNat ch.number) := by
  cases ch with
  | scalar c => simp [CodePoint.number]
  | surrogate k => simp [CodePoint.number] at h

/-- The scalar values from one character to another. -/
def charRange (lo hi : Char) : Text :=
  (List.range' lo.toNat (hi.toNat + 1 - lo.toNat)).map fun n => .scalar (Char.ofNat n)

theorem inRange_iff_mem_charRange {ch : CodePoint} {lo hi : Char} (h : hi.toNat < 0xD800) :
    inRange ch lo hi = true ↔ ch ∈ charRange lo hi := by
  simp only [inRange_iff, charRange, List.mem_map, List.mem_range'_1]
  constructor
  · intro ⟨low, high⟩
    exact ⟨ch.number, by omega, (CodePoint.eq_scalar_ofNat (by omega)).symm⟩
  · rintro ⟨n, bounds, rfl⟩
    have valid : n.isValidChar := .inl (by omega)
    have number : (CodePoint.scalar (Char.ofNat n)).number = n := by
      simp [CodePoint.number, Char.toNat_ofNat, valid]
    omega

theorem decDigit_isSome_iff_mem {ch : CodePoint} : (decDigit ch).isSome = true ↔ ch ∈ text "0123456789" := by
  rw [show text "0123456789" = charRange '0' '9' by decide, ← inRange_iff_mem_charRange (by decide), decDigit]
  split <;> simp [*]

theorem hexDigit_isSome_iff_mem {ch : CodePoint} :
    (hexDigit ch).isSome = true ↔ ch ∈ text "0123456789abcdefABCDEF" := by
  rw [show text "0123456789abcdefABCDEF" = charRange '0' '9' ++ (charRange 'a' 'f' ++ charRange 'A' 'F') by decide,
    List.mem_append, List.mem_append, ← inRange_iff_mem_charRange (by decide), ← inRange_iff_mem_charRange (by decide),
    ← inRange_iff_mem_charRange (by decide), hexDigit]
  split_ifs <;> simp [*]

/-! ## Digit texts

What `readNat` reads where every character is a digit, and that it reads nothing else. -/

section Digits

variable {digit : CodePoint → Option Nat} {base acc : Nat} {ds : Text}

/-- The value of a text of digits, read from left to right. -/
def digitValue (digit : CodePoint → Option Nat) (base : Nat) (ds : Text) : Nat :=
  ds.foldl (fun n ch => n * base + (digit ch).getD 0) 0

theorem readDigits_of_digits (hd : ∀ ch ∈ ds, (digit ch).isSome = true) :
    readDigits digit base acc ds = some (ds.foldl (fun n ch => n * base + (digit ch).getD 0) acc) := by
  induction ds generalizing acc with
  | nil => rfl
  | cons ch ds ih =>
    obtain ⟨head, tail⟩ := List.forall_mem_cons.mp hd
    obtain ⟨d, hd⟩ := Option.isSome_iff_exists.mp head
    simp [readDigits, hd, ih tail]

theorem readNat_of_digits (hne : ds ≠ []) (hd : ∀ ch ∈ ds, (digit ch).isSome = true) :
    readNat digit base ds = some (digitValue digit base ds) := by
  rw [readNat, if_neg hne, readDigits_of_digits hd, digitValue]

theorem digits_of_readDigits {n : Nat} (h : readDigits digit base acc ds = some n) :
    ∀ ch ∈ ds, (digit ch).isSome = true := by
  induction ds generalizing acc with
  | nil => simp
  | cons ch ds ih =>
    rw [readDigits] at h
    split at h
    · next d hd => exact List.forall_mem_cons.mpr ⟨by simp [hd], ih h⟩
    · cases h

theorem readNat_ne_none_iff :
    readNat digit base ds ≠ none ↔ ds ≠ [] ∧ ∀ ch ∈ ds, (digit ch).isSome = true := by
  constructor
  · intro h
    obtain ⟨n, hn⟩ := Option.ne_none_iff_exists'.mp h
    rw [readNat, Option.ite_none_left_eq_some] at hn
    exact ⟨hn.1, digits_of_readDigits hn.2⟩
  · rintro ⟨hne, hd⟩
    simp [readNat_of_digits hne hd]

end Digits

/-! ## Magnitudes -/

/-- The two prefixes of a hexadecimal literal. -/
def isHexMark (x : CodePoint) : Prop := x = .scalar 'x' ∨ x = .scalar 'X'

theorem parseMagnitude_hex {x : CodePoint} (hx : isHexMark x) (ds : Text) :
    parseMagnitude (.scalar '0' :: x :: ds) = readNat hexDigit 16 ds := by
  rcases hx with rfl | rfl <;> rfl

/-- A magnitude is read in base 16 after its mark and in base 10 otherwise. -/
theorem parseMagnitude_cases (t : Text) :
    (∃ x ds, isHexMark x ∧ t = .scalar '0' :: x :: ds) ∨ parseMagnitude t = readNat decDigit 10 t := by
  unfold parseMagnitude
  split
  · exact .inl ⟨_, _, .inl rfl, rfl⟩
  · exact .inl ⟨_, _, .inr rfl, rfl⟩
  · exact .inr rfl

theorem parseMagnitude_dec {ds : Text} (hd : ∀ ch ∈ ds, (decDigit ch).isSome = true) :
    parseMagnitude ds = readNat decDigit 10 ds := by
  rcases parseMagnitude_cases ds with ⟨x, u, hx, rfl⟩ | h
  · have digit := hd x (by simp)
    rcases hx with rfl | rfl <;> exact absurd digit (by decide)
  · exact h

/-- The texts of `NUM` without its sign. -/
def isMagnitude (t : Text) : Prop :=
  ∃ digits : Text, digits ≠ [] ∧
    ((∃ x, isHexMark x ∧ t = .scalar '0' :: x :: digits ∧ ∀ ch ∈ digits, (hexDigit ch).isSome = true) ∨
      (t = digits ∧ ∀ ch ∈ digits, (decDigit ch).isSome = true))

theorem parseMagnitude_ne_none_iff {t : Text} : parseMagnitude t ≠ none ↔ isMagnitude t := by
  constructor
  · intro h
    rcases parseMagnitude_cases t with ⟨x, ds, hx, rfl⟩ | dec
    · rw [parseMagnitude_hex hx, readNat_ne_none_iff] at h
      exact ⟨ds, h.1, .inl ⟨x, hx, rfl, h.2⟩⟩
    · rw [dec, readNat_ne_none_iff] at h
      exact ⟨t, h.1, .inr ⟨rfl, h.2⟩⟩
  · rintro ⟨ds, hne, ⟨x, hx, rfl, hd⟩ | ⟨rfl, hd⟩⟩
    · rw [parseMagnitude_hex hx]
      exact readNat_ne_none_iff.mpr ⟨hne, hd⟩
    · rw [parseMagnitude_dec hd]
      exact readNat_ne_none_iff.mpr ⟨hne, hd⟩

/-- A magnitude begins with a decimal digit, so with no sign. -/
theorem head_ne_minus_of_isMagnitude {t : Text} (h : isMagnitude t) : t.head? ≠ some (.scalar '-') := by
  obtain ⟨ds, hne, ⟨x, -, rfl, -⟩ | ⟨rfl, hd⟩⟩ := h
  · simp
  · intro hm
    exact absurd (hd _ (List.mem_of_mem_head? hm)) (by decide)

/-! ## Signs -/

theorem parseNum_neg (t : Text) :
    parseNum (.scalar '-' :: t) = (parseMagnitude t).map fun (d : Nat) => norm32 (-(d : Int)) := rfl

theorem parseNum_of_no_sign {t : Text} (h : t.head? ≠ some (.scalar '-')) :
    parseNum t = (parseMagnitude t).map fun (d : Nat) => norm32 (d : Int) := by
  unfold parseNum
  split
  · simp at h
  · rfl

theorem parseNum_of_magnitude {t : Text} {n : Nat} (h : parseMagnitude t = some n) :
    parseNum t = some (norm32 n) ∧ parseNum (.scalar '-' :: t) = some (norm32 (-n)) := by
  have magnitude : isMagnitude t := parseMagnitude_ne_none_iff.mp (by simp [h])
  exact ⟨by rw [parseNum_of_no_sign (head_ne_minus_of_isMagnitude magnitude), h]; rfl, by rw [parseNum_neg, h]; rfl⟩

theorem isNumLiteral_iff {t : Text} :
    isNumLiteral t ↔ isMagnitude t ∨ ∃ u, t = .scalar '-' :: u ∧ isMagnitude u := by
  constructor
  · rintro ⟨sign, ds, rfl | rfl, hne, ⟨x, hx, rfl, hd⟩ | ⟨rfl, hd⟩⟩
    · exact .inl ⟨ds, hne, .inl ⟨x, hx, rfl, hd⟩⟩
    · exact .inl ⟨_, hne, .inr ⟨rfl, hd⟩⟩
    · exact .inr ⟨_, rfl, ds, hne, .inl ⟨x, hx, rfl, hd⟩⟩
    · exact .inr ⟨_, rfl, ds, hne, .inr ⟨rfl, hd⟩⟩
  · rintro (⟨ds, hne, h⟩ | ⟨u, rfl, ds, hne, ⟨x, hx, rfl, hd⟩ | ⟨rfl, hd⟩⟩)
    · exact ⟨[], ds, .inl rfl, hne, h⟩
    · exact ⟨chars ['-'], ds, .inr rfl, hne, .inl ⟨x, hx, rfl, hd⟩⟩
    · exact ⟨chars ['-'], u, .inr rfl, hne, .inr ⟨rfl, hd⟩⟩

theorem parseNum_ne_none_iff {t : Text} : parseNum t ≠ none ↔ isNumLiteral t := by
  rw [isNumLiteral_iff]
  by_cases h : t.head? = some (.scalar '-')
  · obtain ⟨u, rfl⟩ := List.head?_eq_some_iff.mp h
    rw [parseNum_neg, Ne, Option.map_eq_none_iff, ← Ne, parseMagnitude_ne_none_iff]
    refine ⟨fun hu => .inr ⟨u, rfl, hu⟩, ?_⟩
    rintro (hm | ⟨u', e, hu⟩)
    · exact absurd h (head_ne_minus_of_isMagnitude hm)
    · cases e
      exact hu
  · rw [parseNum_of_no_sign h, Ne, Option.map_eq_none_iff, ← Ne, parseMagnitude_ne_none_iff]
    refine ⟨.inl, ?_⟩
    rintro (hm | ⟨u, rfl, -⟩)
    · exact hm
    · simp at h

theorem parseMagnitude_toDigits_hex {x : CodePoint} (hx : isHexMark x) (n : Nat) :
    parseMagnitude (.scalar '0' :: x :: chars (Nat.toDigits 16 n)) = some n := by
  rw [parseMagnitude_hex hx, readNat, if_neg (by simp [Nat.toDigits_ne_nil])]
  exact readDigits_toDigits (by decide) (fun _ => hexDigit_digitChar) n

/-- Settles O16: every literal is a magnitude with or without a sign, and each magnitude is read in its base. -/
theorem numberLiteralsAreReadAndWrapped : Obligations.NumberLiteralsAreReadAndWrapped := by
  unfold Obligations.NumberLiteralsAreReadAndWrapped
  refine ⟨fun _ => decDigit_isSome_iff_mem, fun _ => hexDigit_isSome_iff_mem, by decide,
    fun _ => parseNum_ne_none_iff, fun ds hne hd => ?_, fun x ds hx hne hd => ?_, fun n => ?_, fun n x hx => ?_⟩
  · exact parseNum_of_magnitude ((parseMagnitude_dec hd).trans (readNat_of_digits hne hd))
  · exact parseNum_of_magnitude ((parseMagnitude_hex hx ds).trans (readNat_of_digits hne hd))
  · exact parseNum_of_magnitude (parseMagnitude_decNat n)
  · exact parseNum_of_magnitude (parseMagnitude_toDigits_hex hx n)

/-! ## The decimal spelling of a word -/

theorem parseNum_dec (v : Word) : parseNum (dec v) = some v := by
  obtain ⟨positive, negative⟩ := parseNum_of_magnitude (parseMagnitude_decNat v.toInt.natAbs)
  rw [dec]
  split
  · next neg => rw [negative, show -(v.toInt.natAbs : Int) = v.toInt by omega, norm32_toInt]
  · next nonneg => rw [positive, show (v.toInt.natAbs : Int) = v.toInt by omega, norm32_toInt]

/-- Settles O17: the sign and the digits of the signed value read back as that value, which is in range. -/
theorem decimalSpellingReadsBack : Obligations.DecimalSpellingReadsBack := by
  unfold Obligations.DecimalSpellingReadsBack
  exact parseNum_dec

end Sys2Proof.Machine
end

section
/-!
PROOFS. Register operands and memory operands (spec 10_state R24, 30_encoding R91): which texts the decoder takes for the form
`offset(base)`, and the four answers of `parseMem`.
-/

namespace Sys2Proof.Machine

/-- Settles O15: the decoder's search finds the one register whose name the folded text is. -/
theorem registerNamesMatchIgnoringCase : Obligations.RegisterNamesMatchIgnoringCase := by
  unfold Obligations.RegisterNamesMatchIgnoringCase
  exact fun _ _ => lookupReg_iff

/-! ## The characters of literals and identifiers -/

/-- Every character that a number literal can hold. -/
def literalChars : Text := text "-xX0123456789abcdefABCDEF"

theorem mem_literalChars {t : Text} (h : isNumLiteral t) : ∀ ch ∈ t, ch ∈ literalChars := by
  have sign : text "-xX0" ⊆ literalChars := by decide
  have hexChars : text "0123456789abcdefABCDEF" ⊆ literalChars := by decide
  have decChars : text "0123456789" ⊆ literalChars := by decide
  have magnitude : ∀ u, isMagnitude u → ∀ ch ∈ u, ch ∈ literalChars := by
    rintro u ⟨ds, -, ⟨x, hx, rfl, hd⟩ | ⟨rfl, hd⟩⟩ ch hch
    · rcases List.mem_cons.mp hch with rfl | hch
      · exact sign (by decide)
      · rcases List.mem_cons.mp hch with rfl | hch
        · exact sign (by rcases hx with rfl | rfl <;> decide)
        · exact hexChars (hexDigit_isSome_iff_mem.mp (hd ch hch))
    · exact decChars (decDigit_isSome_iff_mem.mp (hd ch hch))
  rcases isNumLiteral_iff.mp h with hm | ⟨u, rfl, hm⟩
  · exact magnitude t hm
  · exact List.forall_mem_cons.mpr ⟨sign (by decide), magnitude u hm⟩

theorem isTokChar_of_literal {t : Text} (h : isNumLiteral t) : ∀ ch ∈ t, isTokChar ch = true := fun ch hch =>
  (by decide : ∀ ch ∈ literalChars, isTokChar ch = true) ch (mem_literalChars h ch hch)

theorem paren_notMem_of_literal {t : Text} (h : isNumLiteral t) : .scalar '(' ∉ t := fun hm =>
  absurd (mem_literalChars h _ hm) (by decide)

theorem paren_notMem_of_isIdent {t : Text} (h : isIdent t = true) : .scalar '(' ∉ t := fun hm =>
  absurd (isIdent_chars h _ hm) (by decide)

/-- A literal begins with a sign or a digit, an identifier with neither. -/
theorem parseNum_of_isIdent {t : Text} (h : isIdent t = true) : parseNum t = none := by
  by_contra literal
  obtain ⟨ch, u, rfl⟩ := List.exists_cons_of_ne_nil (show t ≠ [] by rintro rfl; cases h)
  have head : isIdentHead ch = true := (Bool.and_eq_true_iff.mp h).1
  suffices ch ∈ text "-0123456789" from
    absurd head ((by decide : ∀ ch ∈ text "-0123456789", ¬ isIdentHead ch = true) ch this)
  rcases isNumLiteral_iff.mp (parseNum_ne_none_iff.mp literal) with ⟨ds, -, ⟨x, -, e, -⟩ | ⟨e, hd⟩⟩ | ⟨v, e, -⟩
  · cases e
    decide
  · exact List.mem_cons_of_mem _ (decDigit_isSome_iff_mem.mp (hd ch (by simp [← e])))
  · cases e
    decide

/-! ## The form `offset(base)` -/

theorem trimEnd_of_noSpace {t : Text} (h : ∀ ch ∈ t, isSpace ch = false) : trimEnd t = t :=
  trimEnd_eq_self fun _ hl => h _ (List.mem_of_mem_getLast? hl)

theorem trim_of_noSpace {t : Text} (h : ∀ ch ∈ t, isSpace ch = false) : trim t = t :=
  trim_eq_self (fun _ hl => h _ (List.mem_of_mem_head? hl)) fun _ hl => h _ (List.mem_of_mem_getLast? hl)

/-- The text of `offset(base)`, with blanks before and inside the parentheses. -/
def basedText (offset sp₀ sp₁ base sp₂ : Text) : Text :=
  offset ++ sp₀ ++ .scalar '(' :: (sp₁ ++ base ++ sp₂ ++ chars [')'])

/-- The offset text stands for the value; the empty one stands for 0. -/
def offsetIs (offset : Text) (v : Word) : Prop := offset = [] ∧ v = 0#32 ∨ parseNum offset = some v

variable {c : Config} {offset sp₀ sp₁ base sp₂ : Text} {off : Word} {b : Reg}

theorem noSpace_noParen_of_offsetIs (ho : offsetIs offset off) :
    ∀ ch ∈ offset, isSpace ch = false ∧ ch ≠ .scalar '(' := by
  rcases ho with ⟨rfl, -⟩ | ho
  · simp
  · have literal := parseNum_ne_none_iff.mp (ho ▸ Option.some_ne_none off)
    intro ch hch
    refine ⟨isSpace_of_isTokChar (isTokChar_of_literal literal ch hch), ?_⟩
    rintro rfl
    exact paren_notMem_of_literal literal hch

theorem parseBased_basedText (ho : offsetIs offset off) (hb : lookupReg c base = some b)
    (solidBase : ∀ ch ∈ base, isSpace ch = false) (hs : ∀ ch ∈ sp₀ ++ sp₁ ++ sp₂, isSpace ch = true) :
    parseBased c (basedText offset sp₀ sp₁ base sp₂) = some (.based off b) := by
  have offChars := noSpace_noParen_of_offsetIs ho
  have hs₀ : ∀ ch ∈ sp₀, isSpace ch = true := fun ch h => hs ch (by simp [h])
  have hs₁ : ∀ ch ∈ sp₁, isSpace ch = true := fun ch h => hs ch (by simp [h])
  have hs₂ : ∀ ch ∈ sp₂, isSpace ch = true := fun ch h => hs ch (by simp [h])
  have noParen : ∀ ch ∈ offset ++ sp₀, (ch != .scalar '(') = true := by
    intro ch hch
    rcases List.mem_append.mp hch with hch | hch
    · exact bne_iff_ne.mpr (offChars ch hch).2
    · rw [bne_iff_ne]
      rintro rfl
      exact absurd (hs₀ _ hch) (by decide)
  have stop : ∀ ch, (CodePoint.scalar '(' :: (sp₁ ++ base ++ sp₂ ++ chars [')'])).head? = some ch →
      (ch != .scalar '(') = false := by
    rintro ch h
    cases h
    rfl
  have before : trimEnd (offset ++ sp₀) = offset := by
    rw [trimEnd_append_spaces _ hs₀, trimEnd_of_noSpace fun ch h => (offChars ch h).1]
  have value : (if offset = [] then some 0#32 else parseNum offset) = some off := by
    rcases ho with ⟨rfl, rfl⟩ | ho
    · rfl
    · rw [if_neg (by rintro rfl; cases ho), ho]
  have name : trim (sp₁ ++ base ++ sp₂) = base := by rw [trim_spaces_around _ hs₁ hs₂, trim_of_noSpace solidBase]
  have closed : (sp₁ ++ base ++ sp₂ ++ chars [')']).reverse = .scalar ')' :: (sp₁ ++ base ++ sp₂).reverse := by simp
  simp only [parseBased, basedText, takeWhile_append_stop noParen stop, dropWhile_append_stop noParen stop, before, value,
    closed, List.reverse_reverse, name, hb, Option.map_some]

theorem exists_spaces_trim (t : Text) : ∃ s₁ s₂, (∀ ch ∈ s₁ ++ s₂, isSpace ch = true) ∧ t = s₁ ++ trim t ++ s₂ := by
  obtain ⟨s₁, h₁, e₁⟩ := exists_spaces_trimStart t
  obtain ⟨s₂, h₂, e₂⟩ := exists_trimEnd_spaces (trimStart t)
  refine ⟨s₁, s₂, fun ch h => (List.mem_append.mp h).elim (h₁ ch) (h₂ ch), ?_⟩
  rw [trim, List.append_assoc, ← e₂, ← e₁]

/-- Only the form `offset(base)` is taken for it. -/
theorem basedText_of_parseBased {m : Text} {operand : MemOperand} (h : parseBased c m = some operand) :
    ∃ offset sp₀ sp₁ base sp₂ off b, operand = .based off b ∧ offsetIs offset off ∧ lookupReg c base = some b ∧
      (∀ ch ∈ sp₀ ++ sp₁ ++ sp₂, isSpace ch = true) ∧ m = basedText offset sp₀ sp₁ base sp₂ := by
  simp only [parseBased] at h
  split at h
  · next off inside ho hm =>
    split at h
    · next body hbody =>
      obtain ⟨b, hb, rfl⟩ := Option.map_eq_some_iff.mp h
      obtain ⟨sp₀, hs₀, e₀⟩ := exists_trimEnd_spaces (m.takeWhile (· != .scalar '('))
      obtain ⟨sp₁, sp₂, hs, e₁⟩ := exists_spaces_trim body.reverse
      refine ⟨trimEnd (m.takeWhile (· != .scalar '(')), sp₀, sp₁, _, sp₂, off, b, rfl, ?_, hb, ?_, ?_⟩
      · split at ho
        · next empty => exact .inl ⟨empty, (Option.some.inj ho).symm⟩
        · exact .inr ho
      · intro ch hch
        rw [List.append_assoc] at hch
        exact (List.mem_append.mp hch).elim (hs₀ ch) (hs ch)
      · have closed : inside = body.reverse ++ chars [')'] := by
          have := congrArg List.reverse hbody
          rwa [List.reverse_reverse, List.reverse_cons] at this
        rw [basedText, ← e₀, ← e₁, ← closed, ← hm, List.takeWhile_append_dropWhile]
    · cases h
  · cases h

theorem parseBased_eq_none {m : Text} (h : .scalar '(' ∉ m) : parseBased c m = none := by
  by_contra some
  obtain ⟨operand, some⟩ := Option.ne_none_iff_exists'.mp some
  obtain ⟨offset, sp₀, sp₁, base, sp₂, off, b, -, -, -, -, rfl⟩ := basedText_of_parseBased some
  exact h (by simp [basedText])

/-! ## `parseMem` -/

variable {p : Program} {m : Text}

theorem parseMem_basedText (ho : offsetIs offset off) (hb : fold base = npad.regName b)
    (hs : ∀ ch ∈ sp₀ ++ sp₁ ++ sp₂, isSpace ch = true) :
    parseMem npad p (basedText offset sp₀ sp₁ base sp₂) = .ok (.based off b) := by
  have solidBase : ∀ ch ∈ base, isSpace ch = false := fun ch h => isSpace_of_isTokChar (fold_reg_tok hb ch h)
  rw [parseMem, parseBased_basedText ho (lookupReg_iff.mpr hb) solidBase hs]

theorem parseMem_literal {a : Word} (h : parseNum m = some a) : parseMem npad p m = .ok (.abs a) := by
  have literal := parseNum_ne_none_iff.mp (h ▸ Option.some_ne_none a)
  rw [parseMem, parseBased_eq_none (paren_notMem_of_literal literal), h]

theorem parseMem_ident (h : isIdent m = true) :
    parseMem npad p m = (decodeDataLabel p m).map .abs := by
  rw [parseMem, parseBased_eq_none (paren_notMem_of_isIdent h), parseNum_of_isIdent h, decodeDataLabel]
  simp only [h, if_true]
  cases p.dataLabel m <;> rfl

/-- Settles O18: a text with a parenthesis is no literal and no identifier, and an identifier is no literal, so at most one of
the three forms applies. -/
theorem memoryOperandHasThreeForms : Obligations.MemoryOperandHasThreeForms := by
  unfold Obligations.MemoryOperandHasThreeForms
  refine ⟨fun p o sp₀ sp₁ name sp₂ off b => parseMem_basedText, fun p m a => parseMem_literal, fun p m h => ?_,
    fun p m _ noLiteral noIdent noBased => ?_⟩
  · rw [parseMem_ident h, decodeDataLabel]
    cases p.dataLabel m <;> rfl
  · have none : parseBased npad m = none := by
      by_contra some
      obtain ⟨operand, some⟩ := Option.ne_none_iff_exists'.mp some
      obtain ⟨offset, sp₀, sp₁, base, sp₂, off, b, -, ho, hb, hs, rfl⟩ := basedText_of_parseBased some
      refine noBased ⟨offset, sp₀, sp₁, base, sp₂, b, ?_, lookupReg_iff.mp hb, hs, rfl⟩
      rcases ho with ⟨empty, -⟩ | ho
      · exact .inl empty
      · exact .inr (ho ▸ Option.some_ne_none off)
    simp [parseMem, none, noLiteral, noIdent]

end Sys2Proof.Machine
end

section
/-!
PROOFS. What a decoded line carries (spec 30_encoding R90, R97): operands that name registers of the parameters, and labels'
values of the Program's tables.
-/

namespace Sys2Proof.Machine

/-! ## A well-formed Program -/

/-- `Program.wf` as propositions: what R71, R73 and R79 say of the tables. -/
structure WellFormedTables (p : Program) : Prop where
  lines : ∀ line ∈ p.instrs, lineOk line = true
  textNames : ∀ e ∈ p.textLabels, isIdent e.1 = true
  targets : ∀ e ∈ p.textLabels, e.2 ≤ p.instrs.length
  textKeys : (p.textLabels.map Prod.fst).Nodup
  dataNames : ∀ e ∈ p.dataLabels, isIdent e.1 = true
  dataKeys : (p.dataLabels.map Prod.fst).Nodup
  stringKeys : (p.dataStrings.map Prod.fst).Nodup

theorem wf_iff_wellFormedTables {p : Program} : p.wf = true ↔ WellFormedTables p := by
  simp only [Program.wf, keysDistinct, Bool.and_eq_true, List.all_eq_true, decide_eq_true_eq]
  constructor
  · rintro ⟨⟨⟨⟨⟨lines, textLabels⟩, textKeys⟩, dataNames⟩, dataKeys⟩, stringKeys⟩
    exact ⟨lines, fun e he => (textLabels e he).1, fun e he => (textLabels e he).2, textKeys, dataNames, dataKeys,
      stringKeys⟩
  · rintro ⟨lines, textNames, targets, textKeys, dataNames, dataKeys, stringKeys⟩
    exact ⟨⟨⟨⟨⟨lines, fun e he => ⟨textNames e he, targets e he⟩⟩, textKeys⟩, dataNames⟩, dataKeys⟩, stringKeys⟩

theorem mem_of_lookup {α β : Type} [BEq α] [LawfulBEq α] {k : α} {v : β} {table : List (α × β)}
    (h : table.lookup k = some v) : (k, v) ∈ table := by
  obtain ⟨l₁, l₂, rfl, -⟩ := List.lookup_eq_some_iff.mp h
  simp

theorem lookup_of_mem {α β : Type} [BEq α] [LawfulBEq α] {k : α} {v : β} {table : List (α × β)}
    (distinct : (table.map Prod.fst).Nodup) (h : (k, v) ∈ table) : table.lookup k = some v := by
  obtain ⟨l₁, l₂, rfl⟩ := List.append_of_mem h
  refine List.lookup_eq_some_iff.mpr ⟨l₁, l₂, rfl, fun e he => bne_iff_ne.mpr ?_⟩
  rw [List.map_append, List.map_cons] at distinct
  exact Ne.symm ((List.nodup_append.mp distinct).2.2 _ (List.mem_map_of_mem he) _ List.mem_cons_self)

theorem hasDataAddress_of_dataLabel {p : Program} {l : Text} {a : Word} (h : p.dataLabel l = some a) :
    p.hasDataAddress a = true :=
  List.any_eq_true.mpr ⟨(l, a), mem_of_lookup h, beq_self_eq_true a⟩

theorem hasTarget_of_textLabel {p : Program} {l : Text} {target : Nat} (h : p.textLabel l = some target) :
    p.hasTarget target = true :=
  List.any_eq_true.mpr ⟨(l, target), mem_of_lookup h, beq_self_eq_true target⟩

/-! ## What each format's decoder answers -/

variable {c : Config} {p : Program} {t : Text} {i : Instr}

/-- Some text names the register. -/
def named (c : Config) (r : Reg) : Prop := ∃ t, lookupReg c t = some r

/-- The instruction names registers of the parameters and carries values of the Program's tables. -/
def OperandsDecoded (c : Config) (p : Program) (i : Instr) : Prop :=
  (∀ r ∈ operandRegs i, named c r) ∧ i.wf p = true

theorem except_map_eq_ok_iff {ε α β : Type} {f : α → β} {x : Except ε α} {b : β} :
    x.map f = .ok b ↔ ∃ a, x = .ok a ∧ f a = b := by
  cases x <;> simp [Except.map]

theorem named_of_regComma {r : Reg} {u : Text} (h : regComma c t = some (r, u)) : named c r := by
  unfold regComma at h
  split at h
  · next hr _ => cases h; exact ⟨_, hr⟩
  · cases h

theorem dataLabel_of_decodeDataLabel {a : Word} (h : decodeDataLabel p t = .ok a) : p.dataLabel t = some a := by
  unfold decodeDataLabel at h
  split at h
  · next hl => cases h; exact hl
  · cases h

theorem textLabel_of_decodeTextLabel {target : Nat} (h : decodeTextLabel p t = .ok target) :
    p.textLabel t = some target := by
  unfold decodeTextLabel at h
  split at h
  · next hl => cases h; exact hl
  · cases h

theorem named_of_parseMem {off : Word} {base : Reg} (h : parseMem c p t = .ok (.based off base)) : named c base := by
  unfold parseMem at h
  split at h
  · next operand hb =>
    obtain ⟨-, -, -, name, -, off', base', rfl, -, hn, -⟩ := basedText_of_parseBased hb
    cases h
    exact ⟨name, hn⟩
  · repeat' split at h
    all_goals cases h

theorem decodeLi_operands (h : decodeLi c t = some (.ok i)) : OperandsDecoded c p i := by
  simp only [decodeLi, Option.bind_eq_some_iff, Option.map_eq_some_iff, except_map_eq_ok_iff] at h
  obtain ⟨⟨rd, u⟩, hr, tok, -, imm, -, rfl⟩ := h
  exact ⟨by simp [operandRegs, named_of_regComma hr], rfl⟩

theorem decodeLa_operands (h : decodeLa c p t = some (.ok i)) : OperandsDecoded c p i := by
  simp only [decodeLa, Option.bind_eq_some_iff, Option.map_eq_some_iff, except_map_eq_ok_iff] at h
  obtain ⟨⟨rd, u⟩, hr, tok, -, a, ha, rfl⟩ := h
  exact ⟨by simp [operandRegs, named_of_regComma hr], hasDataAddress_of_dataLabel (dataLabel_of_decodeDataLabel ha)⟩

theorem decodeMove_operands (h : decodeMove c t = some (.ok i)) : OperandsDecoded c p i := by
  simp only [decodeMove, Option.bind_eq_some_iff, Option.map_eq_some_iff, Except.ok.injEq] at h
  obtain ⟨⟨rd, u⟩, hr, rs, hs, rfl⟩ := h
  exact ⟨by simp [operandRegs, named_of_regComma hr, show named c rs from ⟨u, hs⟩], rfl⟩

theorem decodeAddi_operands (h : decodeAddi c t = some (.ok i)) : OperandsDecoded c p i := by
  simp only [decodeAddi, Option.bind_eq_some_iff, Option.map_eq_some_iff, except_map_eq_ok_iff] at h
  obtain ⟨⟨rd, u⟩, hr, ⟨rs, v⟩, hs, tok, -, imm, -, rfl⟩ := h
  exact ⟨by simp [operandRegs, named_of_regComma hr, named_of_regComma hs], rfl⟩

theorem decodeThreeRegs_operands {op : Reg → Reg → Reg → Instr}
    (regs : ∀ rd rs rt, operandRegs (op rd rs rt) = [rd, rs, rt]) (wf : ∀ rd rs rt, (op rd rs rt).wf p = true)
    (h : decodeThreeRegs c op t = some (.ok i)) : OperandsDecoded c p i := by
  simp only [decodeThreeRegs, Option.bind_eq_some_iff, Option.map_eq_some_iff, Except.ok.injEq] at h
  obtain ⟨⟨rd, u⟩, hr, ⟨rs, v⟩, hs, rt, ht, rfl⟩ := h
  exact ⟨by simp [regs, named_of_regComma hr, named_of_regComma hs, show named c rt from ⟨v, ht⟩], wf rd rs rt⟩

theorem decodeAccess_operands {op : Reg → MemOperand → Instr}
    (based : ∀ r off base, operandRegs (op r (.based off base)) = [r, base])
    (abs : ∀ r a, operandRegs (op r (.abs a)) = [r]) (wf : ∀ r m, (op r m).wf p = true)
    (h : decodeAccess c p op t = some (.ok i)) : OperandsDecoded c p i := by
  simp only [decodeAccess, Option.bind_eq_some_iff, Option.map_eq_some_iff, except_map_eq_ok_iff] at h
  obtain ⟨⟨r, u⟩, hr, m, -, operand, hm, rfl⟩ := h
  refine ⟨?_, wf r operand⟩
  cases operand with
  | based off base => simp [based, named_of_regComma hr, named_of_parseMem hm]
  | abs a => simp [abs, named_of_regComma hr]

theorem decodeBranch_operands {op : Reg → Reg → Nat → Instr}
    (regs : ∀ rs rt target, operandRegs (op rs rt target) = [rs, rt])
    (wf : ∀ rs rt target, (op rs rt target).wf p = p.hasTarget target)
    (h : decodeBranch c p op t = some (.ok i)) : OperandsDecoded c p i := by
  simp only [decodeBranch, Option.bind_eq_some_iff, Option.map_eq_some_iff, except_map_eq_ok_iff] at h
  obtain ⟨⟨rs, u⟩, hr, ⟨rt, v⟩, hs, tok, -, target, ht, rfl⟩ := h
  exact ⟨by simp [regs, named_of_regComma hr, named_of_regComma hs],
    (wf rs rt target).trans (hasTarget_of_textLabel (textLabel_of_decodeTextLabel ht))⟩

theorem decodeJ_operands (h : decodeJ p t = some (.ok i)) : OperandsDecoded c p i := by
  simp only [decodeJ, Option.map_eq_some_iff, except_map_eq_ok_iff] at h
  obtain ⟨tok, -, target, ht, rfl⟩ := h
  exact ⟨by simp [operandRegs], hasTarget_of_textLabel (textLabel_of_decodeTextLabel ht)⟩

theorem decodeSyscall_operands (h : decodeSyscall t = some (.ok i)) : OperandsDecoded c p i := by
  simp only [decodeSyscall, Option.ite_none_right_eq_some, Option.some.injEq, Except.ok.injEq] at h
  obtain ⟨-, rfl⟩ := h
  exact ⟨by simp [operandRegs], rfl⟩

/-! ## The dispatch -/

theorem ite_mem_cons {α : Type} {q : Prop} [Decidable q] {a b : α} {l : List α} (h : b ∈ l) :
    (if q then a else b) ∈ a :: l := by
  split
  · exact List.mem_cons_self
  · exact List.mem_cons_of_mem _ h

/-- The dispatch answers what one of the twelve decoders does, or nothing. -/
theorem matchPattern_mem (c : Config) (p : Program) (m t : Text) :
    matchPattern c p m t ∈ [decodeLi c t, decodeLa c p t, decodeMove c t, decodeAddi c t, decodeThreeRegs c .add t,
      decodeThreeRegs c .sub t, decodeAccess c p .lw t, decodeAccess c p .sw t, decodeBranch c p .beq t,
      decodeBranch c p .bne t, decodeJ p t, decodeSyscall t, none] := by
  unfold matchPattern
  iterate 12 refine ite_mem_cons ?_
  exact List.mem_singleton_self none

theorem operandsDecoded_of_decode {line : Text} (h : decode c p line = .ok i) : OperandsDecoded c p i := by
  simp only [decode] at h
  split at h
  · next result hm =>
    subst h
    have dispatch := matchPattern_mem c p (fold ((trim line).takeWhile (!isSpace ·)))
      (trimStart ((trim line).dropWhile (!isSpace ·)))
    rw [hm] at dispatch
    simp only [List.mem_cons, List.not_mem_nil, or_false] at dispatch
    rcases dispatch with h | h | h | h | h | h | h | h | h | h | h | h | h
    · exact decodeLi_operands h.symm
    · exact decodeLa_operands h.symm
    · exact decodeMove_operands h.symm
    · exact decodeAddi_operands h.symm
    · exact decodeThreeRegs_operands (fun _ _ _ => rfl) (fun _ _ _ => rfl) h.symm
    · exact decodeThreeRegs_operands (fun _ _ _ => rfl) (fun _ _ _ => rfl) h.symm
    · exact decodeAccess_operands (fun _ _ _ => rfl) (fun _ _ => rfl) (fun _ _ => rfl) h.symm
    · exact decodeAccess_operands (fun _ _ _ => rfl) (fun _ _ => rfl) (fun _ _ => rfl) h.symm
    · exact decodeBranch_operands (fun _ _ _ => rfl) (fun _ _ _ => rfl) h.symm
    · exact decodeBranch_operands (fun _ _ _ => rfl) (fun _ _ _ => rfl) h.symm
    · exact decodeJ_operands h.symm
    · exact decodeSyscall_operands h.symm
    · cases h
  · cases h

/-- Settles O12: a label's value comes from the table that the label is looked up in. -/
theorem decodedInstructionIsWellFormed : Obligations.DecodedInstructionIsWellFormed := by
  unfold Obligations.DecodedInstructionIsWellFormed
  exact fun _ _ _ _ h => (operandsDecoded_of_decode h).2

/-- Settles O13: the decoder is evaluated on each line. -/
theorem writtenLinesDecodeToTheirInstructions : Obligations.WrittenLinesDecodeToTheirInstructions := by
  unfold Obligations.WrittenLinesDecodeToTheirInstructions
  exact ⟨by decide, by decide, by decide, by decide, by decide, by decide, by decide, by decide⟩

end Sys2Proof.Machine
end

section
/-!
PROOFS. Decoding after encoding (spec 30_encoding R84 to R97): every operand of an encoding is a text of `TOK` characters, so the
decoder cuts the line where the encoder joined it, and each operand reads back.
-/

namespace Sys2Proof.Machine

/-! ## Labels read back -/

/-- The first entry of a value is an entry that its name looks up. -/
theorem find_value_spec {β : Type} [DecidableEq β] {table : List (Text × β)} {v : β}
    (distinct : (table.map Prod.fst).Nodup) (h : table.any (fun e => e.2 == v) = true) :
    ∃ name, table.find? (fun e => e.2 == v) = some (name, v) ∧ (name, v) ∈ table ∧ table.lookup name = some v := by
  obtain ⟨e, he, hv⟩ := List.any_eq_true.mp h
  obtain ⟨⟨name, w⟩, found⟩ := Option.isSome_iff_exists.mp
    ((List.find?_isSome (p := fun e : Text × β => e.2 == v)).mpr ⟨e, he, hv⟩)
  obtain rfl : w = v := beq_iff_eq.mp (List.find?_some (p := fun e : Text × β => e.2 == v) found)
  have mem := List.mem_of_find?_eq_some found
  exact ⟨name, found, mem, lookup_of_mem distinct mem⟩

variable {p : Program} {i : Instr}

theorem dataLabelOf_spec (hp : WellFormedTables p) {a : Word} (h : p.hasDataAddress a = true) :
    isIdent (p.dataLabelOf a) = true ∧ p.dataLabel (p.dataLabelOf a) = some a := by
  obtain ⟨name, found, mem, looked⟩ := find_value_spec hp.dataKeys h
  rw [show p.dataLabelOf a = name by simp only [Program.dataLabelOf, found]]
  exact ⟨hp.dataNames _ mem, looked⟩

theorem textLabelOf_spec (hp : WellFormedTables p) {target : Nat} (h : p.hasTarget target = true) :
    isIdent (p.textLabelOf target) = true ∧ p.textLabel (p.textLabelOf target) = some target := by
  obtain ⟨name, found, mem, looked⟩ := find_value_spec hp.textKeys h
  rw [show p.textLabelOf target = name by simp only [Program.textLabelOf, found]]
  exact ⟨hp.textNames _ mem, looked⟩

/-! ## Every operand is a token -/

/-- A `TOK` of R81. -/
def isToken (t : Text) : Prop := t ≠ [] ∧ ∀ ch ∈ t, isTokChar ch = true

theorem isToken_regName (r : Reg) : isToken (npad.regName r) := ⟨regName_ne_nil r, regName_tokChars r⟩

theorem isToken_of_isIdent {t : Text} (h : isIdent t = true) : isToken t := by
  refine ⟨(by rintro rfl; cases h), fun ch hch => ?_⟩
  have ident := isIdent_chars h ch hch
  have notComma : ch ≠ .scalar ',' := by
    rintro rfl
    exact absurd ident (by decide)
  simp [isTokChar, isSpace_of_isIdentChar ident, notComma]

theorem isToken_dec (v : Word) : isToken (dec v) := by
  have literal := parseNum_ne_none_iff.mp (parseNum_dec v ▸ Option.some_ne_none v)
  exact ⟨fun empty => absurd (parseNum_dec v) (by rw [empty]; nofun), isTokChar_of_literal literal⟩

theorem isToken_encodeMem (m : MemOperand) : isToken (encodeMem npad m) := by
  cases m with
  | abs a => exact isToken_dec a
  | based off base =>
    refine ⟨by simp [encodeMem], fun ch hch => ?_⟩
    simp only [encodeMem, List.mem_append, List.mem_cons] at hch
    rcases hch with h | rfl | h | h
    · exact (isToken_dec off).2 ch h
    · decide
    · exact (isToken_regName base).2 ch h
    · exact (by decide : ∀ ch ∈ chars [')'], isTokChar ch = true) ch h

theorem isToken_operands (hp : WellFormedTables p) (hi : i.wf p = true) :
    ∀ t ∈ i.operands npad p, isToken t := by
  cases i with
  | la rd addr =>
    simp [Instr.operands, isToken_regName, isToken_of_isIdent (dataLabelOf_spec hp hi).1]
  | beq rs rt target =>
    simp [Instr.operands, isToken_regName, isToken_of_isIdent (textLabelOf_spec hp hi).1]
  | bne rs rt target =>
    simp [Instr.operands, isToken_regName, isToken_of_isIdent (textLabelOf_spec hp hi).1]
  | j target => simp [Instr.operands, isToken_of_isIdent (textLabelOf_spec hp hi).1]
  | lw rd m => simp [Instr.operands, isToken_regName, isToken_encodeMem]
  | sw rs m => simp [Instr.operands, isToken_regName, isToken_encodeMem]
  | _ => simp [Instr.operands, isToken_regName, isToken_dec]

/-! ## The mnemonic and the body of an encoding -/

theorem solid_append_of_isToken {t : Text} (h : isToken t) (u : Text) : solid (t ++ u) := solid_of_tokChars h.2 u h.1

theorem getLast_of_isToken {t : Text} (h : isToken t) : ∀ ch, t.getLast? = some ch → isSpace ch = false := fun _ hl =>
  isSpace_of_isTokChar (h.2 _ (List.mem_of_mem_getLast? hl))

/-- Operands that are tokens, joined: the line begins with the first and ends with the last. -/
theorem joinOperands_ends {ops : List Text} (hne : ops ≠ []) (ht : ∀ t ∈ ops, isToken t) :
    ∃ first last u v, isToken first ∧ isToken last ∧ joinOperands ops = first ++ u ∧ joinOperands ops = v ++ last := by
  induction ops with
  | nil => exact absurd rfl hne
  | cons t ops ih =>
    obtain ⟨head, tail⟩ := List.forall_mem_cons.mp ht
    cases ops with
    | nil => exact ⟨t, t, [], [], head, head, by simp [joinOperands], rfl⟩
    | cons u ops =>
      obtain ⟨-, last, -, v, -, hlast, -, e⟩ := ih (by simp) tail
      exact ⟨t, last, _, t ++ .scalar ',' :: .scalar ' ' :: v, head, hlast, rfl, by simp [joinOperands, e]⟩

theorem isToken_mnemonic (i : Instr) : isToken i.mnemonic := by
  have tokens : (!i.mnemonic.isEmpty && i.mnemonic.all isTokChar) = true := by cases i <;> rfl
  simpa [isToken] using tokens

theorem fold_mnemonic (i : Instr) : fold i.mnemonic = i.mnemonic := by cases i <;> rfl

theorem encode_eq (c : Config) (p : Program) (i : Instr) :
    i.operands c p = [] ∧ encode c p i = i.mnemonic ∨
    i.operands c p ≠ [] ∧ encode c p i = i.mnemonic ++ .scalar ' ' :: joinOperands (i.operands c p) := by
  cases i with
  | syscall => exact .inl ⟨rfl, rfl⟩
  | _ => exact .inr ⟨List.cons_ne_nil _ _, rfl⟩

theorem takeWhile_encode (c : Config) (p : Program) (i : Instr) :
    (encode c p i).takeWhile (!isSpace ·) = i.mnemonic := by
  cases i with
  | li rd imm => exact Laws.EncodeHead.li rd imm c p
  | la rd addr => exact Laws.EncodeHead.la rd addr c p
  | move rd rs => exact Laws.EncodeHead.move rd rs c p
  | addi rd rs imm => exact Laws.EncodeHead.addi rd rs imm c p
  | add rd rs rt => exact Laws.EncodeHead.add rd rs rt c p
  | sub rd rs rt => exact Laws.EncodeHead.sub rd rs rt c p
  | lw rd m => exact Laws.EncodeHead.lw rd m c p
  | sw rs m => exact Laws.EncodeHead.sw rs m c p
  | beq rs rt target => exact Laws.EncodeHead.beq rs rt target c p
  | bne rs rt target => exact Laws.EncodeHead.bne rs rt target c p
  | j target => exact Laws.EncodeHead.j target c p
  | syscall => exact Laws.EncodeHead.syscall c p

theorem mnemonicOf_encode (c : Config) (p : Program) (i : Instr) : mnemonicOf (encode c p i) = i.mnemonic := by
  rw [mnemonicOf, takeWhile_encode, fold_mnemonic]

theorem bodyOf_encode (ht : ∀ t ∈ i.operands npad p, isToken t) :
    bodyOf (encode npad p i) = joinOperands (i.operands npad p) := by
  have noSpace : ∀ ch ∈ i.mnemonic, (!isSpace ch) = true := fun ch h => by
    simp [isSpace_of_isTokChar ((isToken_mnemonic i).2 ch h)]
  rcases encode_eq npad p i with ⟨none, e⟩ | ⟨hne, e⟩
  · rw [e, none, bodyOf, List.dropWhile_eq_nil_iff.mpr noSpace]
    rfl
  · obtain ⟨first, -, u, -, hfirst, -, join, -⟩ := joinOperands_ends hne ht
    rw [e, bodyOf, dropWhile_append_stop noSpace (by rintro ch h; cases h; rfl), ← List.singleton_append,
      trimStart_spaces_append _ (by decide), join]
    exact trimStart_eq_self (solid_append_of_isToken hfirst u)

theorem trim_encode (ht : ∀ t ∈ i.operands npad p, isToken t) : trim (encode npad p i) = encode npad p i := by
  rcases encode_eq npad p i with ⟨-, e⟩ | ⟨hne, e⟩ <;> rw [e]
  · exact trim_of_noSpace fun ch h => isSpace_of_isTokChar ((isToken_mnemonic i).2 ch h)
  · obtain ⟨-, last, -, v, -, hlast, -, join⟩ := joinOperands_ends hne ht
    refine trim_eq_self (solid_append_of_isToken (isToken_mnemonic i) _) fun ch hc => ?_
    obtain ⟨ch', h'⟩ := Option.isSome_iff_exists.mp (List.getLast?_isSome.mpr hlast.1)
    rw [join, ← List.cons_append, ← List.append_assoc, List.getLast?_append, h'] at hc
    exact getLast_of_isToken hlast ch (h'.trans hc)

/-- Decoding an encoding is the mnemonic's decoder on the joined operands. -/
theorem decode_encode_eq (ht : ∀ t ∈ i.operands npad p, isToken t) {x : Except Cause Instr}
    (h : matchPattern npad p i.mnemonic (joinOperands (i.operands npad p)) = some x) :
    decode npad p (encode npad p i) = x := by
  refine decode_of_matchPattern (m := i.mnemonic) ?_ ?_ <;> rw [trim_encode ht]
  · exact mnemonicOf_encode npad p i
  · rwa [bodyOf_encode ht]

/-! ## Operands read back -/

theorem fold_regName (r : Reg) : fold (npad.regName r) = npad.regName r := by cases r <;> rfl

theorem lookupReg_regName (r : Reg) : lookupReg npad (npad.regName r) = some r := lookupReg_iff.mpr (fold_regName r)

theorem regComma_regName (r : Reg) {rest : Text} (h : solid rest) :
    regComma npad (npad.regName r ++ .scalar ',' :: .scalar ' ' :: rest) = some (r, rest) :=
  regComma_iff.mpr ⟨h, npad.regName r, [], [.scalar ' '], fold_regName r, by simp, by decide, by simp⟩

theorem solid_of_isToken {t : Text} (h : isToken t) : solid t := List.append_nil t ▸ solid_append_of_isToken h []

theorem tokEnd_of_isToken {t : Text} (h : isToken t) : tokEnd t = some t := tokEnd_iff.mpr ⟨rfl, h⟩

theorem decodeImmediate_dec (v : Word) : decodeImmediate (dec v) = .ok v := by simp [decodeImmediate, parseNum_dec]

theorem parseMem_encodeMem (p : Program) (m : MemOperand) : parseMem npad p (encodeMem npad m) = .ok m := by
  cases m with
  | abs a => exact parseMem_literal (parseNum_dec a)
  | based off base =>
    have spelt : encodeMem npad (.based off base) = basedText (dec off) [] [] (npad.regName base) [] := by
      simp [encodeMem, basedText]
    rw [spelt]
    exact parseMem_basedText (.inr (parseNum_dec off)) (fold_regName base) (by simp)

variable {r r' : Reg} {last : Text}

/-- The first register operand before one more token. -/
theorem regComma_joinOperands_two (h : isToken last) :
    regComma npad (joinOperands [npad.regName r, last]) = some (r, last) := regComma_regName r (solid_of_isToken h)

/-- The first register operand before two more. -/
theorem regComma_joinOperands_three :
    regComma npad (joinOperands [npad.regName r, npad.regName r', last]) =
      some (r, joinOperands [npad.regName r', last]) :=
  regComma_regName r (solid_append_of_isToken (isToken_regName r') _)

theorem decodeAccess_encodeMem (op : Reg → MemOperand → Instr) (m : MemOperand) :
    decodeAccess npad p op (joinOperands [npad.regName r, encodeMem npad m]) = some (.ok (op r m)) := by
  simp [decodeAccess, restEnd, regComma_joinOperands_two (isToken_encodeMem m), (isToken_encodeMem m).1,
    parseMem_encodeMem, Except.map]

theorem decodeBranch_label (op : Reg → Reg → Nat → Instr) {label : Text} {target : Nat} (hl : isToken label)
    (h : p.textLabel label = some target) :
    decodeBranch npad p op (joinOperands [npad.regName r, npad.regName r', label]) = some (.ok (op r r' target)) := by
  simp [decodeBranch, regComma_joinOperands_three, regComma_joinOperands_two hl, tokEnd_of_isToken hl, decodeTextLabel, h,
    Except.map]

theorem decodeThreeRegs_regNames (op : Reg → Reg → Reg → Instr) (rd rs rt : Reg) :
    decodeThreeRegs npad op (joinOperands [npad.regName rd, npad.regName rs, npad.regName rt]) =
      some (.ok (op rd rs rt)) := by
  simp [decodeThreeRegs, regComma_joinOperands_three, regComma_joinOperands_two (isToken_regName rt), lookupReg_regName]

/-- Each mnemonic's decoder takes its instruction's joined operands apart again. -/
theorem matchPattern_joinOperands (hp : WellFormedTables p) (hi : i.wf p = true) :
    matchPattern npad p i.mnemonic (joinOperands (i.operands npad p)) = some (.ok i) := by
  cases i with
  | li rd imm =>
    show decodeLi npad (joinOperands [npad.regName rd, dec imm]) = _
    simp [decodeLi, regComma_joinOperands_two (isToken_dec imm), tokEnd_of_isToken (isToken_dec imm), decodeImmediate_dec,
      Except.map]
  | la rd addr =>
    obtain ⟨ident, looked⟩ := dataLabelOf_spec hp hi
    show decodeLa npad p (joinOperands [npad.regName rd, p.dataLabelOf addr]) = _
    simp [decodeLa, regComma_joinOperands_two (isToken_of_isIdent ident), tokEnd_of_isToken (isToken_of_isIdent ident),
      decodeDataLabel, looked, Except.map]
  | move rd rs =>
    show decodeMove npad (joinOperands [npad.regName rd, npad.regName rs]) = _
    simp [decodeMove, regComma_joinOperands_two (isToken_regName rs), lookupReg_regName]
  | addi rd rs imm =>
    show decodeAddi npad (joinOperands [npad.regName rd, npad.regName rs, dec imm]) = _
    simp [decodeAddi, regComma_joinOperands_three, regComma_joinOperands_two (isToken_dec imm),
      tokEnd_of_isToken (isToken_dec imm), decodeImmediate_dec, Except.map]
  | add rd rs rt => exact decodeThreeRegs_regNames .add rd rs rt
  | sub rd rs rt => exact decodeThreeRegs_regNames .sub rd rs rt
  | lw rd m => exact decodeAccess_encodeMem .lw m
  | sw rs m => exact decodeAccess_encodeMem .sw m
  | beq rs rt target =>
    obtain ⟨ident, looked⟩ := textLabelOf_spec hp hi
    exact decodeBranch_label .beq (isToken_of_isIdent ident) looked
  | bne rs rt target =>
    obtain ⟨ident, looked⟩ := textLabelOf_spec hp hi
    exact decodeBranch_label .bne (isToken_of_isIdent ident) looked
  | j target =>
    obtain ⟨ident, looked⟩ := textLabelOf_spec hp hi
    show decodeJ p (p.textLabelOf target) = _
    simp [decodeJ, tokEnd_of_isToken (isToken_of_isIdent ident), decodeTextLabel, looked, Except.map]
  | syscall => rfl

/-- Settles O11: the decoder finds the encoder's mnemonic and operands, and the mnemonic's decoder reads each operand back. -/
theorem decodeOfEncodeIsTheInstruction : Obligations.DecodeOfEncodeIsTheInstruction := by
  unfold Obligations.DecodeOfEncodeIsTheInstruction
  intro p i wf hi
  have hp := wf_iff_wellFormedTables.mp wf
  exact decode_encode_eq (isToken_operands hp hi) (matchPattern_joinOperands hp hi)

end Sys2Proof.Machine
end

section
/-!
PROOFS. Arithmetic laws of the ALU (spec 42_alu R125) and what one instruction does beside its own effect (40_execution_cycle
R110, 10_state R36, R37, 20_memory R61).
-/

namespace Sys2Proof.Machine

/-- Settles O20: the ALU's functions are the bit vectors' sum and difference, whose laws these are. -/
theorem aluArithmeticLaws : Obligations.AluArithmeticLaws := by
  unfold Obligations.AluArithmeticLaws
  intro a b c
  have wrapNeg : norm32 (-b.toInt) = -b := by rw [norm32, BitVec.ofInt_neg, BitVec.ofInt_toInt]
  simp only [aluAdd_eq_add, aluSub_eq_sub, wrapNeg]
  exact ⟨BitVec.add_comm a b, BitVec.add_assoc a b c, BitVec.add_zero a, BitVec.sub_eq_add_neg a b, BitVec.sub_self a,
    by decide, by decide, by decide⟩

variable {s t : State} {i : Instr}

/-- Settles O34: of the six things an instruction can do, the halt and the error are `syscall`'s alone. -/
theorem onlySyscallHaltsOrFails : Obligations.OnlySyscallHaltsOrFails := by
  unfold Obligations.OnlySyscallHaltsOrFails
  refine ⟨fun i s hi => ?_, fun s => ⟨s.service npad, exec_syscall s, ?_⟩⟩
  · obtain ⟨t, h⟩ := exec_total i s
    refine ⟨t, h, ?_⟩
    rcases exec_cases h with ⟨_, _, _, _, rfl⟩ | ⟨_, _, _, rfl⟩ | ⟨_, _, _, _, rfl⟩ | ⟨syscall, -⟩ | ⟨syscall, -⟩ |
      ⟨syscall, -⟩
    · exact ⟨rfl, rfl⟩
    · exact ⟨rfl, rfl⟩
    · exact ⟨rfl, rfl⟩
    all_goals exact absurd syscall hi
  · rcases s.service_cases with ⟨-, h⟩ | ⟨-, h⟩ | ⟨-, h⟩ | ⟨-, h⟩ | ⟨-, h⟩ <;> rw [h]
    · exact .inl ⟨rfl, rfl⟩
    · exact .inl ⟨rfl, rfl⟩
    · exact .inr (.inl ⟨rfl, rfl⟩)
    · exact .inl ⟨rfl, rfl⟩
    · exact .inr (.inr ⟨rfl, rfl⟩)

/-- Settles O33: npad-core's four service numbers are distinct, so the selector decides the state that `syscall` answers. -/
theorem syscallHaltAndErrorKeepTheRest : Obligations.SyscallHaltAndErrorKeepTheRest := by
  unfold Obligations.SyscallHaltAndErrorKeepTheRest
  refine ⟨fun s hv => ?_, fun s h1 h4 h10 h11 => ?_⟩ <;>
    obtain ⟨-, -, exit, -, others⟩ := service_of_selector s npad (by decide) <;> rw [exec_syscall]
  · rw [exit hv]
    rfl
  · have unknown : s.readReg .v0 ∉ [1#32, 4#32, 10#32, 11#32] := by simp [h1, h4, h10, h11]
    rw [others unknown]
    rfl

theorem effectiveAddress_memWrite_advance (s : State) (a v : Word) (m : MemOperand) :
    effectiveAddress (s.memWrite a v).advance m = effectiveAddress s m := by
  cases m <;> rfl

theorem exec_lw_readReg {rd : Reg} {m : MemOperand} (hz : rd ≠ .zero) (h : exec (.lw rd m) s = .next t) :
    t.readReg rd = s.memRead (effectiveAddress s m) := by
  rw [exec_lw] at h
  cases h
  simp [State.readReg_writeReg, hz]

/-- Settles O35: the load reads the memory that the store left, at the address of the same registers. -/
theorem storeThenLoadReturnsTheValue : Obligations.StoreThenLoadReturnsTheValue := by
  unfold Obligations.StoreThenLoadReturnsTheValue
  intro rs rd m s t u canonical hz store
  rw [exec_sw] at store
  cases store
  refine ⟨fun load => ?_, fun b hb load => ?_⟩ <;> rw [exec_lw_readReg hz load]
  · rw [effectiveAddress_memWrite_advance, State.memRead_advance, State.memRead_memWrite canonical, if_pos rfl]
  · rw [effectiveAddress, State.memRead_advance, State.memRead_memWrite canonical, if_neg hb]

/-- Settles O36: only the register write and the store of `exec_cases` touch a set. -/
theorem touchedSetsRecordWritesInOrder : Obligations.TouchedSetsRecordWritesInOrder := by
  unfold Obligations.TouchedSetsRecordWritesInOrder
  intro i s t h
  rcases exec_cases h with ⟨rd, v, hd, ha, rfl⟩ | ⟨rs, m, rfl, rfl⟩ | ⟨hd, ha, -, target, rfl⟩ | ⟨rfl, -, added, rfl⟩ |
    ⟨rfl, -, rfl⟩ | ⟨rfl, -, rfl⟩
  · rw [hd, ha]
    refine ⟨?_, rfl⟩
    by_cases hz : rd = .zero <;> simp [hz, insertOnce]
  · exact ⟨rfl, rfl⟩
  · rw [hd, ha]
    exact ⟨rfl, rfl⟩
  all_goals exact ⟨rfl, rfl⟩

end Sys2Proof.Machine
end

section
/-!
PROOFS. The step function, one equation per branch of the cycle (spec 40_execution_cycle R105 to R109, 60_exceptions R152), and
what every step keeps.
-/

namespace Sys2Proof.Machine

variable {s t u : State} {i : Instr} {c : Config} {execute : Instr → State → Host.Outcome State Fault Refusal}
  {line : Text} {e : Cause}

/-! ## One instruction under any parameters

`exec` is the case of npad-core's parameters. -/

theorem execWith_npad (i : Instr) (s : State) : execWith npad i s = exec i s := by cases i <;> rfl

theorem execWith_total (c : Config) (i : Instr) (s : State) : ∃ t, execWith c i s = .next t := by
  cases i <;> exact ⟨_, rfl⟩

/-- Everything one instruction can do under any parameters. -/
theorem execWith_cases (h : execWith c i s = .next t) :
    (∃ rd v, destination i = some rd ∧ t = (s.putReg c rd v).advance) ∨
    (∃ rs m, i = .sw rs m ∧ t = (s.memWrite (accessAddress c s m) (s.readReg rs)).advance) ∨
    (∃ target, t = s.jump target) ∨ (∃ text, t = (s.print text).advance) ∨ t = s.halt ∨ ∃ e, t = s.raise c e := by
  cases i with
  | syscall =>
    cases h
    rcases s.service_cases_of c with ⟨-, h⟩ | ⟨-, h⟩ | ⟨-, h⟩ | ⟨-, h⟩ | ⟨-, h⟩ <;> rw [h]
    · exact .inr (.inr (.inr (.inl ⟨_, rfl⟩)))
    · exact .inr (.inr (.inr (.inl ⟨_, rfl⟩)))
    · exact .inr (.inr (.inr (.inr (.inl rfl))))
    · exact .inr (.inr (.inr (.inl ⟨_, rfl⟩)))
    · exact .inr (.inr (.inr (.inr (.inr ⟨_, rfl⟩))))
  | sw rs m => cases h; exact .inr (.inl ⟨rs, m, rfl, rfl⟩)
  | beq rs rt target => cases h; exact .inr (.inr (.inl ⟨_, rfl⟩))
  | bne rs rt target => cases h; exact .inr (.inr (.inl ⟨_, rfl⟩))
  | j target => cases h; exact .inr (.inr (.inl ⟨_, rfl⟩))
  | _ => cases h; exact .inl ⟨_, _, rfl, rfl⟩

theorem execWith_steps (h : execWith c i s = .next t) : t.steps = s.steps := by
  rcases execWith_cases h with ⟨_, _, -, rfl⟩ | ⟨_, _, -, rfl⟩ | ⟨_, rfl⟩ | ⟨_, rfl⟩ | rfl | ⟨_, rfl⟩
  all_goals rfl

theorem execWith_readReg_other {r : Reg} (hr : destination i ≠ some r) (h : execWith c i s = .next t) :
    t.readReg r = s.readReg r := by
  rcases execWith_cases h with ⟨rd, v, hd, rfl⟩ | ⟨_, _, -, rfl⟩ | ⟨_, rfl⟩ | ⟨_, rfl⟩ | rfl | ⟨_, rfl⟩
  · have other : r ≠ rd := by
      rintro rfl
      exact hr hd
    simp [State.putReg, State.readReg_writeReg, other]
  all_goals rfl

/-! ## One equation per branch -/

theorem cycle_of_fetch_none (hs : s.status = .ready) (hf : s.fetch = none) : cycle c execute s = .next s.halt := by
  simp only [cycle, hs, hf, ne_eq, not_true_eq_false, if_false]

theorem cycle_of_bound (hs : s.status = .ready) (hf : s.fetch = some line) (hb : c.maxSteps ≤ s.steps) :
    cycle c execute s = .next (s.raise c (.timeout c.maxSteps)) := by
  simp only [cycle, hs, hf, hb, ne_eq, not_true_eq_false, if_false, if_true]

theorem cycle_of_decode_error (hs : s.status = .ready) (hf : s.fetch = some line) (hb : s.steps < c.maxSteps)
    (hd : decode c s.program line = .error e) : cycle c execute s = .next (s.fail c e) := by
  simp only [cycle, hs, hf, Nat.not_le.mpr hb, hd, ne_eq, not_true_eq_false, if_false]

theorem cycle_of_decode_ok (hs : s.status = .ready) (hf : s.fetch = some line) (hb : s.steps < c.maxSteps)
    (hd : decode c s.program line = .ok i) (hx : execute i s = .next u) : cycle c execute s = .next u.retire := by
  simp only [cycle, hs, hf, Nat.not_le.mpr hb, hd, hx, retireOutcome, ne_eq, not_true_eq_false, if_false]

/-- Settles O38: fetch comes before the step bound. -/
theorem pcOutOfRangeHalts : Obligations.PcOutOfRangeHalts := by
  unfold Obligations.PcOutOfRangeHalts
  exact fun s hs outside => cycle_of_fetch_none hs (State.fetch_none.mpr outside)

/-- Settles O39: the step bound comes before decoding. -/
theorem stepBoundEndsInTimeout : Obligations.StepBoundEndsInTimeout := by
  unfold Obligations.StepBoundEndsInTimeout
  exact fun s hs inside hb => cycle_of_bound hs (List.getElem?_eq_getElem inside) hb

/-- Settles O40: the decoded instruction's state is retired, and no instruction counts steps itself. -/
theorem stepRunsTheDecodedInstruction : Obligations.StepRunsTheDecodedInstruction := by
  unfold Obligations.StepRunsTheDecodedInstruction
  intro s line i hs hf hb hd
  obtain ⟨t, hx⟩ := exec_total i s
  refine ⟨t, hx, (cycle_of_decode_ok hs hf hb hd hx).trans ?_⟩
  rw [← exec_steps hx]
  rfl

/-- Settles O41: a decode error is the whole transition `State.fail`. -/
theorem decodeErrorFreezesTheMachine : Obligations.DecodeErrorFreezesTheMachine := by
  unfold Obligations.DecodeErrorFreezesTheMachine
  intro s line e hs hf hb hd
  exact ⟨s.fail npad e, cycle_of_decode_error hs hf hb hd, rfl, rfl, rfl, rfl, rfl, rfl, rfl, ⟨fun _ => rfl, rfl⟩,
    State.readReg_retire (s.raise npad e), rfl⟩

/-- Settles O42: every instruction answers a next state, hence so does the cycle. -/
theorem stepAlwaysAnswersANextState : Obligations.StepAlwaysAnswersANextState := by
  unfold Obligations.StepAlwaysAnswersANextState
  exact step_total

/-! ## The step counter -/

/-- The cycle counts exactly the steps that reach decode, where the instructions themselves count none. -/
theorem cycle_steps (keeps : ∀ i s u, execute i s = .next u → u.steps = s.steps) (h : cycle c execute s = .next t) :
    t.steps = if s.status = .ready ∧ s.pc < s.program.instrs.length ∧ s.steps < c.maxSteps then s.steps + 1
      else s.steps := by
  rcases cycle_cases h with ⟨hs, rfl⟩ | ⟨-, hf, rfl⟩ | ⟨-, -, hb, rfl⟩ | ⟨line, e, hs, hf, hb, -, rfl⟩ |
    ⟨line, i, u, hs, hf, hb, -, hx, rfl⟩
  · simp [hs]
  · simp [Nat.not_lt.mpr (State.fetch_none.mp hf)]
  · simp [Nat.not_lt.mpr hb]
  · simp [hs, State.fetch_some hf, hb]
  · simp [hs, State.fetch_some hf, hb, keeps i s u hx]

theorem cycle_steps_le (keeps : ∀ i s u, execute i s = .next u → u.steps = s.steps) (hb : s.steps ≤ c.maxSteps)
    (h : cycle c execute s = .next t) : t.steps ≤ c.maxSteps := by
  rw [cycle_steps keeps h]
  split <;> omega

theorem step_steps_le (hb : s.steps ≤ npad.maxSteps) (h : step s = .next t) : t.steps ≤ npad.maxSteps :=
  cycle_steps_le (fun _ _ _ => exec_steps) hb h

/-- Settles O44: no instruction changes the counter itself. -/
theorem stepCounterCountsDecodedSteps : Obligations.StepCounterCountsDecodedSteps := by
  unfold Obligations.StepCounterCountsDecodedSteps
  exact fun s t h => cycle_steps (fun _ _ _ => exec_steps) h

/-! ## `pc` -/

/-- An instruction that leaves a ready state ready has moved `pc`; one that does not has left it. -/
theorem exec_pc (hs : s.status = .ready) (h : exec i s = .next t) :
    t.pc = if t.status = .ready then nextPc s i else s.pc := by
  cases i with
  | syscall =>
    cases h
    rcases s.service_cases with ⟨-, h⟩ | ⟨-, h⟩ | ⟨-, h⟩ | ⟨-, h⟩ | ⟨-, h⟩ <;> simp [h, hs, nextPc]
  | beq rs rt target =>
    rw [exec_beq_eq_jump] at h
    cases h
    simp [hs, nextPc]
  | bne rs rt target =>
    rw [exec_bne_eq_jump] at h
    cases h
    simp [hs, nextPc, ite_not]
  | j target => cases h; simp [hs, nextPc]
  | _ => cases h; exact (if_pos hs).symm

/-- Settles O52: a step that stays ready has run an instruction, and every other step leaves `pc`. -/
theorem pcMovesOnlyByCompletingInstructions : Obligations.PcMovesOnlyByCompletingInstructions := by
  unfold Obligations.PcMovesOnlyByCompletingInstructions
  intro s t hs h
  rcases step_cases h with ⟨hn, -⟩ | ⟨-, -, rfl⟩ | ⟨-, -, -, rfl⟩ | ⟨_, _, -, -, -, -, rfl⟩ |
    ⟨line, i, u, -, hf, -, hd, hx, rfl⟩
  · exact absurd hs hn
  · exact ⟨nofun, fun _ => rfl⟩
  · exact ⟨nofun, fun _ => rfl⟩
  · exact ⟨nofun, fun _ => rfl⟩
  · exact ⟨fun ready => ⟨line, i, hf, hd, (exec_pc hs hx).trans (if_pos ready)⟩,
      fun ended => (exec_pc hs hx).trans (if_neg ended)⟩

/-! ## Registers and memory -/

/-- A cycle changes what a register reads only where it runs an instruction with that destination. -/
theorem cycle_destination_of_changed {r : Reg}
    (keeps : ∀ i s u, destination i ≠ some r → execute i s = .next u → u.readReg r = s.readReg r)
    (h : cycle c execute s = .next t) (changed : t.readReg r ≠ s.readReg r) :
    ∃ line i, s.fetch = some line ∧ decode c s.program line = .ok i ∧ destination i = some r := by
  rcases cycle_cases h with ⟨-, rfl⟩ | ⟨-, -, rfl⟩ | ⟨-, -, -, rfl⟩ | ⟨_, e, -, -, -, -, rfl⟩ |
    ⟨line, i, u, -, hf, -, hd, hx, rfl⟩
  · exact absurd rfl changed
  · exact absurd rfl changed
  · exact absurd rfl changed
  · exact absurd (State.readReg_retire (s.raise c e) r) changed
  · rw [State.readReg_retire] at changed
    exact ⟨line, i, hf, hd, Classical.not_not.mp fun other => changed (keeps i s u other hx)⟩

theorem exec_readReg_other {r : Reg} (hr : destination i ≠ some r) (h : exec i s = .next t) :
    t.readReg r = s.readReg r := execWith_readReg_other hr ((execWith_npad i s).trans h)

/-- Settles O51: an instruction changes no register but its destination, and the cycle no register at all. -/
theorem onlyTheDestinationRegisterChanges : Obligations.OnlyTheDestinationRegisterChanges := by
  unfold Obligations.OnlyTheDestinationRegisterChanges
  exact fun s t h r changed => cycle_destination_of_changed (fun _ _ _ => exec_readReg_other) h changed

/-- Settles O50: only the store of an instruction changes memory, and only at its address. -/
theorem onlySwChangesMemory : Obligations.OnlySwChangesMemory := by
  unfold Obligations.OnlySwChangesMemory
  intro s t canonical h a changed
  rcases step_cases h with ⟨-, rfl⟩ | ⟨-, -, rfl⟩ | ⟨-, -, -, rfl⟩ | ⟨_, _, -, -, -, -, rfl⟩ |
    ⟨line, i, u, -, hf, -, hd, hx, rfl⟩
  case inr.inr.inr.inr =>
    rcases exec_cases hx with ⟨_, _, -, -, rfl⟩ | ⟨rs, m, rfl, rfl⟩ | ⟨-, -, -, _, rfl⟩ | ⟨-, -, _, rfl⟩ |
      ⟨-, -, rfl⟩ | ⟨-, -, rfl⟩
    case inr.inl =>
      have stored : ((s.memWrite (effectiveAddress s m) (s.readReg rs)).advance.retire).memRead a =
          if a = effectiveAddress s m then s.readReg rs else s.memRead a := State.memRead_memWrite canonical _ _ _
      by_cases ha : a = effectiveAddress s m
      · exact ⟨line, rs, m, hf, hd, ha.symm, stored.trans (if_pos ha)⟩
      · exact absurd (stored.trans (if_neg ha)) changed
    all_goals exact absurd rfl changed
  all_goals exact absurd rfl changed

/-! ## The touched sets over a run -/

/-- The touched sets are extended at their ends, and what is not in them reads as before. -/
structure KeepsUntouched (s t : State) : Prop where
  regsGrow : s.touchedRegs <+: t.touchedRegs
  memGrow : s.touchedMem <+: t.touchedMem
  regs : ∀ r, r ∉ t.touchedRegs → t.readReg r = s.readReg r
  mem : ∀ a, a ∉ t.touchedMem → t.memRead a = s.memRead a

/-- An update of other fields keeps everything. -/
theorem KeepsUntouched.of_same (regs : t.regs = s.regs) (mem : t.mem = s.mem) (touchedRegs : t.touchedRegs = s.touchedRegs)
    (touchedMem : t.touchedMem = s.touchedMem) : KeepsUntouched s t where
  regsGrow := touchedRegs ▸ List.prefix_rfl
  memGrow := touchedMem ▸ List.prefix_rfl
  regs r _ := State.readReg_congr regs r
  mem a _ := by rw [State.memRead, State.memRead, mem]

theorem KeepsUntouched.refl (s : State) : KeepsUntouched s s := .of_same rfl rfl rfl rfl

theorem KeepsUntouched.trans (h₁ : KeepsUntouched s t) (h₂ : KeepsUntouched t u) : KeepsUntouched s u where
  regsGrow := h₁.regsGrow.trans h₂.regsGrow
  memGrow := h₁.memGrow.trans h₂.memGrow
  regs r hr := (h₂.regs r hr).trans (h₁.regs r fun h => hr (h₂.regsGrow.subset h))
  mem a ha := (h₂.mem a ha).trans (h₁.mem a fun h => ha (h₂.memGrow.subset h))

theorem keepsUntouched_retire (s : State) : KeepsUntouched s s.retire :=
  ⟨List.prefix_rfl, List.prefix_rfl, fun r _ => State.readReg_retire s r, fun _ _ => rfl⟩

theorem keepsUntouched_writeReg (s : State) (rd : Reg) (v : Word) : KeepsUntouched s (s.writeReg rd v) := by
  by_cases hz : rd = .zero
  · subst hz
    exact .refl s
  · refine ⟨?_, List.prefix_rfl, fun r hr => ?_, fun _ _ => rfl⟩
    · simp [hz, isPrefix_insertOnce]
    · have other : r ≠ rd := by
        rintro rfl
        exact hr (State.mem_touchedRegs_writeReg s r v hz)
      simp [State.readReg_writeReg, other]

theorem keepsUntouched_memWrite (canonical : Memory.wf s.mem) (a v : Word) : KeepsUntouched s (s.memWrite a v) := by
  refine ⟨List.prefix_rfl, isPrefix_insertOnce a s.touchedMem, fun _ _ => rfl, fun b hb => ?_⟩
  have other : b ≠ a := by
    rintro rfl
    exact hb (mem_insertOnce.mpr (.inl rfl))
  rw [State.memRead_memWrite canonical, if_neg other]

theorem exec_keepsUntouched (canonical : Memory.wf s.mem) (h : exec i s = .next t) : KeepsUntouched s t := by
  rcases exec_cases h with ⟨rd, v, -, -, rfl⟩ | ⟨rs, m, -, rfl⟩ | ⟨-, -, -, _, rfl⟩ | ⟨-, -, _, rfl⟩ | ⟨-, -, rfl⟩ |
    ⟨-, -, rfl⟩
  · exact (keepsUntouched_writeReg s rd v).trans (.of_same rfl rfl rfl rfl)
  · exact (keepsUntouched_memWrite canonical _ _).trans (.of_same rfl rfl rfl rfl)
  all_goals exact .of_same rfl rfl rfl rfl

theorem step_keepsUntouched (canonical : Memory.wf s.mem) (h : step s = .next t) : KeepsUntouched s t := by
  rcases step_cases h with ⟨-, rfl⟩ | ⟨-, -, rfl⟩ | ⟨-, -, -, rfl⟩ | ⟨_, e, -, -, -, -, rfl⟩ |
    ⟨_, _, u, -, -, -, -, hx, rfl⟩
  · exact .refl t
  · exact .of_same rfl rfl rfl rfl
  · exact .of_same rfl rfl rfl rfl
  · exact (keepsUntouched_retire s).trans (.of_same rfl rfl rfl rfl)
  · exact (exec_keepsUntouched canonical hx).trans (keepsUntouched_retire u)

theorem exec_mem_wf (canonical : Memory.wf s.mem) (h : exec i s = .next t) : Memory.wf t.mem := by
  rcases exec_cases h with ⟨_, _, -, -, rfl⟩ | ⟨rs, m, -, rfl⟩ | ⟨-, -, -, _, rfl⟩ | ⟨-, -, _, rfl⟩ | ⟨-, -, rfl⟩ |
    ⟨-, -, rfl⟩
  case inr.inl => exact State.wf_memWrite canonical _ _
  all_goals exact canonical

theorem step_mem_wf (canonical : Memory.wf s.mem) (h : step s = .next t) : Memory.wf t.mem := by
  rcases step_cases h with ⟨-, rfl⟩ | ⟨-, -, rfl⟩ | ⟨-, -, -, rfl⟩ | ⟨_, _, -, -, -, -, rfl⟩ |
    ⟨_, _, u, -, -, -, -, hx, rfl⟩
  case inr.inr.inr.inr => exact exec_mem_wf (t := u) canonical hx
  all_goals exact canonical

/-- Settles O53: each step keeps what it does not touch, and a run is a chain of steps from canonical memory. -/
theorem untouchedRegistersAndWordsKeepTheirValues : Obligations.UntouchedRegistersAndWordsKeepTheirValues := by
  unfold Obligations.UntouchedRegistersAndWordsKeepTheirValues
  intro s t canonical h
  suffices KeepsUntouched s t from ⟨this.regsGrow, this.memGrow, this.regs, this.mem⟩
  induction h with
  | done s => exact .refl s
  | step _ first _ ih => exact (step_keepsUntouched canonical first).trans (ih (step_mem_wf canonical first))

/-! ## Source text and touched sets carry no semantics

A step of the state without them is the step of the state, without them. -/

theorem exec_forget (h : exec i s = .next t) : ∃ u, exec i s.forget = .next u ∧ u.forget = t.forget := by
  cases i with
  | syscall =>
    cases h
    refine ⟨_, exec_syscall s.forget, ?_⟩
    obtain ⟨printInt, printString, exit, printChar, others⟩ := service_of_selector s.forget npad (by decide)
    rcases s.service_cases with ⟨hv, h⟩ | ⟨hv, h⟩ | ⟨hv, h⟩ | ⟨hv, h⟩ | ⟨hv, h⟩ <;> rw [h]
    · rw [printInt hv]; rfl
    · rw [printString hv]; rfl
    · rw [exit hv]; rfl
    · rw [printChar hv]; rfl
    · rw [others hv]; rfl
  | lw rd m => cases m <;> cases h <;> exact ⟨_, rfl, rfl⟩
  | sw rs m => cases m <;> cases h <;> exact ⟨_, rfl, rfl⟩
  | _ => cases h; exact ⟨_, rfl, rfl⟩

theorem step_forget (h : step s = .next t) : ∃ u, step s.forget = .next u ∧ u.forget = t.forget := by
  rcases step_cases h with ⟨hs, rfl⟩ | ⟨hs, hf, rfl⟩ | ⟨hs, ⟨line, hf⟩, hb, rfl⟩ | ⟨line, e, hs, hf, hb, hd, rfl⟩ |
    ⟨line, i, u, hs, hf, hb, hd, hx, rfl⟩
  · exact ⟨_, cycle_of_not_ready hs, rfl⟩
  · exact ⟨_, cycle_of_fetch_none hs hf, rfl⟩
  · exact ⟨_, cycle_of_bound hs hf hb, rfl⟩
  · exact ⟨_, cycle_of_decode_error hs hf hb hd, rfl⟩
  · obtain ⟨v, hv, same⟩ := exec_forget hx
    exact ⟨_, cycle_of_decode_ok hs hf hb hd hv, congrArg State.retire same⟩

/-- Settles O54: both states step as the one state that both are without source text and touched sets. -/
theorem sourceAndTouchedSetsCarryNoSemantics : Obligations.SourceAndTouchedSetsCarryNoSemantics := by
  unfold Obligations.SourceAndTouchedSetsCarryNoSemantics
  intro s s' t same h
  obtain ⟨t', h'⟩ := step_total s'
  obtain ⟨u, hu, eq⟩ := step_forget h
  obtain ⟨u', hu', eq'⟩ := step_forget h'
  rw [← same, hu] at hu'
  cases hu'
  exact ⟨t', h', eq.symm.trans eq'⟩

end Sys2Proof.Machine
end

section
/-!
PROOFS. The invariant (spec 10_state R22, R29, R36 to R38, 40_execution_cycle R115): every part of it is kept by every
instruction, and hence by every step.
-/

namespace Sys2Proof.Machine

variable {s t u : State} {i : Instr}

/-- A transfer's target is a text label's index, which lies in `[0, N]`; every other instruction advances from inside. -/
theorem nextPc_le {p : Program} (hp : WellFormedTables p) (hi : i.wf p = true) (inside : s.pc < p.instrs.length) :
    nextPc s i ≤ p.instrs.length := by
  have target_le : ∀ target, p.hasTarget target = true → target ≤ p.instrs.length := by
    intro target h
    obtain ⟨e, he, eq⟩ := List.any_eq_true.mp h
    exact beq_iff_eq.mp eq ▸ hp.targets e he
  cases i with
  | beq rs rt target =>
    rw [nextPc]
    split
    · exact target_le target hi
    · exact inside
  | bne rs rt target =>
    rw [nextPc]
    split
    · exact inside
    · exact target_le target hi
  | j target => exact target_le target hi
  | _ => exact inside

theorem exec_pc_le (hp : WellFormedTables s.program) (hi : i.wf s.program = true) (hs : s.status = .ready)
    (inside : s.pc < s.program.instrs.length) (h : exec i s = .next t) : t.pc ≤ s.program.instrs.length := by
  rw [exec_pc hs h]
  split
  · exact nextPc_le hp hi inside
  · exact inside.le

theorem touchedOk_writeReg (h : s.touchedOk) (rd : Reg) (v : Word) : (s.writeReg rd v).touchedOk := by
  by_cases hz : rd = .zero
  · subst hz
    exact h
  · obtain ⟨regs, noZero, mem⟩ := h
    simp only [State.touchedOk, State.writeReg_touchedRegs, hz, if_false]
    refine ⟨nodup_insertOnce rd regs, fun hm => ?_, mem⟩
    exact (mem_insertOnce.mp hm).elim (fun h => hz h.symm) noZero

theorem exec_touchedOk (ok : s.touchedOk) (h : exec i s = .next t) : t.touchedOk := by
  rcases exec_cases h with ⟨rd, v, -, -, rfl⟩ | ⟨rs, m, -, rfl⟩ | ⟨-, -, -, _, rfl⟩ | ⟨-, -, _, rfl⟩ | ⟨-, -, rfl⟩ |
    ⟨-, -, rfl⟩
  · exact touchedOk_writeReg ok rd v
  · obtain ⟨regs, noZero, mem⟩ := ok
    exact ⟨regs, noZero, nodup_insertOnce _ mem⟩
  all_goals exact ok

theorem errorOk_of_exec (hs : s.status = .ready) (absent : s.error = none) (h : exec i s = .next t) : t.errorOk := by
  rcases exec_error_of_ready hs h with ⟨ne, same⟩ | ⟨failed, cause, message⟩
  · simp [State.errorOk, ne, same, absent]
  · simp [State.errorOk, failed, message]

theorem error_eq_none_of_ready (ok : s.errorOk) (hs : s.status = .ready) : s.error = none :=
  Classical.not_not.mp fun he => absurd (ok.mpr he) (by simp [hs])

/-! ## Each update of a step -/

theorem State.Inv.halt (inv : s.Inv) (hs : s.status = .ready) : s.halt.Inv :=
  ⟨inv.program, inv.pc, inv.zero, inv.mem, by simp [State.errorOk, error_eq_none_of_ready inv.error hs], inv.touched,
    inv.steps⟩

theorem State.Inv.raise (inv : s.Inv) (e : Cause) : (s.raise npad e).Inv :=
  ⟨inv.program, inv.pc, inv.zero, inv.mem, by simp [State.errorOk], inv.touched, inv.steps⟩

theorem State.Inv.retire (inv : s.Inv) (hb : s.steps < npad.maxSteps) : s.retire.Inv :=
  ⟨inv.program, inv.pc, State.regSlot_zero_retire s, inv.mem, inv.error, inv.touched, hb⟩

/-- That `pc` stays in range rests on `i.wf`: a transfer goes to a label of the Program. -/
theorem exec_inv (inv : s.Inv) (hi : i.wf s.program = true) (hs : s.status = .ready)
    (inside : s.pc < s.program.instrs.length) (h : exec i s = .next t) : t.Inv := by
  have hp : t.program = s.program := (exec_program_source h).1
  exact
    { program := hp ▸ inv.program
      pc := hp ▸ exec_pc_le (wf_iff_wellFormedTables.mp inv.program) hi hs inside h
      zero := (exec_regSlot_zero h).trans inv.zero
      mem := exec_mem_wf inv.mem h
      error := errorOk_of_exec hs (error_eq_none_of_ready inv.error hs) h
      touched := exec_touchedOk inv.touched h
      steps := exec_steps h ▸ inv.steps }

/-- Settles O45: each update that a step is made of keeps the invariant, and a decoded instruction is well formed. -/
theorem invariantIsKeptByEveryStep : Obligations.InvariantIsKeptByEveryStep := by
  unfold Obligations.InvariantIsKeptByEveryStep
  intro s t inv h
  rcases step_cases h with ⟨-, rfl⟩ | ⟨hs, -, rfl⟩ | ⟨-, -, -, rfl⟩ | ⟨line, e, -, -, hb, -, rfl⟩ |
    ⟨line, i, u, hs, hf, hb, hd, hx, rfl⟩
  · exact inv
  · exact inv.halt hs
  · exact inv.raise _
  · exact (inv.raise e).retire hb
  · have hi : i.wf s.program = true := (operandsDecoded_of_decode hd).2
    exact (exec_inv inv hi hs (State.fetch_some hf) hx).retire (exec_steps hx ▸ hb)

end Sys2Proof.Machine
end

section
/-!
PROOFS. Runs to the end and other parameters (spec 40_execution_cycle R114, R115, 00_scope R9): the step bound along a run, and
the parametric machine.
-/

namespace Sys2Proof.Machine

variable {s t u : State} {i : Instr} {c : Config} {next : State → Host.Outcome State Fault Refusal} {fuel : Nat}

/-! ## Properties along `runStepsOf` -/

/-- What every step keeps holds at the end of a run. -/
theorem runStepsOf_induction {P : State → Prop} (keeps : ∀ s t, P s → next s = .next t → P t) (hs : P s)
    (h : runStepsOf next fuel s = .next t) : P t := by
  induction fuel generalizing s with
  | zero => cases h; exact hs
  | succ fuel ih =>
    rw [runStepsOf] at h
    split at h
    · split at h
      · next u first => exact ih (keeps s u hs first) h
      · cases h
      · cases h
    · cases h; exact hs

/-- A run that has ended is the run of any more fuel. -/
theorem runStepsOf_add (extra : Nat) (ended : t.status ≠ .ready) (h : runStepsOf next fuel s = .next t) :
    runStepsOf next (fuel + extra) s = .next t := by
  induction fuel generalizing s with
  | zero => cases h; exact runStepsOf_of_not_ready ended
  | succ fuel ih =>
    rw [Nat.add_right_comm, runStepsOf]
    rw [runStepsOf] at h
    split at h
    · next ready =>
      rw [if_pos ready]
      split at h
      · exact ih h
      · cases h
      · cases h
    · next notReady => rw [if_neg notReady, h]

/-- Settles O56: every step keeps the bound, and the fuel of `runToEnd` is enough to end. -/
theorem runToEndStaysWithinTheStepBound : Obligations.RunToEndStaysWithinTheStepBound := by
  unfold Obligations.RunToEndStaysWithinTheStepBound
  intro s t h
  refine ⟨fun hb => runStepsOf_induction (fun _ _ => step_steps_le) hb h, fun extra => ?_⟩
  obtain ⟨t', ran, ended⟩ :=
    runStepsOf_terminates step_total step_countsReadySteps (Nat.lt_succ_self (npad.maxSteps - s.steps))
  cases ran.symm.trans h
  exact runStepsOf_add extra ended ran

/-! ## The parametric machine -/

/-- Settles O58: the service numbers are distinct, so the selector decides the state that `syscall` answers. -/
theorem syscallFollowsTheParameters : Obligations.SyscallFollowsTheParameters := by
  unfold Obligations.SyscallFollowsTheParameters
  intro c s distinct
  obtain ⟨printInt, printString, exit, printChar, others⟩ := service_of_selector s c distinct
  refine ⟨s.service c, rfl, sameRegs_service s c, fun hv => ?_, fun hv => ?_, fun hv => ?_, fun hv => ?_, fun hv => ?_⟩
  · rw [printInt hv]
    exact printEffect_print_advance s _
  · rw [printString hv]
    exact printEffect_print_advance s _
  · rw [exit hv]
    exact ⟨rfl, rfl⟩
  · rw [printChar hv]
    exact printEffect_print_advance s _
  · rw [others hv]
    exact ⟨rfl, rfl⟩

theorem stepWith_total (c : Config) (s : State) : ∃ t, stepWith c s = .next t := cycle_total fun i => execWith_total c i s

/-- Settles O59: the parametric step counts and ends a run as `step` does. -/
theorem everyParameterChoiceRunsToATerminalState : Obligations.EveryParameterChoiceRunsToATerminalState := by
  unfold Obligations.EveryParameterChoiceRunsToATerminalState
  intro c s
  have counts : CountsReadySteps c.maxSteps (stepWith c) := cycle_countsReadySteps fun _ _ _ => execWith_steps
  obtain ⟨t, ran, ended⟩ := runStepsOf_terminates (stepWith_total c) counts (Nat.lt_succ_self (c.maxSteps - s.steps))
  exact ⟨t, ran, Status.ne_ready_iff.mp ended, fun hb =>
    runStepsOf_induction (P := fun s => s.steps ≤ c.maxSteps) (fun _ _ => cycle_steps_le fun _ _ _ => execWith_steps) hb ran⟩

end Sys2Proof.Machine
end

section
/-!
PROOFS. Creation (spec 10_state R44, 70_reset R168, R169, 60_exceptions R154): what a created state holds, and when there is
one.
-/

namespace Sys2Proof.Machine

variable {c : Config} {src : Text} {p : Program} {ro mo : List (Text × Int)} {s t : State}

/-! ## The state at creation -/

theorem allRegs_getD_regIndex (r : Reg) : allRegs.getD (regIndex r) .zero = r := by cases r <;> rfl

theorem initial_regSlot (c : Config) (src : Text) (p : Program) (r : Reg) :
    (State.initial c src p).regSlot r = if r = .zero then 0#32 else narrow c.xlen (c.initReg r) := by
  have index_zero : regIndex r = 0 ↔ r = .zero := ⟨regIndex_injective (r' := .zero), fun h => h ▸ rfl⟩
  simp only [State.regSlot, State.initial, initialRegs, Fin.getElem_fin, Vector.getElem_ofFn, Fin.eta, index_zero,
    allRegs_getD_regIndex]

theorem initial_readReg (c : Config) (src : Text) (p : Program) {r : Reg} (hr : r ≠ .zero) :
    (State.initial c src p).readReg r = narrow c.xlen (c.initReg r) := by
  rw [State.readReg_eq_slot _ hr, initial_regSlot, if_neg hr]

/-- Settles O1: every register's place at reset is an element of the same constant vector. -/
theorem resetHoldsTheCreationValues : Obligations.ResetHoldsTheCreationValues := by
  unfold Obligations.ResetHoldsTheCreationValues
  have slots : ∀ r, State.reset.regSlot r = 0#32 := fun r => Vector.getElem_replicate _
  have regs : initialRegs npad = State.reset.regs := by decide
  refine ⟨rfl, rfl, rfl, rfl, rfl, rfl, rfl, fun r => ⟨?_, slots r⟩, fun _ => rfl, rfl, rfl, ?_⟩
  · rw [State.readReg, slots, ite_self]
  · simp only [create, overrideRegs, overrideMem, State.initial, regs]
    rfl

/-- Settles O2: the reset state has no program, no memory and no touched set. -/
theorem resetStateMeetsTheInvariant : Obligations.ResetStateMeetsTheInvariant := by
  unfold Obligations.ResetStateMeetsTheInvariant
  exact ⟨rfl, Nat.le_refl 0, rfl, Memory.wf_nil, by decide, by decide, Nat.zero_le _⟩

/-! ## What the overrides leave -/

/-- The overrides change registers and words only. -/
theorem create_frame (h : create c src p ro mo = .ok s) :
    { s with regs := initialRegs c, mem := [] } = State.initial c src p :=
  create_induction (P := fun s => { s with regs := initialRegs c, mem := [] } = State.initial c src p) rfl
    (fun _ _ _ h => h) (fun _ _ _ h => h) h

theorem create_regSlot_zero (h : create c src p ro mo = .ok s) : s.regSlot .zero = 0#32 :=
  create_induction (P := fun s => s.regSlot .zero = 0#32) (initial_regSlot c src p .zero)
    (fun s r v h => (State.regSlot_zero_setReg s r v).trans h) (fun _ _ _ h => h) h

theorem create_mem_wf (h : create c src p ro mo = .ok s) : Memory.wf s.mem :=
  create_induction (P := fun s => Memory.wf s.mem) Memory.wf_nil (fun _ _ _ h => h) (fun _ a v h => State.wf_setMem h a v) h

theorem overrideRegs_mem (h : overrideRegs c ro s = .ok t) : t.mem = s.mem :=
  overrideRegs_induction (P := fun t => t.mem = s.mem) (fun _ _ _ h => h) ro h rfl

theorem overrideMem_regs (h : overrideMem c mo s = .ok t) : t.regs = s.regs :=
  overrideMem_induction (P := fun t => t.regs = s.regs) (fun _ _ _ h => h) mo h rfl

/-- An override's value replaces the one before it, so the last that names a register gives its value. -/
theorem overrideRegs_readReg {r : Reg} (hr : r ≠ .zero) {d : Word} (hd : s.readReg r = narrow c.xlen d)
    (h : overrideRegs c ro s = .ok t) :
    t.readReg r = narrow c.xlen (((lastRegOverride c r ro).map norm32).getD d) := by
  induction ro generalizing s d with
  | nil => cases h; exact hd
  | cons e rest ih =>
    obtain ⟨name, v⟩ := e
    rw [overrideRegs] at h
    split at h
    · next r' hname =>
      rw [lastRegOverride, hname]
      by_cases same : r' = r
      · subst same
        rw [ih (d := norm32 v) (by rw [State.readReg_eq_slot _ hr, State.regSlot_setReg_same s _ hr]) h]
        cases lastRegOverride c r' rest <;> simp
      · rw [ih (d := d) (by rw [State.readReg_eq_slot _ hr, State.regSlot_setReg_other s _ (Ne.symm same),
          ← State.readReg_eq_slot _ hr, hd]) h]
        cases lastRegOverride c r rest <;> simp [same]
    · cases h

/-- An override's word replaces the one before it, so the last for an address gives its word. -/
theorem overrideMem_memRead {a : Word} (canonical : Memory.wf s.mem) {d : Word} (hd : s.memRead a = narrow c.xlen d)
    (h : overrideMem c mo s = .ok t) :
    t.memRead a = narrow c.xlen (((lastMemOverride c a mo).map norm32).getD d) := by
  induction mo generalizing s d with
  | nil => cases h; exact hd
  | cons e rest ih =>
    obtain ⟨key, v⟩ := e
    rw [overrideMem] at h
    split at h
    · next a' hkey =>
      rw [lastMemOverride, hkey]
      have canonical' := State.wf_setMem canonical (narrow c.xlen a') (narrow c.xlen (norm32 v))
      by_cases same : narrow c.xlen a' = a
      · rw [ih canonical' (d := norm32 v) (by rw [State.memRead_setMem canonical, if_pos same.symm]) h]
        cases lastMemOverride c a rest <;> simp [same]
      · rw [ih canonical' (d := d) (by rw [State.memRead_setMem canonical, if_neg (Ne.symm same), hd]) h]
        cases lastMemOverride c a rest <;> simp [same]
    · cases h

/-- `create` is the register overrides, then the memory overrides. -/
theorem create_eq_ok_iff :
    create c src p ro mo = .ok s ↔
      ∃ u, overrideRegs c ro (State.initial c src p) = .ok u ∧ overrideMem c mo u = .ok s := by
  rw [create]
  cases overrideRegs c ro (State.initial c src p) <;> simp

theorem create_readReg {r : Reg} (hr : r ≠ .zero) (h : create c src p ro mo = .ok s) :
    s.readReg r = narrow c.xlen (((lastRegOverride c r ro).map norm32).getD (c.initReg r)) := by
  obtain ⟨u, hu, hs⟩ := create_eq_ok_iff.mp h
  rw [State.readReg_congr (overrideMem_regs hs), overrideRegs_readReg hr (initial_readReg c src p hr) hu]

theorem create_memRead (a : Word) (h : create c src p ro mo = .ok s) :
    s.memRead a = narrow c.xlen (((lastMemOverride c a mo).map norm32).getD 0#32) := by
  obtain ⟨u, hu, hs⟩ := create_eq_ok_iff.mp h
  have empty : u.mem = [] := overrideRegs_mem hu
  refine overrideMem_memRead (empty ▸ Memory.wf_nil) ?_ hs
  rw [State.memRead, empty, narrow_zero]
  rfl

/-- Settles O3: `create` changes registers and words of the initial state only, each to its last override. -/
theorem createAppliesTheHostOverrides : Obligations.CreateAppliesTheHostOverrides := by
  unfold Obligations.CreateAppliesTheHostOverrides
  intro c src p ro mo s h
  have frame := create_frame h
  exact ⟨congrArg State.source frame, congrArg State.program frame, congrArg State.pc frame, congrArg State.steps frame,
    congrArg State.status frame, congrArg State.error frame, congrArg State.output frame, congrArg State.touchedRegs frame,
    congrArg State.touchedMem frame, State.readReg_zero s, create_regSlot_zero h, fun r hr => create_readReg hr h,
    fun a => create_memRead a h⟩

/-! ## Refusals -/

/-- The register overrides are applied, or the first bad one is refused. -/
theorem overrideRegs_cases (c : Config) (ro : List (Text × Int)) (s : State) :
    ((∃ t, overrideRegs c ro s = .ok t) ∧ ∀ e ∈ ro, lookupReg c e.1 ≠ none) ∨
    ∃ e ∈ ro, lookupReg c e.1 = none ∧ overrideRegs c ro s = .error (.initBadRegister e.1) := by
  induction ro generalizing s with
  | nil => exact .inl ⟨⟨s, rfl⟩, by simp⟩
  | cons e rest ih =>
    obtain ⟨name, v⟩ := e
    cases hname : lookupReg c name with
    | none => exact .inr ⟨(name, v), List.mem_cons_self, hname, by simp only [overrideRegs, hname]⟩
    | some r =>
      have continues : overrideRegs c ((name, v) :: rest) s = overrideRegs c rest (s.setReg r (narrow c.xlen (norm32 v))) := by
        simp only [overrideRegs, hname]
      rw [continues]
      rcases ih (s.setReg r (narrow c.xlen (norm32 v))) with ⟨ok, good⟩ | ⟨e, he, bad⟩
      · exact .inl ⟨ok, List.forall_mem_cons.mpr ⟨by simp [hname], good⟩⟩
      · exact .inr ⟨e, List.mem_cons_of_mem _ he, bad⟩

/-- The memory overrides are applied, or the first bad one is refused. -/
theorem overrideMem_cases (c : Config) (mo : List (Text × Int)) (s : State) :
    ((∃ t, overrideMem c mo s = .ok t) ∧ ∀ e ∈ mo, parseNum e.1 ≠ none) ∨
    ∃ e ∈ mo, parseNum e.1 = none ∧ overrideMem c mo s = .error (.initBadAddress e.1) := by
  induction mo generalizing s with
  | nil => exact .inl ⟨⟨s, rfl⟩, by simp⟩
  | cons e rest ih =>
    obtain ⟨key, v⟩ := e
    cases hkey : parseNum key with
    | none => exact .inr ⟨(key, v), List.mem_cons_self, hkey, by simp only [overrideMem, hkey]⟩
    | some a =>
      have continues : overrideMem c ((key, v) :: rest) s =
          overrideMem c rest (s.setMem (narrow c.xlen a) (narrow c.xlen (norm32 v))) := by
        simp only [overrideMem, hkey]
      rw [continues]
      rcases ih (s.setMem (narrow c.xlen a) (narrow c.xlen (norm32 v))) with ⟨ok, good⟩ | ⟨e, he, bad⟩
      · exact .inl ⟨ok, List.forall_mem_cons.mpr ⟨by simp [hkey], good⟩⟩
      · exact .inr ⟨e, List.mem_cons_of_mem _ he, bad⟩

/-- The three answers of `create`: a state, a bad register override, or a bad memory override. -/
theorem create_cases (c : Config) (src : Text) (p : Program) (ro mo : List (Text × Int)) :
    ((∃ s, create c src p ro mo = .ok s) ∧ (∀ e ∈ ro, lookupReg c e.1 ≠ none) ∧ ∀ e ∈ mo, parseNum e.1 ≠ none) ∨
    (∃ e ∈ ro, lookupReg c e.1 = none ∧ create c src p ro mo = .error (.initBadRegister e.1)) ∨
    ∃ e ∈ mo, parseNum e.1 = none ∧ create c src p ro mo = .error (.initBadAddress e.1) := by
  rcases overrideRegs_cases c ro (State.initial c src p) with ⟨⟨u, hu⟩, goodRegs⟩ | ⟨e, he, bad, hu⟩
  · have continues : create c src p ro mo = overrideMem c mo u := by simp only [create, hu]
    rw [continues]
    rcases overrideMem_cases c mo u with ⟨ok, goodMem⟩ | bad
    · exact .inl ⟨ok, goodRegs, goodMem⟩
    · exact .inr (.inr bad)
  · exact .inr (.inl ⟨e, he, bad, by simp only [create, hu]⟩)

/-- Settles O4: each of the three answers of `create` excludes the other two. -/
theorem createRefusesExactlyBadOverrides : Obligations.CreateRefusesExactlyBadOverrides := by
  unfold Obligations.CreateRefusesExactlyBadOverrides
  intro c src p ro mo
  rcases create_cases c src p ro mo with ⟨⟨s, h⟩, good⟩ | ⟨e, he, bad, h⟩ | ⟨e, he, bad, h⟩ <;> rw [h]
  · exact ⟨⟨fun _ => good, fun _ => ⟨s, rfl⟩⟩, nofun, nofun⟩
  · refine ⟨⟨nofun, fun good => absurd bad (good.1 e he)⟩, fun name eq => ?_, nofun⟩
    cases eq
    exact ⟨e, he, rfl, bad⟩
  · refine ⟨⟨nofun, fun good => absurd bad (good.2 e he)⟩, nofun, fun key eq => ?_⟩
    cases eq
    exact ⟨e, he, rfl, bad⟩

end Sys2Proof.Machine
end

section
/-!
PROOFS. The widths and the number of registers (spec 00_scope R9; log entry 13): `exec`, `step` and `runToEnd` as the parametric
ones at npad-core's parameters, and what fits in `XLEN` bits or lies within `NREGS` registers under any.
-/

namespace Sys2Proof.Machine

variable {c : Config} {src : Text} {p : Program} {ro mo : List (Text × Int)} {s t : State} {i : Instr}

/-! ## The parametric machine at npad-core's parameters -/

theorem stepWith_npad (s : State) : stepWith npad s = step s := by
  rw [stepWith, step, show execWith npad = exec from funext₂ execWith_npad]

theorem runToEndWith_npad (s : State) : runToEndWith npad s = runToEnd s := by
  rw [runToEndWith, runToEnd, runSteps, show stepWith npad = step from funext stepWith_npad]

/-! ## `XLEN` -/

theorem fits_narrow (c : Config) (v : Word) : fits c (narrow c.xlen v) := narrow_narrow c.xlen_bound.2 v

theorem fits_zero (c : Config) : fits c 0#32 := narrow_zero c.xlen

theorem fits_accessAddress (c : Config) (s : State) (m : MemOperand) : fits c (accessAddress c s m) := fits_narrow c _

/-- A stored word and its address that fit leave memory in width. -/
theorem mem_inWidth_write {m : Memory} (hm : ∀ e ∈ m, fits c (BitVec.ofNat 32 e.1) ∧ fits c e.2) {a v : Word}
    (ha : fits c a) (hv : fits c v) :
    ∀ e ∈ Memory.write m a.toNat v, fits c (BitVec.ofNat 32 e.1) ∧ fits c e.2 := by
  intro e he
  rcases Memory.mem_write he with he | ⟨rfl, -⟩
  · exact hm e he
  · exact ⟨by rwa [BitVec.ofNat_toNat, BitVec.setWidth_eq], hv⟩

theorem overrideMem_mem_inWidth (hm : ∀ e ∈ s.mem, fits c (BitVec.ofNat 32 e.1) ∧ fits c e.2)
    (h : overrideMem c mo s = .ok t) : ∀ e ∈ t.mem, fits c (BitVec.ofNat 32 e.1) ∧ fits c e.2 := by
  induction mo generalizing s with
  | nil => cases h; exact hm
  | cons e rest ih =>
    obtain ⟨key, v⟩ := e
    rw [overrideMem] at h
    split at h
    · exact ih (mem_inWidth_write hm (fits_narrow c _) (fits_narrow c _)) h
    · cases h

theorem create_inWidth (h : create c src p ro mo = .ok s) : s.InWidth c where
  regs r := by
    by_cases hr : r = .zero
    · subst hr
      exact fits_zero c
    · rw [create_readReg hr h]
      exact fits_narrow c _
  mem := by
    obtain ⟨u, hu, hs⟩ := create_eq_ok_iff.mp h
    refine overrideMem_mem_inWidth ?_ hs
    rw [overrideRegs_mem hu]
    exact fun e he => absurd he List.not_mem_nil

/-- Registers that read the same and the same memory are in width alike. -/
theorem State.InWidth.of_same (hs : s.InWidth c) (regs : ∀ r, t.readReg r = s.readReg r) (mem : t.mem = s.mem) :
    t.InWidth c :=
  ⟨fun r => regs r ▸ hs.regs r, mem ▸ hs.mem⟩

theorem execWith_inWidth (hs : s.InWidth c) (h : execWith c i s = .next t) : t.InWidth c := by
  rcases execWith_cases h with ⟨rd, v, -, rfl⟩ | ⟨rs, m, -, rfl⟩ | ⟨_, rfl⟩ | ⟨_, rfl⟩ | rfl | ⟨_, rfl⟩
  · refine ⟨fun r => ?_, hs.mem⟩
    rw [State.readReg_advance, State.putReg, State.readReg_writeReg]
    split
    · exact fits_narrow c v
    · exact hs.regs r
  · exact ⟨hs.regs, mem_inWidth_write hs.mem (fits_accessAddress c s m) (hs.regs rs)⟩
  all_goals exact hs.of_same (fun _ => rfl) rfl

theorem stepWith_inWidth (hs : s.InWidth c) (h : stepWith c s = .next t) : t.InWidth c := by
  rcases cycle_cases h with ⟨-, rfl⟩ | ⟨-, -, rfl⟩ | ⟨-, -, -, rfl⟩ | ⟨_, e, -, -, -, -, rfl⟩ |
    ⟨_, _, u, -, -, -, -, hx, rfl⟩
  · exact hs
  · exact hs.of_same (fun _ => rfl) rfl
  · exact hs.of_same (fun _ => rfl) rfl
  · exact hs.of_same (State.readReg_retire (s.raise c e)) rfl
  · exact (execWith_inWidth hs hx).of_same (State.readReg_retire u) rfl

/-! ## `NREGS` -/

theorem regIndex_lt_of_mem_take {n : Nat} {r : Reg} (h : r ∈ allRegs.take n) : regIndex r < n := by
  have index : ∀ k (hk : k < allRegs.length), (regIndex allRegs[k]).val = k := by decide
  obtain ⟨k, hk, rfl⟩ := List.mem_take_iff_getElem.mp h
  rw [index]
  omega

theorem regIndex_lt_of_lookupReg {t : Text} {r : Reg} (h : lookupReg c t = some r) : regIndex r < c.nregs :=
  regIndex_lt_of_mem_take (List.mem_of_find?_eq_some h)

theorem regIndex_lt_of_decode {line : Text} (h : decode c p line = .ok i) : ∀ r ∈ operandRegs i, regIndex r < c.nregs := by
  intro r hr
  obtain ⟨t, ht⟩ := (operandsDecoded_of_decode h).1 r hr
  exact regIndex_lt_of_lookupReg ht

theorem destination_mem_operandRegs {rd : Reg} (h : destination i = some rd) : rd ∈ operandRegs i := by
  cases i with
  | lw r m => cases h; cases m <;> exact List.mem_cons_self
  | sw _ _ => cases h
  | beq _ _ _ => cases h
  | bne _ _ _ => cases h
  | j _ => cases h
  | syscall => cases h
  | _ => cases h; exact List.mem_cons_self

/-- No line names a register past the first `NREGS`, so no step writes one. -/
theorem stepWith_readReg_of_nregs_le {r : Reg} (past : c.nregs ≤ regIndex r) (h : stepWith c s = .next t) :
    t.readReg r = s.readReg r := by
  by_contra changed
  obtain ⟨line, i, -, hd, dest⟩ := cycle_destination_of_changed (fun _ _ _ => execWith_readReg_other) h changed
  exact absurd (regIndex_lt_of_decode hd r (destination_mem_operandRegs dest)) (Nat.not_lt.mpr past)

/-- Settles O60: at `XLEN` 32 narrowing is the identity; at any width it is idempotent, and every write narrows. -/
theorem machineIsTheParametricOneAtItsParameters : Obligations.MachineIsTheParametricOneAtItsParameters := by
  unfold Obligations.MachineIsTheParametricOneAtItsParameters
  exact ⟨execWith_npad, stepWith_npad, runToEndWith_npad, narrow_npad, rfl, fun c => toInt_narrow c.xlen_bound.2,
    fun _ _ _ _ _ _ => create_inWidth, fun _ _ _ => stepWith_inWidth, fits_accessAddress,
    fun _ _ _ => regIndex_lt_of_lookupReg, fun _ _ _ _ => regIndex_lt_of_decode,
    fun _ _ _ _ h past => stepWith_readReg_of_nregs_le past h⟩

end Sys2Proof.Machine
end

section
/-!
PROOFS. The loader (spec 30_encoding R68 to R80, 20_memory R53 to R56): what one body can do, the Program that a load gives, and
the two segments' lines.
-/

namespace Sys2Proof.Machine

variable {c : Config} {st st' : LoadState} {body line : Text} {names : List Text}

/-! ## One body

The first token chooses what a body does; `bodyOf body` is what stands after it. -/

/-- A segment switch or nothing, an instruction line, a string, or words. -/
theorem loadBody_cases (h : loadBody c body st = .ok st') :
    (∃ seg, st' = { st with seg := seg }) ∨
    (body.head? ≠ some (.scalar '.') ∧ st' = { st with instrs := st.instrs ++ [body] }) ∨
    (∃ payload, st' = allocString c payload st) ∨ ∃ k, st' = allocWords c k st := by
  have unsupported : unsupportedData c body st = .ok st' → st' = st := by
    unfold unsupportedData
    split
    · nofun
    · rintro ⟨⟩
      rfl
  simp only [loadBody] at h
  split at h
  · cases h; exact .inl ⟨_, rfl⟩
  split at h
  · cases h; exact .inl ⟨_, rfl⟩
  split at h
  · cases h; exact .inl ⟨_, rfl⟩
  split at h
  · cases h
    by_cases directive : body.head? = some (.scalar '.')
    · exact .inl ⟨st.seg, by rw [loadTextLine, if_pos directive]⟩
    · exact .inr (.inl ⟨directive, by rw [loadTextLine, if_neg directive]⟩)
  · unfold loadDataLine at h
    split at h
    · split at h
      · cases h; exact .inr (.inr (.inl ⟨_, rfl⟩))
      · exact .inl ⟨st.seg, unsupported h⟩
    split at h
    · cases h; exact .inr (.inr (.inr ⟨_, rfl⟩))
    · exact .inl ⟨st.seg, unsupported h⟩

/-- Without `STRICT_DATA_DIRECTIVES` every body is loaded. -/
theorem loadBody_total (lenient : c.strictDataDirectives = false) (body : Text) (st : LoadState) :
    ∃ st', loadBody c body st = .ok st' := by
  have unsupported : unsupportedData c body st = .ok st := by simp [unsupportedData, lenient]
  simp only [loadBody, loadDataLine, unsupported]
  repeat' split
  all_goals exact ⟨_, rfl⟩

/-! ## The pieces of a source -/

theorem splitOn_cons_of_ne {sep ch : CodePoint} (h : ch ≠ sep) (t : Text) :
    ∃ piece pieces, splitOn sep t = piece :: pieces ∧ splitOn sep (ch :: t) = (ch :: piece) :: pieces := by
  have ne_nil : splitOn sep t ≠ [] := by
    cases t with
    | nil => simp [splitOn]
    | cons x t =>
      rw [splitOn]
      split
      · simp
      · split <;> simp
  obtain ⟨piece, pieces, e⟩ := List.exists_cons_of_ne_nil ne_nil
  exact ⟨piece, pieces, e, by simp only [splitOn, h, e, if_false]⟩

theorem splitOn_cons_self (sep : CodePoint) (t : Text) : splitOn sep (sep :: t) = [] :: splitOn sep t := by
  simp only [splitOn, if_true]

/-- The pieces are at least one, hold no separator, and joined by it are the text. -/
theorem splitOn_spec (sep : CodePoint) (t : Text) :
    splitOn sep t ≠ [] ∧ (∀ piece ∈ splitOn sep t, sep ∉ piece) ∧ [sep].intercalate (splitOn sep t) = t := by
  induction t with
  | nil => simp [splitOn]
  | cons ch t ih =>
    obtain ⟨ne, clean, joined⟩ := ih
    by_cases h : ch = sep
    · subst h
      rw [splitOn_cons_self]
      refine ⟨by simp, List.forall_mem_cons.mpr ⟨List.not_mem_nil, clean⟩, ?_⟩
      rw [List.intercalate_cons_of_ne_nil ne, joined]
      rfl
    · obtain ⟨piece, pieces, e, e'⟩ := splitOn_cons_of_ne h t
      rw [e] at clean joined
      rw [e']
      obtain ⟨head, tail⟩ := List.forall_mem_cons.mp clean
      refine ⟨by simp, List.forall_mem_cons.mpr ⟨?_, tail⟩, ?_⟩
      · simp [head, Ne.symm h]
      · cases pieces with
        | nil => simpa using joined
        | cons piece' pieces =>
          rw [List.intercalate_cons_cons] at joined ⊢
          rw [← joined]
          rfl

/-! ## The whole pass at npad-core's switches -/

theorem bindLabels_total (lastWins : c.labelDuplicates = .lastWins) (names : List Text) (st : LoadState) :
    ∃ st', bindLabels c names st = .ok st' := by
  cases hs : st.seg with
  | text =>
    obtain ⟨table, h, -⟩ := bindLabels_text c names st hs (.inl lastWins)
    exact ⟨_, h⟩
  | data =>
    obtain ⟨table, h, -⟩ := bindLabels_data c names st hs (.inl lastWins)
    exact ⟨_, h⟩

theorem loadLine_total (lastWins : c.labelDuplicates = .lastWins) (lenient : c.strictDataDirectives = false)
    (line : Text) (st : LoadState) : ∃ st', loadLine c line st = .ok st' := by
  obtain ⟨st₁, h⟩ := bindLabels_total lastWins (peelLabels (trim (stripComment line)).length (trim (stripComment line))).1 st
  simp only [loadLine, h]
  split
  · exact ⟨st₁, rfl⟩
  · exact loadBody_total lenient _ st₁

theorem loadLines_cons (h : loadLine c line st = .ok st') (lines : List Text) :
    loadLines c (line :: lines) st = loadLines c lines st' := by
  simp only [loadLines, h]

theorem loadLines_total (lastWins : c.labelDuplicates = .lastWins) (lenient : c.strictDataDirectives = false)
    (lines : List Text) (st : LoadState) : ∃ st', loadLines c lines st = .ok st' := by
  induction lines generalizing st with
  | nil => exact ⟨st, rfl⟩
  | cons line lines ih =>
    obtain ⟨st₁, h⟩ := loadLine_total lastWins lenient line st
    rw [loadLines_cons h]
    exact ih st₁

theorem finishLoad_lazy (lazy : c.eagerValidation = false) (p : Program) :
    finishLoad c p = if p.instrs = [] then .error .emptyProgram else .ok p := by
  simp [finishLoad, lazy]

/-- Settles O7: at npad-core's switches no line is refused, and the pass is followed by the check for an instruction line. -/
theorem loadFailsOnlyWithoutInstructionLines : Obligations.LoadFailsOnlyWithoutInstructionLines := by
  unfold Obligations.LoadFailsOnlyWithoutInstructionLines
  refine ⟨fun src => ?_, rfl, fun _ => ⟨rfl, rfl, rfl, rfl, rfl, rfl⟩, splitOn_spec _, fun _ _ => rfl,
    fun _ _ lines _ _ h => loadLines_cons h lines⟩
  obtain ⟨st, h⟩ := loadLines_total (c := npad) rfl rfl (splitOn (.scalar '\n') src) (LoadState.start npad)
  refine ⟨st, h, ?_⟩
  simp only [load, h, finishLoad_lazy (c := npad) rfl, LoadState.program]

/-! ## The labels of a line -/

theorem trim_subset (t : Text) : trim t ⊆ t := by
  obtain ⟨s₁, s₂, -, e⟩ := exists_spaces_trim t
  intro ch h
  rw [e]
  simp [h]

theorem peelLabel_some {t name rest : Text} (h : peelLabel t = some (name, rest)) :
    isIdent name = true ∧ trim rest = rest ∧ rest ⊆ t := by
  simp only [peelLabel] at h
  split at h
  · next ident =>
    split at h
    · next u hu =>
      cases h
      have suffix : u ⊆ t := fun ch hch =>
        (List.dropWhile_sublist isIdentChar).subset (hu ▸ List.mem_cons_of_mem _ hch)
      exact ⟨ident, trim_trim u, fun ch hch => suffix (trim_subset u hch)⟩
    · cases h
  · cases h

theorem peelLabels_spec {t : Text} (trimmed : trim t = t) (fuel : Nat) :
    (∀ name ∈ (peelLabels fuel t).1, isIdent name = true) ∧ trim (peelLabels fuel t).2 = (peelLabels fuel t).2 ∧
      (peelLabels fuel t).2 ⊆ t := by
  induction fuel generalizing t with
  | zero => exact ⟨by simp [peelLabels], trimmed, List.Subset.refl t⟩
  | succ fuel ih =>
    rw [peelLabels]
    split
    · next name rest h =>
      obtain ⟨ident, trimmedRest, sub⟩ := peelLabel_some h
      obtain ⟨idents, trimmedBody, subRest⟩ := ih trimmedRest
      exact ⟨List.forall_mem_cons.mpr ⟨ident, idents⟩, trimmedBody, List.Subset.trans subRest sub⟩
    · exact ⟨by simp, trimmed, List.Subset.refl t⟩

/-! ## The loaded Program -/

theorem mem_bindKey {α β : Type} [DecidableEq α] {k : α} {v : β} {table : List (α × β)} {e : α × β}
    (h : e ∈ bindKey k v table) : e = (k, v) ∨ e ∈ table := by
  induction table with
  | nil => exact .inl (List.mem_singleton.mp h)
  | cons e' table ih =>
    rw [bindKey] at h
    split at h
    · exact (List.mem_cons.mp h).imp_right (List.mem_cons_of_mem _)
    · rcases List.mem_cons.mp h with rfl | h
      · exact .inr List.mem_cons_self
      · exact (ih h).imp_right (List.mem_cons_of_mem _)

theorem bindLabel_wellFormed {name : Text} (wf : WellFormedTables st.program) (ident : isIdent name = true)
    (h : bindLabel c name st = .ok st') : WellFormedTables st'.program := by
  unfold bindLabel at h
  split at h
  · split at h
    · cases h
    · cases h
      refine { wf with textNames := fun e he => ?_, targets := fun e he => ?_, textKeys := nodup_keys_bindKey _ _ wf.textKeys }
      · rcases mem_bindKey he with rfl | he
        · exact ident
        · exact wf.textNames e he
      · rcases mem_bindKey he with rfl | he
        · exact Nat.le_refl _
        · exact wf.targets e he
  · split at h
    · cases h
    · cases h
      refine { wf with dataNames := fun e he => ?_, dataKeys := nodup_keys_bindKey _ _ wf.dataKeys }
      rcases mem_bindKey he with rfl | he
      · exact ident
      · exact wf.dataNames e he

theorem bindLabels_wellFormed (wf : WellFormedTables st.program) (idents : ∀ name ∈ names, isIdent name = true)
    (h : bindLabels c names st = .ok st') : WellFormedTables st'.program := by
  induction names generalizing st with
  | nil => cases h; exact wf
  | cons name names ih =>
    obtain ⟨ident, idents⟩ := List.forall_mem_cons.mp idents
    rw [bindLabels] at h
    split at h
    · next st₁ h₁ => exact ih (bindLabel_wellFormed wf ident h₁) idents h
    · cases h

theorem lineOk_iff {line : Text} :
    lineOk line = true ↔ line ≠ [] ∧ trim line = line ∧ .scalar '#' ∉ line ∧ .scalar '\n' ∉ line ∧
      line.head? ≠ some (.scalar '.') := by
  simp [lineOk, and_assoc]

theorem loadBody_wellFormed (wf : WellFormedTables st.program) (hne : body ≠ []) (trimmed : trim body = body)
    (noHash : .scalar '#' ∉ body) (noFeed : .scalar '\n' ∉ body) (h : loadBody c body st = .ok st') :
    WellFormedTables st'.program := by
  rcases loadBody_cases h with ⟨_, rfl⟩ | ⟨noDirective, rfl⟩ | ⟨payload, rfl⟩ | ⟨_, rfl⟩
  · exact { wf with }
  · refine { wf with lines := fun line hl => ?_, targets := fun e he => ?_ }
    · rcases List.mem_append.mp hl with hl | hl
      · exact wf.lines line hl
      · rw [List.mem_singleton.mp hl]
        exact lineOk_iff.mpr ⟨hne, trimmed, noHash, noFeed, noDirective⟩
    · have bound : e.2 ≤ st.instrs.length := wf.targets e he
      show e.2 ≤ (st.instrs ++ [body]).length
      rw [List.length_append]
      omega
  · exact { wf with stringKeys := nodup_keys_bindKey _ _ wf.stringKeys }
  · exact { wf with }

theorem loadLine_wellFormed (wf : WellFormedTables st.program) (noFeed : .scalar '\n' ∉ line)
    (h : loadLine c line st = .ok st') : WellFormedTables st'.program := by
  have noHash : .scalar '#' ∉ trim (stripComment line) := fun hm =>
    absurd (List.mem_takeWhile_imp (trim_subset _ hm)) (by decide)
  have noFeed' : .scalar '\n' ∉ trim (stripComment line) := fun hm =>
    noFeed ((List.takeWhile_sublist _).subset (trim_subset _ hm))
  obtain ⟨idents, trimmed, sub⟩ := peelLabels_spec (trim_trim (stripComment line)) (trim (stripComment line)).length
  simp only [loadLine] at h
  split at h
  · cases h
  · next st₁ h₁ =>
    have wf₁ := bindLabels_wellFormed wf idents h₁
    split at h
    · cases h; exact wf₁
    · next hne => exact loadBody_wellFormed wf₁ hne trimmed (fun hm => noHash (sub hm)) (fun hm => noFeed' (sub hm)) h

theorem loadLines_wellFormed {lines : List Text} (wf : WellFormedTables st.program)
    (noFeed : ∀ line ∈ lines, .scalar '\n' ∉ line) (h : loadLines c lines st = .ok st') :
    WellFormedTables st'.program := by
  induction lines generalizing st with
  | nil => cases h; exact wf
  | cons line lines ih =>
    obtain ⟨head, tail⟩ := List.forall_mem_cons.mp noFeed
    rw [loadLines] at h
    split at h
    · next st₁ h₁ => exact ih (loadLine_wellFormed wf head h₁) tail h
    · cases h

theorem start_wellFormed (c : Config) : WellFormedTables (LoadState.start c).program := by
  constructor <;> simp [LoadState.start, LoadState.program]

theorem finishLoad_eq_ok {p q : Program} (h : finishLoad c p = .ok q) : q = p ∧ p.instrs ≠ [] := by
  unfold finishLoad at h
  split at h
  · cases h
  · next hne =>
    split at h
    · split at h
      · cases h
      · cases h; exact ⟨rfl, hne⟩
    · cases h; exact ⟨rfl, hne⟩

theorem load_wellFormed {src : Text} {p : Program} (h : load c src = .ok p) :
    WellFormedTables p ∧ 1 ≤ p.instrs.length := by
  unfold load at h
  split at h
  · next st hl =>
    obtain ⟨rfl, hne⟩ := finishLoad_eq_ok h
    exact ⟨loadLines_wellFormed (start_wellFormed c) (splitOn_spec _ src).2.1 hl, List.length_pos_iff.mpr hne⟩
  · cases h

/-- Settles O6: every line keeps the tables well formed, and `EmptyProgram` guards the end. -/
theorem loadedProgramIsWellFormed : Obligations.LoadedProgramIsWellFormed := by
  unfold Obligations.LoadedProgramIsWellFormed
  intro c src p h
  obtain ⟨wf, nonempty⟩ := load_wellFormed h
  exact ⟨wf_iff_wellFormedTables.mpr wf, nonempty⟩

/-- Settles O5: the loader gives the Program's part of the invariant, and creation the rest. -/
theorem createdStateMeetsTheInvariant : Obligations.CreatedStateMeetsTheInvariant := by
  unfold Obligations.CreatedStateMeetsTheInvariant
  intro c src p ro mo s loaded created
  obtain ⟨-, program, pc, steps, status, error, -, touchedRegs, touchedMem, -, zero, -, -⟩ :=
    createAppliesTheHostOverrides c src p ro mo s created
  exact
    { program := program ▸ wf_iff_wellFormedTables.mpr (load_wellFormed loaded).1
      pc := pc ▸ Nat.zero_le _
      zero := zero
      mem := create_mem_wf created
      error := by simp [State.errorOk, status, error]
      touched := by simp [State.touchedOk, touchedRegs, touchedMem]
      steps := steps ▸ Nat.zero_le _ }

end Sys2Proof.Machine
end

section
/-!
PROOFS. The lines of the two segments (spec 30_encoding R69 to R77, R102, 20_memory R53 to R56): labels are bound first, then the
first token of the body decides.
-/

namespace Sys2Proof.Machine

variable {c : Config} {st : LoadState} {body line : Text} {names : List Text}

/-! ## The first token -/

/-- A directive's first token begins with a dot, and so does its body. -/
theorem head_of_firstToken {ch : CodePoint} {rest : Text} (h : body.takeWhile (!isSpace ·) = ch :: rest) :
    body.head? = some ch := by
  cases body with
  | nil => cases h
  | cons x t =>
    rw [List.takeWhile_cons] at h
    split at h
    · cases h; rfl
    · cases h

/-- A token followed by nothing or by `WS` is the first token, and what follows it is the rest. -/
theorem firstToken_append {token rest : Text} (ht : ∀ ch ∈ token, isSpace ch = false)
    (hr : ∀ ch, rest.head? = some ch → isSpace ch = true) :
    (token ++ rest).takeWhile (!isSpace ·) = token ∧ bodyOf (token ++ rest) = trimStart rest := by
  have run : ∀ ch ∈ token, (!isSpace ch) = true := fun ch h => by simp [ht ch h]
  have stop : ∀ ch, rest.head? = some ch → (!isSpace ch) = false := fun ch h => by simp [hr ch h]
  exact ⟨takeWhile_append_stop run stop, by rw [bodyOf, dropWhile_append_stop run stop]⟩

/-! ## `.text` -/

theorem loadBody_text (hs : st.seg = .text) :
    loadBody c body st = .ok { st with
      instrs := if body.head? = some (.scalar '.') then st.instrs else st.instrs ++ [body]
      seg := if body.takeWhile (!isSpace ·) = text ".data" then .data else .text } := by
  have data : text ".data" = chars ['.', 'd', 'a', 't', 'a'] := by decide
  rw [data]
  simp only [loadBody]
  split
  · next first => simp [head_of_firstToken first, first]
  split
  · next first => simp [head_of_firstToken first]
  next noData =>
  split
  · next first => simp [head_of_firstToken first, ← hs]
  · rw [hs]
    by_cases directive : body.head? = some (.scalar '.')
    · simp [loadTextLine, directive, ← hs]
    · simp [loadTextLine, directive, ← hs]

/-- Settles O8: the labels are bound before the body, and then the body is stored, or skipped as a directive. -/
theorem textLabelIsTheIndexOfTheNextInstruction : Obligations.TextLabelIsTheIndexOfTheNextInstruction := by
  unfold Obligations.TextLabelIsTheIndexOfTheNextInstruction
  intro c names body line st hs spelt free
  obtain ⟨table, bind, bound⟩ := bindLabels_text c names st hs free
  rw [loadLine_sourceLine c st spelt, bind]
  by_cases empty : body = []
  · subst empty
    exact ⟨{ st with textLabels := table }, rfl, bound, rfl, rfl, rfl, rfl, hs⟩
  · simp only [empty, if_false, false_or]
    exact ⟨_, loadBody_text hs, bound, rfl, rfl, rfl, rfl, rfl⟩

/-! ## `.data` -/

/-- Every line of the data segment binds its labels to the cursor before its body is loaded. -/
theorem loadLine_data (hs : st.seg = .data) (spelt : sourceLine names body line) (free : definable c st.dataLabels names) :
    ∃ table, LabelsBound names st.cursor st.dataLabels table ∧
      loadLine c line st =
        if body = [] then .ok { st with dataLabels := table } else loadBody c body { st with dataLabels := table } := by
  obtain ⟨table, bind, bound⟩ := bindLabels_data c names st hs free
  exact ⟨table, bound, by rw [loadLine_sourceLine c st spelt, bind]⟩

theorem loadBody_data {first : Text} (hs : st.seg = .data) (hf : body.takeWhile (!isSpace ·) = first)
    (noSwitch : first ∉ [text ".text", text ".data", text ".globl"]) :
    loadBody c body st = loadDataLine c body first (bodyOf body) st := by
  rw [show [text ".text", text ".data", text ".globl"] =
    [chars ['.', 't', 'e', 'x', 't'], chars ['.', 'd', 'a', 't', 'a'], chars ['.', 'g', 'l', 'o', 'b', 'l']] by decide] at noSwitch
  simp only [List.mem_cons, List.not_mem_nil, or_false, not_or] at noSwitch
  obtain ⟨noText, noData, noGlobl⟩ := noSwitch
  simp only [loadBody, hf, noText, noData, noGlobl, if_false, hs, bodyOf]

theorem loadDataLine_asciiz {rest payload : Text} (h : asciizPayload rest = some payload) :
    loadDataLine c body (text ".asciiz") rest st = .ok (allocString c (expandEscapes payload) st) := by
  rw [loadDataLine, if_pos (by decide), h]

theorem expandEscapes_cons {a : CodePoint} {t : Text}
    (h : a = .scalar '\\' → t.head? ≠ some (.scalar 'n') ∧ t.head? ≠ some (.scalar '"')) :
    expandEscapes (a :: t) = a :: expandEscapes t := by
  cases t with
  | nil => rfl
  | cons b t =>
    have noFeed : ¬(a = .scalar '\\' ∧ b = .scalar 'n') := fun ⟨ha, hb⟩ => (h ha).1 (by simp [hb])
    have noQuote : ¬(a = .scalar '\\' ∧ b = .scalar '"') := fun ⟨ha, hb⟩ => (h ha).2 (by simp [hb])
    rw [expandEscapes, if_neg noFeed, if_neg noQuote]

/-- Settles O9: the body's payload is what stands between its quotes, and the string is bound at the cursor. -/
theorem asciizPayloadIsHeldAtItsLabel : Obligations.AsciizPayloadIsHeldAtItsLabel := by
  unfold Obligations.AsciizPayloadIsHeldAtItsLabel
  refine ⟨fun c names blanks payload line st hs hne hb spelt free => ?_, rfl, fun _ => rfl, fun _ => rfl,
    fun _ _ => expandEscapes_cons⟩
  rw [show chars ['.', 'a', 's', 'c', 'i', 'i', 'z'] = text ".asciiz" by decide] at spelt
  obtain ⟨table, bound, loaded⟩ := loadLine_data hs spelt free
  obtain ⟨first, quoted⟩ := asciizBody_payload hne hb payload
  have noSwitch : text ".asciiz" ∉ [text ".text", text ".data", text ".globl"] := by decide
  rw [if_neg (by simp), loadBody_data (st := { st with dataLabels := table }) hs first noSwitch,
    loadDataLine_asciiz (rest := bodyOf _) quoted] at loaded
  refine ⟨_, loaded, bound, ?_, fun a ha => ?_, rfl, rfl, rfl, rfl⟩
  · simp [allocString, lookup_bindKey]
  · simp [allocString, lookup_bindKey, ha]

/-! Blanks before the values of a `.word` line do not change their number. -/

theorem wordCount_cons_space {ch : CodePoint} (h : isSpace ch = true) (t : Text) : wordCount (ch :: t) = wordCount t := by
  have noComma : ch ≠ .scalar ',' := by
    rintro rfl
    exact absurd h (by decide)
  obtain ⟨piece, pieces, e, e'⟩ := splitOn_cons_of_ne noComma t
  have same : trim (ch :: piece) = trim piece := by
    simpa using trim_spaces_around (s₁ := [ch]) (s₂ := []) piece (by simpa using h) (by simp)
  simp only [wordCount, e, e', List.filter_cons, same]
  split <;> rfl

theorem wordCount_trimStart (t : Text) : wordCount (trimStart t) = wordCount t := by
  obtain ⟨s, hs, e⟩ := exists_spaces_trimStart t
  suffices ∀ u, wordCount (s ++ u) = wordCount u by
    rw [← this (trimStart t), ← e]
  intro u
  clear e
  induction s with
  | nil => rfl
  | cons ch s ih =>
    obtain ⟨head, tail⟩ := List.forall_mem_cons.mp hs
    rw [List.cons_append, wordCount_cons_space head, ih tail]

/-- Settles O10: `.word` is the first token, and only the number of the values after it is used. -/
theorem wordDirectiveOnlyAdvancesTheCursor : Obligations.WordDirectiveOnlyAdvancesTheCursor := by
  unfold Obligations.WordDirectiveOnlyAdvancesTheCursor
  intro c names blanks values line st hs separated hb spelt free count
  obtain ⟨table, bound, loaded⟩ := loadLine_data hs spelt free
  have rest : ∀ ch, (blanks ++ values).head? = some ch → isSpace ch = true := by
    intro ch h
    cases blanks with
    | nil =>
      have none : values = [] := Classical.not_not.mp fun hne => separated hne rfl
      simp [none] at h
    | cons x xs => cases h; exact hb _ List.mem_cons_self
  obtain ⟨first, after⟩ :=
    firstToken_append (token := chars ['.', 'w', 'o', 'r', 'd']) (rest := blanks ++ values) (by decide) rest
  rw [← List.append_assoc] at first after
  rw [trimStart_spaces_append _ hb] at after
  have noSwitch : chars ['.', 'w', 'o', 'r', 'd'] ∉ [text ".text", text ".data", text ".globl"] := by decide
  rw [if_neg (by simp), loadBody_data (st := { st with dataLabels := table }) hs first noSwitch, after, loadDataLine, if_neg (by decide), if_pos rfl,
    wordCount_trimStart] at loaded
  exact ⟨_, loaded, bound, rfl, rfl, rfl, rfl, rfl⟩

/-- A body has a payload only where blanks and a quoted text follow `.asciiz`. -/
theorem body_of_asciizPayload {payload : Text} (first : body.takeWhile (!isSpace ·) = text ".asciiz")
    (h : asciizPayload (bodyOf body) = some payload) :
    ∃ blanks, blanks ≠ [] ∧ (∀ ch ∈ blanks, isSpace ch = true) ∧
      body = text ".asciiz" ++ blanks ++ .scalar '"' :: (payload ++ [.scalar '"']) := by
  have quoted : bodyOf body = .scalar '"' :: (payload ++ [.scalar '"']) := asciizPayload_iff.mp h
  obtain ⟨blanks, hb, e⟩ := exists_spaces_trimStart (body.dropWhile (!isSpace ·))
  rw [show trimStart (body.dropWhile (!isSpace ·)) = bodyOf body from rfl, quoted] at e
  refine ⟨blanks, ?_, hb, ?_⟩
  · rintro rfl
    have quote := head_dropWhile (p := (!isSpace ·)) (t := body) (by rw [e]; rfl)
    exact absurd quote (by decide)
  · rw [← first, List.append_assoc, ← e, List.takeWhile_append_dropWhile]

/-- A segment switch or `.globl` in the data segment. -/
theorem loadBody_switch (hs : st.seg = .data)
    (switch : body.takeWhile (!isSpace ·) ∈ [text ".text", text ".data", text ".globl"]) :
    loadBody c body st =
      .ok { st with seg := if body.takeWhile (!isSpace ·) = text ".text" then .text else .data } := by
  simp only [List.mem_cons, List.not_mem_nil, or_false] at switch
  simp only [loadBody]
  rcases switch with first | first | first <;> rw [first]
  · rfl
  · rfl
  · rw [if_neg (by decide : text ".globl" ≠ text ".text"), ← hs]
    rfl

/-- A line that is no supported directive, where the parameters do not refuse it. -/
theorem loadDataLine_unsupported {first rest : Text} (lenient : c.strictDataDirectives = false)
    (noWord : first ≠ text ".word") (noString : first = text ".asciiz" → asciizPayload rest = none) :
    loadDataLine c body first rest st = .ok st := by
  have ignored : unsupportedData c body st = .ok st := by simp [unsupportedData, lenient]
  rw [loadDataLine, ignored]
  split
  · next asciiz => simp only [noString asciiz]
  · exact if_neg noWord

/-- Settles O57: the body is empty, its first token is a switch, or it is no supported directive. -/
theorem otherDataLinesOnlyBindTheirLabels : Obligations.OtherDataLinesOnlyBindTheirLabels := by
  unfold Obligations.OtherDataLinesOnlyBindTheirLabels
  intro c names body line st first hs spelt free allowed noWord noString
  obtain ⟨table, bound, loaded⟩ := loadLine_data hs spelt free
  suffices loadLine c line st =
      .ok { st with dataLabels := table, seg := if first = text ".text" then .text else .data } from
    ⟨_, this, bound, rfl, rfl, rfl, rfl, rfl⟩
  rw [loaded]
  by_cases empty : body = []
  · subst empty
    rw [if_pos rfl, if_neg (by decide : first ≠ text ".text"), ← hs]
  rw [if_neg empty]
  by_cases switch : first ∈ [text ".text", text ".data", text ".globl"]
  · exact loadBody_switch (st := { st with dataLabels := table }) hs switch
  · have lenient : c.strictDataDirectives = false :=
      allowed.resolve_right fun h => h.elim empty switch
    have noPayload : first = text ".asciiz" → asciizPayload (bodyOf body) = none := by
      intro asciiz
      by_contra some
      obtain ⟨payload, some⟩ := Option.ne_none_iff_exists'.mp some
      obtain ⟨blanks, spelt⟩ := body_of_asciizPayload asciiz some
      exact noString ⟨blanks, payload, spelt⟩
    have noText : first ≠ text ".text" := fun h => switch (h ▸ List.mem_cons_self)
    rw [loadBody_data (st := { st with dataLabels := table }) hs rfl switch, loadDataLine_unsupported lenient noWord noPayload,
      if_neg noText, ← hs]

end Sys2Proof.Machine
end
